-- ==== Sys2Proof/Word.lean ====
section
/-! DEFINITION. The two word types of the block: bytes and 16-bit values (00_scope.md R8). -/

namespace Sys2Proof

/-- A byte, `u8` of R8. -/
abbrev Byte := BitVec 8

/-- A 16-bit value: a device position or a time (`u16`), or an angle (`i16`, two's complement), R8, R131. -/
abbrev Half := BitVec 16

end Sys2Proof
end

