-- ==== Sys2Proof/Config.lean ====
section
/-! DEFINITION. The parameters the document leaves open (00_scope.md R7) as one plain record, and the values no
reader may know: uninterpreted constants without a body. -/

namespace Sys2Proof

/-- `ROUND_TIES` of R7: how `TO_ANGLE` rounds an exact half (R8, D14). -/
inductive RoundTies where
  | halfUp
  | halfEven
  | halfDown
  deriving DecidableEq, Repr

/-- The seven open parameters of R7, "a named argument of the model". They are carried by the machine's state, which
no step changes, so that a claim about every state is a claim about every setting.
DESIGN CHOICE, safe: log entry 2. -/
structure Params where
  /-- `RESCAN_ID_BYTE` (D4): a byte that fails the device-id check is looked at again as a header candidate. -/
  rescanIdByte : Bool
  /-- `OVERALL_LIMIT` (D8): a bound on the bytes one decode invocation consumes. -/
  overallLimit : Option Nat
  /-- `ROUND_TIES` (D14). -/
  roundTies : RoundTies
  /-- `POS_REPORT_TYPE` (D19): the TYPE byte of a position report. -/
  posReportType : Byte
  /-- `POS_OFFSET` (D20): index in the payload of the high byte of the reported position, 0 or 1. -/
  posOffset : Fin 2
  /-- `TORQUE_ON` (D18). -/
  torqueOn : Byte
  /-- `TORQUE_OFF` (D18). -/
  torqueOff : Byte
  /-- `FLUSH_BEFORE_COMMAND` (D10): discard unread received bytes before each command of an exchange. -/
  flushBeforeCommand : Bool
  deriving DecidableEq, Repr

/-- `POS_REPORT_TYPE` has no default (R7, D19): its setting at reset is uninterpreted, and nothing can be proved of
its value. Safe: log entry 3. -/
opaque Config.posReportType : Byte

/-- The `n`-th free 16-bit value: `map_pos_out` or `map_angle_out` after an error (U7). Safe: log entry 16. -/
opaque Config.freeHalf : Nat → Half

/-- The free byte read at index `i` of a PBUF entry that holds no payload of a valid frame (U5). Safe: log entry 21. -/
opaque Config.freePayload : Nat → Byte

/-- The free values of `rlen`, `rtype` and `pcnt` (signals 0, 1 and 2) read outside R_OK (U6). Safe: log entry 21. -/
opaque Config.freeSignal : Nat → Byte

end Sys2Proof
end

