-- ==== Sys2Proof/Machine/Constants.lean ====
section
/-! DEFINITION. The constants the document fixes (00_scope.md R5), the ones derived from them (R6), and the defaults
of the open parameters (R7). -/

namespace Sys2Proof.Machine

/-- `HEADER` of R5: the first byte of every frame. -/
def header : Byte := 0xFF#8
/-- `DEV_ID_TX` of R5: the second byte of an outgoing frame. -/
def devIdTx : Byte := 0xFC#8
/-- `DEV_ID_RX` of R5: the second byte of an incoming frame. -/
def devIdRx : Byte := 0xFB#8
/-- `CHK_SEED_TX` of R5. -/
def chkSeedTx : Nat := 5
/-- `MIN_LEN` of R6: the smallest length byte the assembler accepts. -/
def minLen : Nat := 3
/-- `LEN_OVERHEAD` of R5: `data_len = length - 2`. -/
def lenOverhead : Nat := 2
/-- `MAX_PAYLOAD` of R6: the capacity of PBUF. -/
abbrev maxPayload : Nat := 252
/-- `MAX_FRAME` of R6: header, device id and 255 counted bytes. -/
def maxFrame : Nat := 257
/-- `ID_ALL` of R5: the servo id that means all six. -/
def idAll : Byte := 0#8
/-- `N_SERVOS` of R5. -/
def nServos : Nat := 6
/-- `PING_ID_MIN` of R5. -/
def pingIdMin : Int := 1
/-- `PING_ID_MAX` of R5. -/
def pingIdMax : Int := 250
/-- `DEG_MAX_STD` of R5. -/
def degMaxStd : Nat := 180
/-- `DEG_MAX_S5` of R5. -/
def degMaxS5 : Nat := 270
/-- `POS_MIN_STD` of R5. -/
def posMinStd : Nat := 900
/-- `POS_MAX_STD` of R5. -/
def posMaxStd : Nat := 3100
/-- `POS_MIN_S5` of R5. -/
def posMinS5 : Nat := 380
/-- `POS_MAX_S5` of R5. -/
def posMaxS5 : Nat := 3700
/-- `INVERTED_IDS` of R5: the servos whose angle is reflected. -/
def invertedIds : List Byte := [2#8, 3#8, 4#8]
/-- `CMD_WRITE_ALL` of R5. -/
def cmdWriteAll : Byte := 0x1D#8
/-- `CMD_WRITE_ONE_BASE` of R5. -/
def cmdWriteOneBase : Byte := 0x10#8
/-- `CMD_TORQUE` of R5. -/
def cmdTorque : Byte := 0x1A#8
/-- `CMD_PING` of R5. -/
def cmdPing : Byte := 0x38#8
/-- `CMD_READ_POS_BASE` of R5. -/
def cmdReadPosBase : Byte := 0x30#8
/-- `CMD_BUZZER` of R5. -/
def cmdBuzzer : Byte := 0x06#8
/-- LEN of a bulk write (R5, R67). -/
def lenWriteAll : Byte := 0x11#8
/-- LEN of a single write (R5, R67). -/
def lenWriteOne : Byte := 0x07#8
/-- LEN of the commands with one payload byte: torque, ping, buzzer (R5, R67). -/
def lenOneByte : Byte := 0x04#8
/-- LEN of a read-position command (R5, R67). -/
def lenReadPos : Byte := 0x03#8
/-- `READ_ATTEMPTS` of R5: write-and-await cycles of `SEQ_READ_ANGLE`. -/
def readAttempts : Nat := 2
/-- The shortest payload of a position report (R176). -/
def reportMinPayload : Nat := 3
/-- The sentinel of `SEQ_READ_ANGLE` (R206). -/
def readSentinel : Int := -1
/-- The sentinel of `SEQ_PING` (R206). -/
def pingSentinel : Byte := 0#8

/-- The defaults of R7. `TORQUE_ON` and `TORQUE_OFF` are general knowledge in the spec itself (G2); PRESUMED, unsafe:
log entry 2. `POS_REPORT_TYPE` has no default: log entry 3. -/
def defaultParams : Params :=
  { rescanIdByte := false
    overallLimit := none
    roundTies := .halfUp
    posReportType := Config.posReportType
    posOffset := 1
    torqueOn := 0x01#8
    torqueOff := 0x00#8
    flushBeforeCommand := false }

end Sys2Proof.Machine
end

