-- ==== Sys2Proof/Machine/Operands.lean ====
section
/-! DEFINITION. How operands are taken apart and put together: byte order of 16-bit fields (R45, R65), sums of byte
sequences (R8), and servo ids. -/

namespace Sys2Proof.Machine

/-- `hi8(v) = v[15:8]` of R8. -/
def hi8 (v : Half) : Byte := v.extractLsb' 8 8

/-- `lo8(v) = v[7:0]` of R8. -/
def lo8 (v : Half) : Byte := v.extractLsb' 0 8

/-- Two consecutive payload bytes as a 16-bit value, most significant byte first (R45, R65). -/
def be16 (a b : Byte) : Half := a ++ b

/-- The two payload bytes of a 16-bit field, most significant byte first (R45, R65). -/
def bytes16 (v : Half) : List Byte := [hi8 v, lo8 v]

/-- `sum(s)` of R8: the sum of a sequence's bytes as a natural number. -/
def sumBytes : List Byte → Nat
  | [] => 0
  | b :: s => b.toNat + sumBytes s

/-- An integer servo or device id as the byte that travels (R154, R155); used where the id has been checked. -/
def idByte (id : Int) : Byte := BitVec.ofInt 8 id

end Sys2Proof.Machine
end

