-- ==== Sys2Proof/Machine/Checksum.lean ====
section
/-! DEFINITION. The two checksum functions, `CHK_OUT` (R90) and `CHK_IN` (R100), and the byte-by-byte form of their
arithmetic (R91). -/

namespace Sys2Proof.Machine

/-- `CHK_OUT(s) = (CHK_SEED_TX + sum(s)) mod 256` (R90). -/
def chkOut (s : List Byte) : Byte := BitVec.ofNat 8 (chkSeedTx + sumBytes s)

/-- `CHK_IN(len, type, p) = (len + type + sum(p)) mod 256` (R100). -/
def chkIn (len type : Byte) (p : List Byte) : Byte :=
  BitVec.ofNat 8 (len.toNat + type.toNat + sumBytes p)

/-- One byte added to a running checksum, carry dropped (R91). -/
def addByte (sum b : Byte) : Byte := sum + b

end Sys2Proof.Machine
end

