-- ==== Sys2Proof/Syntax.lean ====
section
/-! DEFINITION. The operations of the block, one constructor per row of spec/opcode_table.json (R4, R75). -/

namespace Sys2Proof

/-- The operand forms of `ENCODE` (R92): the whole command sequence as a function, and the three events of the
streaming interface (R23). -/
inductive EncodeForm where
  /-- `ENCODE(s)` as a function. -/
  | whole (cmd : List Byte)
  /-- The event `enc_start`. -/
  | start
  /-- The event `enc_byte(b)`. -/
  | byte (b : Byte)
  /-- The event `enc_end`. -/
  | stop
  deriving DecidableEq, Repr

/-- A device path, opaque to the spec (R177): the bytes of its name. -/
abbrev Path := List Byte

/-- The 41 rows of the operation and frame table. -/
inductive Instr where
  /-- `FMT_WRITE_ALL(p1, .., p6, t)` (R151). -/
  | fmtWriteAll (p1 p2 p3 p4 p5 p6 t : Half)
  /-- `FMT_WRITE_ONE(1, p, t)` (R152). -/
  | fmtWriteOne1 (p t : Half)
  /-- `FMT_WRITE_ONE(2, p, t)` (R152). -/
  | fmtWriteOne2 (p t : Half)
  /-- `FMT_WRITE_ONE(3, p, t)` (R152). -/
  | fmtWriteOne3 (p t : Half)
  /-- `FMT_WRITE_ONE(4, p, t)` (R152). -/
  | fmtWriteOne4 (p t : Half)
  /-- `FMT_WRITE_ONE(5, p, t)` (R152). -/
  | fmtWriteOne5 (p t : Half)
  /-- `FMT_WRITE_ONE(6, p, t)` (R152). -/
  | fmtWriteOne6 (p t : Half)
  /-- `FMT_TORQUE(v)` (R153). -/
  | fmtTorque (v : Byte)
  /-- `FMT_PING(id)` (R154). -/
  | fmtPing (id : Byte)
  /-- `FMT_READ_POS(1)` (R155). -/
  | fmtReadPos1
  /-- `FMT_READ_POS(2)` (R155). -/
  | fmtReadPos2
  /-- `FMT_READ_POS(3)` (R155). -/
  | fmtReadPos3
  /-- `FMT_READ_POS(4)` (R155). -/
  | fmtReadPos4
  /-- `FMT_READ_POS(5)` (R155). -/
  | fmtReadPos5
  /-- `FMT_READ_POS(6)` (R155). -/
  | fmtReadPos6
  /-- `FMT_BUZZER(d)` (R156). -/
  | fmtBuzzer (d : Byte)
  /-- An incoming frame `FF FB LEN TYPE body` (R63, R71): `body` is the `LEN - 2` bytes after TYPE, the payload and
  then the checksum byte; it is empty in the invalid-length case LEN < 3. -/
  | rxFrame (len type : Byte) (body : List Byte)
  /-- `CHK_OUT(s)` (R90). -/
  | chkOut (bs : List Byte)
  /-- `ENCODE(s)` and its event form (R92). -/
  | encode (form : EncodeForm)
  /-- `CHK_IN(len, type, p)` (R100). -/
  | chkIn (len type : Byte) (p : List Byte)
  /-- `RX_START` (R101). -/
  | rxStart
  /-- `RX_BYTE(b)` in state HUNT (R102). -/
  | rxByteHunt (b : Byte)
  /-- `RX_BYTE(b)` in state ID (R103). -/
  | rxByteId (b : Byte)
  /-- `RX_BYTE(b)` in state LEN (R104). -/
  | rxByteLen (b : Byte)
  /-- `RX_BYTE(b)` in state TYPE, `RLEN >= 3` (R105). -/
  | rxByteTypeValid (b : Byte)
  /-- `RX_BYTE(b)` in state TYPE, `RLEN < 3` (R106). -/
  | rxByteTypeInvalid (b : Byte)
  /-- `RX_BYTE(b)` in state DATA, `REM > 1` (R107). -/
  | rxByteDataPayload (b : Byte)
  /-- `RX_BYTE(b)` in state DATA, `REM = 1` (R108). -/
  | rxByteDataChecksum (b : Byte)
  /-- `RX_BYTE(b)` with `OVERALL_LIMIT` set (R110). -/
  | rxByteLimit (b : Byte)
  /-- `RX_BYTE(b)` in state IDLE (R111). -/
  | rxByteIdle (b : Byte)
  /-- `RX_NODATA` (R109, R111). -/
  | rxNodata
  /-- `DECODE()` (R112). -/
  | decode
  /-- `TO_POSITION(id, angle)` (R132). -/
  | toPosition (id : Byte) (angle : Half)
  /-- `TO_ANGLE(id, pos)` (R133). -/
  | toAngle (id : Byte) (pos : Half)
  /-- `SEQ_OPEN(path)` (R177). -/
  | seqOpen (path : Path)
  /-- `SEQ_WRITE_ALL(angles, time_ms)` (R171). -/
  | seqWriteAll (a1 a2 a3 a4 a5 a6 time : Half)
  /-- `SEQ_WRITE_ONE(id, angle, time_ms)` (R172). -/
  | seqWriteOne (id : Byte) (angle time : Half)
  /-- `SEQ_SET_TORQUE(enabled)` (R173). -/
  | seqSetTorque (enabled : Bool)
  /-- `SEQ_PING(id)` (R174). -/
  | seqPing (id : Int)
  /-- `SEQ_READ_ANGLE(id)` (R176). -/
  | seqReadAngle (id : Int)
  /-- `SEQ_CLOSE()` (R178). -/
  | seqClose
  deriving DecidableEq, Repr

end Sys2Proof
end

