-- ==== Sys2Proof/WellFormed.lean ====
section
/-! DEFINITION. Which operations are well formed: the operand constraints the table states beyond the operands'
types. The ids of the formatters are no part of it: outside their precondition the formatters are total (U10, log
entry 11). -/

namespace Sys2Proof

/-- An incoming frame has exactly the `LEN - 2` bytes after TYPE that its length byte announces, none in the
invalid-length case (R63, R71, R73); the payload operand of `CHK_IN` has at most 252 bytes (R100). -/
def Instr.wellFormed : Instr → Bool
  | .rxFrame len _ body => body.length == len.toNat - Machine.lenOverhead
  | .chkIn _ _ p => p.length ≤ Machine.maxPayload
  | .fmtWriteAll .. => true
  | .fmtWriteOne1 .. => true
  | .fmtWriteOne2 .. => true
  | .fmtWriteOne3 .. => true
  | .fmtWriteOne4 .. => true
  | .fmtWriteOne5 .. => true
  | .fmtWriteOne6 .. => true
  | .fmtTorque .. => true
  | .fmtPing .. => true
  | .fmtReadPos1 => true
  | .fmtReadPos2 => true
  | .fmtReadPos3 => true
  | .fmtReadPos4 => true
  | .fmtReadPos5 => true
  | .fmtReadPos6 => true
  | .fmtBuzzer .. => true
  | .chkOut .. => true
  | .encode .. => true
  | .rxStart => true
  | .rxByteHunt .. => true
  | .rxByteId .. => true
  | .rxByteLen .. => true
  | .rxByteTypeValid .. => true
  | .rxByteTypeInvalid .. => true
  | .rxByteDataPayload .. => true
  | .rxByteDataChecksum .. => true
  | .rxByteLimit .. => true
  | .rxByteIdle .. => true
  | .rxNodata => true
  | .decode => true
  | .toPosition .. => true
  | .toAngle .. => true
  | .seqOpen .. => true
  | .seqWriteAll .. => true
  | .seqWriteOne .. => true
  | .seqSetTorque .. => true
  | .seqPing .. => true
  | .seqReadAngle .. => true
  | .seqClose => true

end Sys2Proof
end

