-- ==== Sys2Proof/Decode.lean ====
section
/-! DEFINITION. The decoder from the bytes of a frame to its operation, total and rejecting by name, and the encoder.
A TXFRAME row is spelled by its command bytes `FF FC LEN CMD payload` (R69, R150), with or without the checksum byte
`ENCODE` appends to them (R61); an RXFRAME by `FF FB LEN TYPE` and `LEN - 2` more bytes (R63, R71, R73). The OPERATION
rows have no bit pattern (R75(c)). DESIGN CHOICE, safe: log entry 10. -/

namespace Sys2Proof

open Machine

/-- Why a byte sequence is not the spelling of one operation. -/
inductive DecodeError where
  /-- It ends before the frame does. -/
  | truncated
  /-- Its first byte is not the header 0xFF (R60). -/
  | noHeader
  /-- Its second byte is neither 0xFC nor 0xFB (R61, R63). -/
  | badDevice
  /-- Its LEN and CMD bytes are none of the sixteen patterns of R69. -/
  | unknownCommand
  /-- A checksum byte follows the command bytes and is not the one of R61. -/
  | badChecksum
  /-- It goes on after the frame's end. -/
  | trailing
  deriving DecidableEq, Repr

/-- The command with this LEN, this CMD and this payload (R68, R69). -/
def decodeCommand (len cmd : Byte) (payload : List Byte) : Option Instr :=
  if len = lenWriteAll ∧ cmd = cmdWriteAll then
    match payload with
    | [a, b, c, d, e, f, g, h, i, j, k, l, m, n] =>
      some (.fmtWriteAll (be16 a b) (be16 c d) (be16 e f) (be16 g h) (be16 i j) (be16 k l) (be16 m n))
    | _ => none
  else if len = lenWriteOne then
    match payload with
    | [a, b, c, d] =>
      let p := be16 a b
      let t := be16 c d
      if cmd = cmdWriteOneBase + 1#8 then some (.fmtWriteOne1 p t)
      else if cmd = cmdWriteOneBase + 2#8 then some (.fmtWriteOne2 p t)
      else if cmd = cmdWriteOneBase + 3#8 then some (.fmtWriteOne3 p t)
      else if cmd = cmdWriteOneBase + 4#8 then some (.fmtWriteOne4 p t)
      else if cmd = cmdWriteOneBase + 5#8 then some (.fmtWriteOne5 p t)
      else if cmd = cmdWriteOneBase + 6#8 then some (.fmtWriteOne6 p t)
      else none
    | _ => none
  else if len = lenOneByte then
    match payload with
    | [v] =>
      if cmd = cmdTorque then some (.fmtTorque v)
      else if cmd = cmdPing then some (.fmtPing v)
      else if cmd = cmdBuzzer then some (.fmtBuzzer v)
      else none
    | _ => none
  else if len = lenReadPos then
    match payload with
    | [] =>
      if cmd = cmdReadPosBase + 1#8 then some .fmtReadPos1
      else if cmd = cmdReadPosBase + 2#8 then some .fmtReadPos2
      else if cmd = cmdReadPosBase + 3#8 then some .fmtReadPos3
      else if cmd = cmdReadPosBase + 4#8 then some .fmtReadPos4
      else if cmd = cmdReadPosBase + 5#8 then some .fmtReadPos5
      else if cmd = cmdReadPosBase + 6#8 then some .fmtReadPos6
      else none
    | _ => none
  else none

/-- The bytes after `FF FC LEN CMD`: the payload LEN announces (R62), then nothing or the checksum byte (R61). -/
def decodeTx (len cmd : Byte) (rest : List Byte) : Except DecodeError Instr :=
  let n := len.toNat - minLen
  let payload := rest.take n
  if rest.length < n then .error .truncated
  else
    match decodeCommand len cmd payload with
    | none => .error .unknownCommand
    | some i =>
      match rest.drop n with
      | [] => .ok i
      | [c] =>
        if c = chkOut (header :: devIdTx :: len :: cmd :: payload) then .ok i else .error .badChecksum
      | _ => .error .trailing

/-- The bytes after `FF FB LEN TYPE`: exactly `LEN - 2` (R73), none when LEN < 3 (R71). -/
def decodeRx (len type : Byte) (rest : List Byte) : Except DecodeError Instr :=
  let n := len.toNat - lenOverhead
  if rest.length < n then .error .truncated
  else if n < rest.length then .error .trailing
  else .ok (.rxFrame len type rest)

/-- The operation a byte sequence spells. -/
def decode : List Byte → Except DecodeError Instr
  | h :: d :: len :: x :: rest =>
    if h ≠ header then .error .noHeader
    else if d = devIdTx then decodeTx len x rest
    else if d = devIdRx then decodeRx len x rest
    else .error .badDevice
  | _ => .error .truncated

/-- The bytes of a frame operation as the table lays them out (R61, R63, R68): a command's command bytes, without the
checksum byte, or a whole incoming frame; none for an OPERATION row, which has no bit pattern (R75(c)). -/
def encode : Instr → Option (List Byte)
  | .fmtWriteAll p1 p2 p3 p4 p5 p6 t =>
    some ([header, devIdTx, lenWriteAll, cmdWriteAll] ++ bytes16 p1 ++ bytes16 p2 ++ bytes16 p3 ++ bytes16 p4
      ++ bytes16 p5 ++ bytes16 p6 ++ bytes16 t)
  | .fmtWriteOne1 p t => some ([header, devIdTx, lenWriteOne, cmdWriteOneBase + 1#8] ++ bytes16 p ++ bytes16 t)
  | .fmtWriteOne2 p t => some ([header, devIdTx, lenWriteOne, cmdWriteOneBase + 2#8] ++ bytes16 p ++ bytes16 t)
  | .fmtWriteOne3 p t => some ([header, devIdTx, lenWriteOne, cmdWriteOneBase + 3#8] ++ bytes16 p ++ bytes16 t)
  | .fmtWriteOne4 p t => some ([header, devIdTx, lenWriteOne, cmdWriteOneBase + 4#8] ++ bytes16 p ++ bytes16 t)
  | .fmtWriteOne5 p t => some ([header, devIdTx, lenWriteOne, cmdWriteOneBase + 5#8] ++ bytes16 p ++ bytes16 t)
  | .fmtWriteOne6 p t => some ([header, devIdTx, lenWriteOne, cmdWriteOneBase + 6#8] ++ bytes16 p ++ bytes16 t)
  | .fmtTorque v => some [header, devIdTx, lenOneByte, cmdTorque, v]
  | .fmtPing id => some [header, devIdTx, lenOneByte, cmdPing, id]
  | .fmtReadPos1 => some [header, devIdTx, lenReadPos, cmdReadPosBase + 1#8]
  | .fmtReadPos2 => some [header, devIdTx, lenReadPos, cmdReadPosBase + 2#8]
  | .fmtReadPos3 => some [header, devIdTx, lenReadPos, cmdReadPosBase + 3#8]
  | .fmtReadPos4 => some [header, devIdTx, lenReadPos, cmdReadPosBase + 4#8]
  | .fmtReadPos5 => some [header, devIdTx, lenReadPos, cmdReadPosBase + 5#8]
  | .fmtReadPos6 => some [header, devIdTx, lenReadPos, cmdReadPosBase + 6#8]
  | .fmtBuzzer d => some [header, devIdTx, lenOneByte, cmdBuzzer, d]
  | .rxFrame len type body => some (header :: devIdRx :: len :: type :: body)
  | .chkOut .. => none
  | .encode .. => none
  | .chkIn .. => none
  | .rxStart => none
  | .rxByteHunt .. => none
  | .rxByteId .. => none
  | .rxByteLen .. => none
  | .rxByteTypeValid .. => none
  | .rxByteTypeInvalid .. => none
  | .rxByteDataPayload .. => none
  | .rxByteDataChecksum .. => none
  | .rxByteLimit .. => none
  | .rxByteIdle .. => none
  | .rxNodata => none
  | .decode => none
  | .toPosition .. => none
  | .toAngle .. => none
  | .seqOpen .. => none
  | .seqWriteAll .. => none
  | .seqWriteOne .. => none
  | .seqSetTorque .. => none
  | .seqPing .. => none
  | .seqReadAngle .. => none
  | .seqClose => none

/-- The whole frame on the wire: a command's bytes with the checksum of R61 after them; an incoming frame as it is. -/
def encodeFrame (i : Instr) : Option (List Byte) :=
  match i with
  | .rxFrame .. => encode i
  | _ => (encode i).map fun s => s ++ [chkOut s]

/-- The `k`-th 32-bit word of the table's number `w`, as the four bytes it stands for, most significant first (R69). -/
def tableWord (w k : Nat) : List Byte :=
  [BitVec.ofNat 8 (w >>> (32 * k + 24)), BitVec.ofNat 8 (w >>> (32 * k + 16)),
   BitVec.ofNat 8 (w >>> (32 * k + 8)), BitVec.ofNat 8 (w >>> (32 * k))]

/-- How many bytes the frame that begins with these bytes spans in the decoder's spelling (R61, R62, R73). -/
def frameSize : List Byte → Nat
  | _ :: d :: len :: _ => if d = devIdRx then (len.toNat - lenOverhead) + 4 else len.toNat + 1
  | _ => 0

/-- The bytes of a table row's number `w` of `nbits` bits, every later byte of the frame 0. -/
def tableBytes (nbits w : Nat) : List Byte :=
  let words := (List.range (max 1 ((nbits + 31) / 32))).flatMap (tableWord w)
  words ++ List.replicate (frameSize words - words.length) 0#8

/-- The operation the decoder reads from a table row's number. -/
def decodeTableWord (nbits w : Nat) : Option Instr :=
  match decode (tableBytes nbits w) with
  | .ok i => some i
  | .error _ => none

end Sys2Proof
end

