-- ==== Sys2Proof/Machine/State.lean ====
section
/-! DEFINITION. The machine's state: every register of 10_state.md, the environment the block is observed through
(R24, R40), the parameters of R7, and the model's own bookkeeping; the outcomes a step can stop with; reset. -/

namespace Sys2Proof.Machine

/-- `TST` of R11: whether a frame is being encoded. -/
inductive TxState where
  | idle
  | busy
  deriving DecidableEq, Repr

/-- `ST` of R12: what the next received byte is taken as. Codes 6 and 7 do not exist. -/
inductive ScanState where
  | idle
  | hunt
  | id
  | len
  | typ
  | data
  deriving DecidableEq, Repr

/-- `RES` of R17: the result of the last decode invocation. -/
inductive RxResult where
  | rNone
  | rOk
  | rTimeout
  | rBadLen
  | rLimit
  deriving DecidableEq, Repr

/-- `map_err` of R23. -/
inductive MapErr where
  | none
  | errId
  | errRange
  deriving DecidableEq, Repr

/-- `LIFE` of R22. -/
inductive Life where
  | closed
  | operating
  deriving DecidableEq, Repr

/-- The thirteen causes of failure of R190. -/
inductive Cause where
  | connection
  | rangeAngle
  | rangeId
  | partialWrite
  | ioError
  | rxTimeout
  | rxBadLen
  | rxBadChecksum
  | rxBadDevid
  | rxLimit
  | respType
  | respShort
  | respRange
  deriving DecidableEq, Repr

/-- An answer of the transport to `RxNext()` (R41). -/
inductive RxAnswer where
  | byte (b : Byte)
  | noData
  deriving DecidableEq, Repr

/-- An answer of the transport to `TxWrite(s)` (R43). -/
inductive TxAnswer where
  | accepted (k : Nat)
  | ioFail
  deriving DecidableEq, Repr

/-- A report of R193 or R194: an observable side output, not a result. -/
inductive Report where
  | partialWrite (k n : Nat)
  | ioError
  deriving DecidableEq, Repr

/-- Unit ENC (R11). `out` is its output `tx_byte`, collected since `enc_start` (R92). -/
structure Enc where
  tst : TxState
  tsum : Byte
  out : List Byte
  deriving DecidableEq, Repr

/-- Unit ASM (R12 to R18). -/
structure Asm where
  st : ScanState
  rlen : Byte
  rtype : Byte
  rem : Byte
  sum : Byte
  pbuf : Vector Byte maxPayload
  pcnt : Byte
  res : RxResult
  ncons : Nat
  deriving DecidableEq, Repr

/-- The outputs of unit MAP (R23), as the last operation of that direction drove them; MAP has no register (R20). -/
structure MapOut where
  err : MapErr
  posOut : Half
  angleOut : Half
  deriving DecidableEq, Repr

/-- The state of layer SEQ (R22). -/
structure Seq where
  life : Life
  att : Nat
  deriving DecidableEq, Repr

/-- The transport, as far as the block and its user can observe it (R24, R40, R43): `held`, the bytes received and not
yet read, oldest first; `next`, the answers to `RxNext()` the environment has chosen, after which the transport hands
over what it holds; `tx`, the bytes it has taken; `txNext`, its further
answers to `TxWrite`; `openNext`, its further answers to the request to open; `handle`, the path the open handle is
bound to; `releases`, how often a handle was released; `reports`, oldest first. The three lists of further answers are
the environment's choice (R41): log entry 5. -/
structure Line where
  held : List Byte
  next : List RxAnswer
  tx : List Byte
  txNext : List TxAnswer
  openNext : List Bool
  handle : Option Path
  releases : Nat
  reports : List Report
  deriving DecidableEq, Repr

/-- An input the machine has not taken yet: an operation or event, or the bytes that spell one. Log entry 4. -/
inductive Request where
  | op (i : Instr)
  | frame (bytes : List Byte)
  deriving DecidableEq, Repr

/-- The blocking call that waits in `RxNext()` (R112 `Pending`, R170), with what it needs to go on. Log entry 8. -/
inductive Call where
  | none
  | decode
  | ping
  | readAngle (id : Byte)
  deriving DecidableEq, Repr

/-- What an operation returned to its caller (R8, R202). -/
inductive Result where
  /-- No operation has returned yet. -/
  | none
  /-- The operation waits in `RxNext()` (R112). -/
  | pending
  /-- It completed and returns no value, or `Ok` alone. -/
  | done
  /-- A checksum (R90, R100). -/
  | byte (b : Byte)
  /-- A byte sequence (R92, R150). -/
  | bytes (bs : List Byte)
  /-- `Ok(len, type, payload)` of `DECODE` (R112). -/
  | frame (len type : Byte) (payload : List Byte)
  /-- `Err(RES)` of `DECODE` (R112). -/
  | decodeErr (r : RxResult)
  /-- `Ok(pos)` of `TO_POSITION` (R132). -/
  | position (p : Half)
  /-- `Ok(angle)` of `TO_ANGLE` (R133). -/
  | angle (a : Half)
  /-- `Err(ERR_ID)` or `Err(ERR_RANGE)` of the mapper (R132, R133). -/
  | mapErr (e : MapErr)
  /-- `Ok(code)` of `SEQ_PING` (R174). -/
  | code (b : Byte)
  /-- The integer `SEQ_READ_ANGLE` returns: degrees, or the sentinel -1 (R176). -/
  | degrees (a : Int)
  /-- `Err` of a sequence, with the cause of R190 whose class the caller sees. -/
  | err (c : Cause)
  deriving DecidableEq, Repr

/-- The whole machine. -/
structure State where
  enc : Enc
  asm : Asm
  map : MapOut
  seq : Seq
  line : Line
  par : Params
  inbox : List Request
  call : Call
  result : Result
  fresh : Nat
  deriving DecidableEq, Repr

/-- The faults of the model: states no run from reset reaches and for which the spec has no rule. Log entry 17. -/
inductive Fault where
  /-- A byte taken in state DATA with `REM = 0`, which R19(a) excludes and neither R107 nor R108 covers. Raised by every
  RX_BYTE row, RXFRAME and whatever runs a decode. Safe: the machine stops. -/
  | remZero
  /-- A payload byte with `PCNT >= 252`: PBUF has no such entry (R16, R19(e)). Raised like `remZero`. Safe: the
  machine stops. -/
  | pbufIndex
  deriving DecidableEq, Repr

/-- The refusals of the model: uses the spec calls outside the specification and treats by `refuse` (U1, U2, U8, U9),
and inputs that are no operation. -/
inductive Refusal where
  /-- An operation with no meaning yet; raised by `exec` alone. Safe. -/
  | notModelled (mnemonic : String)
  /-- The bytes offered spell no operation; raised by the fetch. Safe. -/
  | undecodable (e : DecodeError)
  /-- The operation's operands are not those the table allows; raised by the fetch. Safe. -/
  | illFormed
  /-- ENC events out of order (U1): `enc_byte` or `enc_end` while TST = T_IDLE, `enc_start` while TST = T_BUSY; raised
  by ENCODE. Safe. -/
  | encoderOrder
  /-- A decode invocation begun while one runs (U2); raised by RX_START, DECODE, SEQ_PING, SEQ_READ_ANGLE. Safe. -/
  | decodeRunning
  /-- A sequence while LIFE = L_CLOSED (U8); raised by every sequence but SEQ_OPEN and SEQ_CLOSE. Safe. -/
  | lifeClosed
  /-- SEQ_OPEN while LIFE = L_OPERATING (U8). Safe. -/
  | lifeOperating
  /-- A sequence begun while the one client waits in another call (U9, R227); raised by every sequence. Safe. -/
  | clientBusy
  deriving DecidableEq, Repr

/-- ENC after reset (R25); TSUM unspecified there: DESIGN CHOICE, unsafe, log entry 1. -/
def Enc.reset : Enc := { tst := .idle, tsum := 0#8, out := [] }

/-- ASM after reset (R25); all but ST and RES unspecified there: DESIGN CHOICE, unsafe, log entry 1. -/
def Asm.reset : Asm :=
  { st := .idle, rlen := 0#8, rtype := 0#8, rem := 0#8, sum := 0#8, pbuf := Vector.replicate maxPayload 0#8,
    pcnt := 0#8, res := .rNone, ncons := 0 }

/-- The machine right after reset (R25, R220). -/
def State.reset : State :=
  { enc := Enc.reset
    asm := Asm.reset
    map := { err := .none, posOut := 0#16, angleOut := 0#16 }
    seq := { life := .closed, att := 0 }
    line := { held := [], next := [], tx := [], txNext := [], openNext := [], handle := none, releases := 0,
              reports := [] }
    par := defaultParams
    inbox := []
    call := .none
    result := .none
    fresh := 0 }

end Sys2Proof.Machine
end

