-- ==== Sys2Proof/Machine/Flags.lean ====
section
/-! DEFINITION. The block's status codes: the numeric codes of its enumerations (R11, R12, R17, R22, R23), and the
causes of failure with their codes and classes (R190). The block has no carry and no overflow flag (R17). -/

namespace Sys2Proof.Machine

/-- Codes of TST (R11). -/
def TxState.code : TxState → Nat
  | .idle => 0
  | .busy => 1

/-- Codes of ST (R12). -/
def ScanState.code : ScanState → Nat
  | .idle => 0
  | .hunt => 1
  | .id => 2
  | .len => 3
  | .typ => 4
  | .data => 5

/-- Codes of RES (R17). -/
def RxResult.code : RxResult → Nat
  | .rNone => 0
  | .rOk => 1
  | .rTimeout => 2
  | .rBadLen => 3
  | .rLimit => 4

/-- Codes of LIFE (R22). -/
def Life.code : Life → Nat
  | .closed => 0
  | .operating => 1

/-- Codes of map_err (R23). -/
def MapErr.code : MapErr → Nat
  | .none => 0
  | .errId => 1
  | .errRange => 2

/-- The four classes of the document's error taxonomy (R190). -/
inductive ErrorClass where
  | connectionError
  | rangeError
  | ioError
  | protocolError
  deriving DecidableEq, Repr

/-- Codes of the causes (R190, D24). -/
def Cause.code : Cause → Nat
  | .connection => 1
  | .rangeAngle => 2
  | .rangeId => 3
  | .partialWrite => 4
  | .ioError => 5
  | .rxTimeout => 6
  | .rxBadLen => 7
  | .rxBadChecksum => 8
  | .rxBadDevid => 9
  | .rxLimit => 10
  | .respType => 11
  | .respShort => 12
  | .respRange => 13

/-- The class of each cause (R190). -/
def Cause.errorClass : Cause → ErrorClass
  | .connection => .connectionError
  | .rangeAngle => .rangeError
  | .rangeId => .rangeError
  | .partialWrite => .ioError
  | .ioError => .ioError
  | .rxTimeout => .protocolError
  | .rxBadLen => .protocolError
  | .rxBadChecksum => .protocolError
  | .rxBadDevid => .protocolError
  | .rxLimit => .protocolError
  | .respType => .protocolError
  | .respShort => .protocolError
  | .respRange => .protocolError

/-- The cause a failed decode reports through RES (R190, rows 6, 7 and 10). -/
def RxResult.cause : RxResult → Option Cause
  | .rNone => none
  | .rOk => none
  | .rTimeout => some .rxTimeout
  | .rBadLen => some .rxBadLen
  | .rLimit => some .rxLimit

/-- The cause a mapper error stands for when `TO_POSITION` raises it (R190, rows 2 and 3). -/
def MapErr.cause : MapErr → Option Cause
  | .none => Option.none
  | .errId => some .rangeId
  | .errRange => some .rangeAngle

/-- The cause of a report (R190, rows 4 and 5). -/
def Report.cause : Report → Cause
  | .partialWrite _ _ => .partialWrite
  | .ioError => .ioError

end Sys2Proof.Machine
end

