-- ==== Sys2Proof/Machine/Ops.lean ====
section
/-! DEFINITION. The shared operations: the transport's primitives (R41, R43, R177, R178), access to PBUF (R16), and how
an operation returns, waits or fails (R202: there is no trap; a failed operation returns to its caller). -/

namespace Sys2Proof.Machine

/-! ### The transport -/

/-- A byte comes in from the line and waits behind the unread ones (R24, R41, R51(a)). -/
def Line.arrive (b : Byte) (l : Line) : Line := { l with held := l.held ++ [b] }

/-- The unread bytes after `RxNext()` has answered with `b`: the answer is the oldest unread byte and is thereby removed
(R41). An answer that is not the oldest unread byte removes nothing: DESIGN CHOICE, safe, log entry 6. -/
def dropUnread (b : Byte) : List Byte → List Byte
  | [] => []
  | c :: held => if c = b then held else c :: held

/-- The unread bytes after these answers; `NoData` removes nothing (R41). -/
def unreadAfter : List RxAnswer → List Byte → List Byte
  | [], held => held
  | .byte b :: xs, held => unreadAfter xs (dropUnread b held)
  | .noData :: xs, held => unreadAfter xs held

/-- `RxNext()` has answered with the byte `b` (R41). -/
def Line.handOver (b : Byte) (l : Line) : Line := { l with held := dropUnread b l.held }

/-- The first `k` bytes of `f` enter the TX stream, the rest are dropped; fewer than all of them is reported (R43,
R193). An answer `k` beyond the frame's length takes the frame whole: log entry 20. -/
def Line.accept (k : Nat) (f : List Byte) (l : Line) : Line :=
  { l with
    tx := l.tx ++ f.take k
    reports := if k < f.length then l.reports ++ [.partialWrite k f.length] else l.reports }

/-- `TxWrite(f)` (R43): one write of the whole frame, answered by the environment's next answer. Where the list of
answers is used up the frame is taken whole: DESIGN CHOICE, unsafe, log entry 5. -/
def Line.txWrite (f : List Byte) (l : Line) : Line :=
  match l.txNext with
  | [] => l.accept f.length f
  | .accepted k :: rest => { l with txNext := rest }.accept k f
  | .ioFail :: rest => { l with txNext := rest, reports := l.reports ++ [.ioError] }

/-- Every byte the transport holds unread is discarded (R170, `FLUSH_BEFORE_COMMAND`). -/
def Line.flush (l : Line) : Line := { l with held := [] }

/-- The transport is asked to open and configure `path` (R177, R211): the environment's next answer, success where the
list is used up (DESIGN CHOICE, unsafe, log entry 5). -/
def Line.askOpen (path : Path) (l : Line) : Bool × Line :=
  match l.openNext with
  | [] => (true, { l with handle := some path })
  | true :: rest => (true, { l with openNext := rest, handle := some path })
  | false :: rest => (false, { l with openNext := rest })

/-- The handle is released, and with it the unread bytes (R178). -/
def Line.release (l : Line) : Line :=
  { l with held := [], handle := none, releases := l.releases + 1 }

/-! ### PBUF -/

/-- `PBUF[PCNT] <- b`; there is no entry beyond the capacity (R16). -/
def Asm.storePayload (b : Byte) (a : Asm) : Except Fault Asm :=
  if h : a.pcnt.toNat < maxPayload then .ok { a with pbuf := a.pbuf.set a.pcnt.toNat b h }
  else .error .pbufIndex

/-- `PBUF[0 .. PCNT-1]` (R16, R112). -/
def Asm.payload (a : Asm) : List Byte := a.pbuf.toList.take a.pcnt.toNat

/-! ### Returning, waiting, failing, and replacing a part of the state -/

/-- An operation that waits for nothing returns `r` to its caller. -/
def State.give (r : Result) (s : State) : State := { s with result := r }

/-- A blocking call returns `r`; nothing waits any more. -/
def State.ret (r : Result) (s : State) : State := { s with result := r, call := .none }

/-- A blocking call waits in `RxNext()` (R112 `Pending`). -/
def State.wait (c : Call) (s : State) : State := { s with result := .pending, call := c }

/-- Failing: the operation returns `Err(c)` and nothing else changes (R202(b)). -/
def State.fail (c : Cause) (s : State) : State := s.give (.err c)

/-- A decode invocation ends with result `r` (R106, R108, R109, R110; R202(a)). -/
def Asm.finish (r : RxResult) (a : Asm) : Asm := { a with res := r, st := .idle }

def State.withLine (l : Line) (s : State) : State := { s with line := l }

def State.withAsm (a : Asm) (s : State) : State := { s with asm := a }

def State.withEnc (e : Enc) (s : State) : State := { s with enc := e }

def State.withSeq (q : Seq) (s : State) : State := { s with seq := q }

def State.withMap (m : MapOut) (s : State) : State := { s with map := m }

/-- The free value drawn is used up (log entry 16). -/
def State.draw (s : State) : State := { s with fresh := s.fresh + 1 }

/-- A computation of the assembler as the outcome of a step. -/
def outcome : Except Fault State → Host.Outcome State Fault Refusal
  | .ok t => .next t
  | .error e => .fault e

end Sys2Proof.Machine
end

