-- ==== Sys2Proof/Machine/Encoder.lean ====
section
/-! DEFINITION. Unit ENC (40_checksum_encoder.md): `CHK_OUT`, and `ENCODE` as a function and as the three events of
its streaming interface. -/

namespace Sys2Proof.Machine

/-- `ENCODE(s) = s ++ [CHK_OUT(s)]` (R92). -/
def encodeFrameBytes (cmd : List Byte) : List Byte := cmd ++ [chkOut cmd]

/-- `enc_start` (R92). -/
def Enc.start (e : Enc) : Enc := { e with tst := .busy, tsum := BitVec.ofNat 8 chkSeedTx, out := [] }

/-- `enc_byte(b)` (R92): the byte is emitted and added. -/
def Enc.byte (b : Byte) (e : Enc) : Enc := { e with tsum := addByte e.tsum b, out := e.out ++ [b] }

/-- `enc_end` (R92): TSUM is emitted. -/
def Enc.stop (e : Enc) : Enc := { e with tst := .idle, out := e.out ++ [e.tsum] }

/-- Meaning of CHK_OUT (R90). -/
def execChkOut (bs : List Byte) (s : State) : Host.Outcome State Fault Refusal := .next (s.give (.byte (chkOut bs)))

/-- Meaning of ENCODE (R92). The whole form is a function and touches no register (R44, R92; log entry 12); the events
require their place in the order start, bytes, end (U1: log entry 13). -/
def execEncode (form : EncodeForm) (s : State) : Host.Outcome State Fault Refusal :=
  match form with
  | .whole cmd => .next (s.give (.bytes (encodeFrameBytes cmd)))
  | .start => if s.enc.tst = .idle then .next (s.withEnc s.enc.start) else .refused .encoderOrder
  | .byte b => if s.enc.tst = .busy then .next (s.withEnc (s.enc.byte b)) else .refused .encoderOrder
  | .stop => if s.enc.tst = .busy then .next (s.withEnc s.enc.stop) else .refused .encoderOrder

end Sys2Proof.Machine
end

