-- ==== Sys2Proof/Machine/Formatter.lean ====
section
/-! DEFINITION. Layer FMT (43_command_formatter.md): each formatter is a pure function from its operands to the command
bytes of one frame, without the checksum (R150). Ids outside a formatter's precondition give some other command byte
(U10): DESIGN CHOICE, safe, log entry 11. -/

namespace Sys2Proof.Machine

/-- `FMT_WRITE_ALL` (R151). -/
def fmtWriteAll (p1 p2 p3 p4 p5 p6 t : Half) : List Byte :=
  [header, devIdTx, lenWriteAll, cmdWriteAll]
    ++ (bytes16 p1 ++ bytes16 p2 ++ bytes16 p3 ++ bytes16 p4 ++ bytes16 p5 ++ bytes16 p6 ++ bytes16 t)

/-- `FMT_WRITE_ONE` (R152). -/
def fmtWriteOne (id : Byte) (p t : Half) : List Byte :=
  [header, devIdTx, lenWriteOne, cmdWriteOneBase + id] ++ (bytes16 p ++ bytes16 t)

/-- `FMT_TORQUE` (R153). -/
def fmtTorque (v : Byte) : List Byte := [header, devIdTx, lenOneByte, cmdTorque, v]

/-- `FMT_PING` (R154). -/
def fmtPing (id : Byte) : List Byte := [header, devIdTx, lenOneByte, cmdPing, id]

/-- `FMT_READ_POS` (R155). -/
def fmtReadPos (id : Byte) : List Byte := [header, devIdTx, lenReadPos, cmdReadPosBase + id]

/-- `FMT_BUZZER` (R156). -/
def fmtBuzzer (d : Byte) : List Byte := [header, devIdTx, lenOneByte, cmdBuzzer, d]

/-- A formatter's answer: its command bytes, and no state written (R150). -/
def formatted (bs : List Byte) (s : State) : Host.Outcome State Fault Refusal := .next (s.give (.bytes bs))

/-- Meaning of FMT_WRITE_ALL (R151). -/
def execFmtWriteAll (p1 p2 p3 p4 p5 p6 t : Half) (s : State) : Host.Outcome State Fault Refusal :=
  formatted (fmtWriteAll p1 p2 p3 p4 p5 p6 t) s

/-- Meaning of FMT_WRITE_ONE.1 (R152). -/
def execFmtWriteOne1 (p t : Half) (s : State) : Host.Outcome State Fault Refusal := formatted (fmtWriteOne 1#8 p t) s

/-- Meaning of FMT_WRITE_ONE.2 (R152). -/
def execFmtWriteOne2 (p t : Half) (s : State) : Host.Outcome State Fault Refusal := formatted (fmtWriteOne 2#8 p t) s

/-- Meaning of FMT_WRITE_ONE.3 (R152). -/
def execFmtWriteOne3 (p t : Half) (s : State) : Host.Outcome State Fault Refusal := formatted (fmtWriteOne 3#8 p t) s

/-- Meaning of FMT_WRITE_ONE.4 (R152). -/
def execFmtWriteOne4 (p t : Half) (s : State) : Host.Outcome State Fault Refusal := formatted (fmtWriteOne 4#8 p t) s

/-- Meaning of FMT_WRITE_ONE.5 (R152). -/
def execFmtWriteOne5 (p t : Half) (s : State) : Host.Outcome State Fault Refusal := formatted (fmtWriteOne 5#8 p t) s

/-- Meaning of FMT_WRITE_ONE.6 (R152). -/
def execFmtWriteOne6 (p t : Half) (s : State) : Host.Outcome State Fault Refusal := formatted (fmtWriteOne 6#8 p t) s

/-- Meaning of FMT_TORQUE (R153). -/
def execFmtTorque (v : Byte) (s : State) : Host.Outcome State Fault Refusal := formatted (fmtTorque v) s

/-- Meaning of FMT_PING (R154). -/
def execFmtPing (id : Byte) (s : State) : Host.Outcome State Fault Refusal := formatted (fmtPing id) s

/-- Meaning of FMT_READ_POS.1 (R155). -/
def execFmtReadPos1 (s : State) : Host.Outcome State Fault Refusal := formatted (fmtReadPos 1#8) s

/-- Meaning of FMT_READ_POS.2 (R155). -/
def execFmtReadPos2 (s : State) : Host.Outcome State Fault Refusal := formatted (fmtReadPos 2#8) s

/-- Meaning of FMT_READ_POS.3 (R155). -/
def execFmtReadPos3 (s : State) : Host.Outcome State Fault Refusal := formatted (fmtReadPos 3#8) s

/-- Meaning of FMT_READ_POS.4 (R155). -/
def execFmtReadPos4 (s : State) : Host.Outcome State Fault Refusal := formatted (fmtReadPos 4#8) s

/-- Meaning of FMT_READ_POS.5 (R155). -/
def execFmtReadPos5 (s : State) : Host.Outcome State Fault Refusal := formatted (fmtReadPos 5#8) s

/-- Meaning of FMT_READ_POS.6 (R155). -/
def execFmtReadPos6 (s : State) : Host.Outcome State Fault Refusal := formatted (fmtReadPos 6#8) s

/-- Meaning of FMT_BUZZER (R156). -/
def execFmtBuzzer (d : Byte) (s : State) : Host.Outcome State Fault Refusal := formatted (fmtBuzzer d) s

end Sys2Proof.Machine
end

