-- ==== Sys2Proof/Machine/Mapper.lean ====
section
/-! DEFINITION. Unit MAP (42_angle_mapper.md): the range table, the two constant tables, `TO_POSITION` and
`TO_ANGLE`. Nothing is clipped (R139). -/

namespace Sys2Proof.Machine

/-- One row of the RangeTable (R130). -/
structure Range where
  inMin : Nat
  inMax : Nat
  outMin : Nat
  outMax : Nat
  inverted : Bool
  deriving DecidableEq, Repr

/-- The row of servos 1 and 6, and of 2, 3, 4 but for the reflection (R130). -/
def rangeStd (inverted : Bool) : Range :=
  { inMin := 0, inMax := degMaxStd, outMin := posMinStd, outMax := posMaxStd, inverted := inverted }

/-- The row of servo 5 (R130). -/
def rangeS5 : Range :=
  { inMin := 0, inMax := degMaxS5, outMin := posMinS5, outMax := posMaxS5, inverted := false }

/-- The RangeTable by servo id (R130); no row outside 1 to 6. -/
def rangeTable (id : Byte) : Option Range :=
  if id.toNat < 1 ∨ nServos < id.toNat then none
  else if id = 5#8 then some rangeS5
  else some (rangeStd (decide (id ∈ invertedIds)))

/-- The mount inversion: `180 - angle` (R130). -/
def reflect (r : Range) (a : Int) : Int := if r.inverted then (degMaxStd : Int) - a else a

/-- The linear map of R132 on a checked angle, the multiplication before the truncating division. -/
def linear (r : Range) (a : Nat) : Nat :=
  (a - r.inMin) * (r.outMax - r.outMin) / (r.inMax - r.inMin) + r.outMin

/-- `TAB_STD` of R20, R135. -/
def tabStd (a : Nat) : Nat := a * (posMaxStd - posMinStd) / degMaxStd + posMinStd

/-- `TAB_S5` of R20, R135. -/
def tabS5 (a : Nat) : Nat := a * (posMaxS5 - posMinS5) / degMaxS5 + posMinS5

/-- `TO_POSITION(id, angle)` (R132): the id first, then the range, then the map. -/
def toPosition (id : Byte) (angle : Half) : Except MapErr Half :=
  match rangeTable id with
  | none => .error .errId
  | some r =>
    if angle.toInt < r.inMin ∨ (r.inMax : Int) < angle.toInt then .error .errRange
    else .ok (BitVec.ofNat 16 (linear r (reflect r angle.toInt).toNat))

/-- `round_T(p, q)` of R8 for `q > 0`; `/` and `%` on integers are floor and its remainder there. -/
def roundTies (t : RoundTies) (p q : Int) : Int :=
  match t with
  | .halfUp => (2 * p + q) / (2 * q)
  | .halfDown => -((q - 2 * p) / (2 * q))
  | .halfEven =>
    let f := p / q
    let r := p % q
    if 2 * r < q then f
    else if q < 2 * r then f + 1
    else if f % 2 = 0 then f
    else f + 1

/-- `TO_ANGLE(id, pos)` (R133): the id first, then the rounded inverse and its range, then the reflection. -/
def toAngle (t : RoundTies) (id : Byte) (pos : Half) : Except MapErr Half :=
  match rangeTable id with
  | none => .error .errId
  | some r =>
    let a := roundTies t (((pos.toNat : Int) - r.outMin) * ((r.inMax : Int) - r.inMin)) ((r.outMax : Int) - r.outMin)
      + r.inMin
    if a < r.inMin ∨ (r.inMax : Int) < a then .error .errRange
    else .ok (BitVec.ofInt 16 (reflect r a))

/-- Meaning of TO_POSITION (R132): `map_err` and `map_pos_out` are driven; on an error the position output is a free
value (U7, log entry 16). -/
def execToPosition (id : Byte) (angle : Half) (s : State) : Host.Outcome State Fault Refusal :=
  match toPosition id angle with
  | .ok p => .next ((s.withMap { s.map with err := .none, posOut := p }).give (.position p))
  | .error e =>
    .next ((s.withMap { s.map with err := e, posOut := Config.freeHalf s.fresh }).draw.give (.mapErr e))

/-- Meaning of TO_ANGLE (R133): `map_err` and `map_angle_out` are driven; on an error the angle output is a free value
(U7, log entry 16). -/
def execToAngle (id : Byte) (pos : Half) (s : State) : Host.Outcome State Fault Refusal :=
  match toAngle s.par.roundTies id pos with
  | .ok a => .next ((s.withMap { s.map with err := .none, angleOut := a }).give (.angle a))
  | .error e =>
    .next ((s.withMap { s.map with err := e, angleOut := Config.freeHalf s.fresh }).draw.give (.mapErr e))

end Sys2Proof.Machine
end

