-- ==== Sys2Proof/Machine/Scan.lean ====
section
/-! DEFINITION. Unit ASM's step rules, one definition per rule R101 to R110, on the unit's own registers, and the loop
that feeds them the transport's answers (R112). -/

namespace Sys2Proof.Machine

/-- `RX_START` (R101). -/
def Asm.start (a : Asm) : Asm := { a with st := .hunt, res := .rNone, ncons := 0 }

/-- R102: header scan. -/
def Asm.huntRule (b : Byte) (a : Asm) : Asm :=
  { a with st := if b = header then .id else .hunt }

/-- R103: device-id check. -/
def Asm.idRule (p : Params) (b : Byte) (a : Asm) : Asm :=
  { a with st := if b = devIdRx then .len else if p.rescanIdByte = true ∧ b = header then .id else .hunt }

/-- R104: length byte. -/
def Asm.lenRule (b : Byte) (a : Asm) : Asm := { a with rlen := b, st := .typ }

/-- R105: type byte with a valid length, start of data. -/
def Asm.typeValidRule (b : Byte) (a : Asm) : Asm :=
  { a with rtype := b, rem := a.rlen - BitVec.ofNat 8 lenOverhead, sum := addByte a.rlen b, pcnt := 0#8
           st := .data }

/-- R106: type byte with an invalid length; the invocation fails. -/
def Asm.typeInvalidRule (b : Byte) (a : Asm) : Asm := { a with rtype := b }.finish .rBadLen

/-- R107: a payload byte. -/
def Asm.payloadRule (b : Byte) (a : Asm) : Except Fault Asm :=
  match a.storePayload b with
  | .error e => .error e
  | .ok a' => .ok { a' with pcnt := a.pcnt + 1#8, sum := addByte a.sum b, rem := a.rem - 1#8 }

/-- R108: the checksum byte. R94 says that inserted zero bytes with LEN adjusted are not detected; by the formulas of R90
and R100 LEN is itself summed and they are, and the model follows the formulas: DEDUCED, safe, log entry 30. -/
def Asm.checksumRule (b : Byte) (a : Asm) : Asm :=
  if b = a.sum then a.finish .rOk else { a with st := .hunt }

/-- R102 to R108 together: the rule of the state (and of RLEN or REM) the byte meets. DATA with `REM = 0` has no rule
(log entry 17). -/
def Asm.stateRule (p : Params) (b : Byte) (a : Asm) : Except Fault Asm :=
  match a.st with
  | .idle => .ok a
  | .hunt => .ok (a.huntRule b)
  | .id => .ok (a.idRule p b)
  | .len => .ok (a.lenRule b)
  | .typ => .ok (if a.rlen.toNat < minLen then a.typeInvalidRule b else a.typeValidRule b)
  | .data =>
    if a.rem = 0#8 then .error .remZero
    else if a.rem = 1#8 then .ok (a.checksumRule b)
    else a.payloadRule b

/-- R110, first half: the byte is counted where `OVERALL_LIMIT` is set; without it NCONS does not exist. -/
def Asm.count (p : Params) (a : Asm) : Asm :=
  match p.overallLimit with
  | none => a
  | some _ => { a with ncons := a.ncons + 1 }

/-- R110, second half: the budget test after the state rule. -/
def Asm.budget (p : Params) (a : Asm) : Asm :=
  match p.overallLimit with
  | none => a
  | some n => if a.st ≠ .idle ∧ a.ncons = n then a.finish .rLimit else a

/-- A state rule inside the byte budget of R110. -/
def Asm.budgeted (p : Params) (rule : Asm → Except Fault Asm) (a : Asm) : Except Fault Asm :=
  match rule (a.count p) with
  | .error e => .error e
  | .ok a' => .ok (a'.budget p)

/-- `rx_byte(b)` at the assembler: R102 to R108 and R110; in IDLE the byte is not taken and nothing changes (R111). -/
def Asm.byte (p : Params) (b : Byte) (a : Asm) : Except Fault Asm :=
  if a.st = .idle then .ok a else a.budgeted p (Asm.stateRule p b)

/-- `rx_nodata` at the assembler (R109, R111). -/
def Asm.noData (a : Asm) : Asm := if a.st = .idle then a else a.finish .rTimeout

/-- One answer of the transport (R112: `Byte(b) -> RX_BYTE(b)`, `NoData -> RX_NODATA`). -/
def Asm.answer (p : Params) (x : RxAnswer) (a : Asm) : Except Fault Asm :=
  match x with
  | .byte b => a.byte p b
  | .noData => .ok a.noData

/-- `run(ev)` of R112 from a started assembler: one step per answer, stopping at the first after which ST = IDLE; the
answers not consumed are the rest. `f` says what answer an element of the list is. -/
def Asm.run {α : Type} (p : Params) (f : α → RxAnswer) : List α → Asm → Except Fault (Asm × List α)
  | [], a => .ok (a, [])
  | x :: xs, a =>
    if a.st = .idle then .ok (a, x :: xs)
    else
      match a.answer p (f x) with
      | .error e => .error e
      | .ok a' => Asm.run p f xs a'

/-- The loop of R112 against the transport: the answers the environment has chosen, a byte or `NoData` at each `RxNext()`
(R41), each byte removed from the unread ones; these used up, the unread bytes, oldest first (R24); with these used up
too the invocation waits and ST is not IDLE. Log entry 5. -/
def Line.feed (p : Params) (l : Line) (a : Asm) : Except Fault (Line × Asm) :=
  match a.run p (fun x => x) l.next with
  | .error e => .error e
  | .ok (a1, next) =>
    match a1.run p RxAnswer.byte (unreadAfter (l.next.take (l.next.length - next.length)) l.held) with
    | .error e => .error e
    | .ok (a2, held) => .ok ({ l with held := held, next := next }, a2)

/-- One decode invocation, as far as the transport's answers go: `RX_START`, then the loop (R112). -/
def State.invoke (s : State) : Except Fault State :=
  match s.line.feed s.par s.asm.start with
  | .error e => .error e
  | .ok (l, a) => .ok ((s.withLine l).withAsm a)

/-- What `DECODE` returns once ST = IDLE (R112). -/
def Asm.decoded (a : Asm) : Result :=
  if a.res = .rOk then .frame a.rlen a.rtype a.payload else .decodeErr a.res

end Sys2Proof.Machine
end

