-- ==== Sys2Proof/Machine/Calls.lean ====
section
/-! DEFINITION. The helpers of the sequences, `send` and `exchange` (R170), and the calls that wait for a decode
invocation: what each returns when its invocation has ended, and the second cycle of `SEQ_READ_ANGLE` (R174, R176).
How a call waits and goes on: log entry 8. -/

namespace Sys2Proof.Machine

/-- `send(s)` of R170: encode, one write; the write's reports change nothing else. -/
def State.send (cmd : List Byte) (s : State) : State :=
  s.withLine (s.line.txWrite (encodeFrameBytes cmd))

/-- `exchange(s)` of R170 up to the end of its decode invocation, or to where that waits. -/
def State.exchange (cmd : List Byte) (s : State) : Except Fault State :=
  let s1 := if s.par.flushBeforeCommand then s.withLine s.line.flush else s
  (s1.send cmd).invoke

/-- What `SEQ_PING` returns after its decode invocation: the first payload byte, or 0 (R174). -/
def pingResult (a : Asm) : Result :=
  if a.res = .rOk then
    match a.payload with
    | b :: _ => .code b
    | [] => .code pingSentinel
  else .code pingSentinel

/-- The position field of a report's payload (R70, R176). -/
def reportedPosition (p : Params) (payload : List Byte) : Half :=
  be16 (payload.getD p.posOffset.val 0#8) (payload.getD (p.posOffset.val + 1) 0#8)

/-- What `SEQ_READ_ANGLE` returns on a decoded frame: type, then payload length, then conversion (R176, R201). -/
def reportResult (p : Params) (id : Byte) (a : Asm) : Result :=
  if a.rtype ≠ p.posReportType then .degrees readSentinel
  else if a.payload.length < reportMinPayload then .degrees readSentinel
  else
    match toAngle p.roundTies id (reportedPosition p a.payload) with
    | .ok d => .degrees d.toInt
    | .error _ => .degrees readSentinel

/-- Up to `n` more write-and-await cycles of `SEQ_READ_ANGLE` (R176): a failed decode leads to the next cycle, and
after the last to the sentinel. -/
def State.readCycles (id : Byte) : Nat → State → Except Fault State
  | 0, s => .ok (s.ret (.degrees readSentinel))
  | n + 1, s =>
    match (s.withSeq { s.seq with att := s.seq.att + 1 }).exchange (fmtReadPos id) with
    | .error e => .error e
    | .ok t =>
      if t.asm.st ≠ .idle then .ok (t.wait (.readAngle id))
      else if t.asm.res = .rOk then .ok (t.ret (reportResult t.par id t.asm))
      else t.readCycles id n

/-- The waiting call goes on once its decode invocation has ended (ST = IDLE), and returns or waits again. -/
def State.resume (s : State) : Except Fault State :=
  if s.asm.st ≠ .idle then .ok s
  else
    match s.call with
    | .none => .ok s
    | .decode => .ok (s.ret s.asm.decoded)
    | .ping => .ok (s.ret (pingResult s.asm))
    | .readAngle id =>
      if s.asm.res = .rOk then .ok (s.ret (reportResult s.par id s.asm))
      else s.readCycles id (readAttempts - s.seq.att)

end Sys2Proof.Machine
end

