-- ==== Sys2Proof/Machine/Assembler.lean ====
section
/-! DEFINITION. The meanings of unit ASM's rows (41_frame_assembler.md): the events `rx_start`, `rx_byte`, `rx_nodata`,
the incoming frame, `CHK_IN` and `DECODE`. An event ends a waiting call where it ends the call's invocation. -/

namespace Sys2Proof.Machine

/-- `rx_byte(b)` with ST not IDLE, by the given rule for `b`: the event is the answer of `RxNext()`, so the assembler takes
`b` and `b` is removed from the unread bytes (R41; log entry 6). -/
def State.takeByte (rule : Asm → Except Fault Asm) (b : Byte) (s : State) : Except Fault State :=
  match s.asm.budgeted s.par rule with
  | .error e => .error e
  | .ok a => ((s.withLine (s.line.handOver b)).withAsm a).resume

/-- The event `rx_byte(b)`, by the rule of the state it meets; in IDLE the byte is not consumed and waits in the
transport (R102 to R111). -/
def State.rxByte (b : Byte) (s : State) : Except Fault State :=
  if s.asm.st = .idle then .ok (s.withLine (s.line.arrive b))
  else s.takeByte (Asm.stateRule s.par b) b

/-- The event `rx_nodata` (R109); in IDLE it changes nothing (R111). -/
def State.rxNodata (s : State) : Except Fault State :=
  if s.asm.st = .idle then .ok s else (s.withAsm s.asm.noData).resume

/-- Bytes that come in one after another (R47, R51(a)). -/
def State.rxBytes : List Byte → State → Except Fault State
  | [], s => .ok s
  | b :: bs, s =>
    match s.rxByte b with
    | .error e => .error e
    | .ok t => t.rxBytes bs

/-- The transport answers a waiting assembler's `RxNext()` by the event of the next answer it has: the environment's next
choice, or else the oldest unread byte; without one, or with no one waiting, nothing happens (R41, R111, R112). -/
def State.deliver (s : State) : Except Fault State :=
  if s.asm.st = .idle then .ok s
  else
    match s.line.next, s.line.held with
    | .byte b :: next, _ => (s.withLine { s.line with next := next }).rxByte b
    | .noData :: next, _ => (s.withLine { s.line with next := next }).rxNodata
    | [], b :: _ => s.rxByte b
    | [], [] => .ok s

/-- Meaning of RXFRAME (R63, R71): the frame's bytes come in, first byte first; a running invocation takes them, an idle
assembler leaves them in the transport. Log entry 9. -/
def execRxFrame (len type : Byte) (body : List Byte) (s : State) : Host.Outcome State Fault Refusal :=
  outcome (s.rxBytes (header :: devIdRx :: len :: type :: body))

/-- Meaning of CHK_IN (R100). -/
def execChkIn (len type : Byte) (p : List Byte) (s : State) : Host.Outcome State Fault Refusal :=
  .next (s.give (.byte (chkIn len type p)))

/-- Meaning of RX_START (R101); refused while an invocation runs (U2). -/
def execRxStart (s : State) : Host.Outcome State Fault Refusal :=
  if s.asm.st = .idle then .next (s.withAsm s.asm.start) else .refused .decodeRunning

/-- Meaning of RX_BYTE.HUNT (R102); where ST is not HUNT the event meets another row's rule (log entry 7). -/
def execRxByteHunt (b : Byte) (s : State) : Host.Outcome State Fault Refusal :=
  outcome (if s.asm.st = .hunt then s.takeByte (fun a => .ok (a.huntRule b)) b else s.rxByte b)

/-- Meaning of RX_BYTE.ID (R103); where ST is not ID the event meets another row's rule (log entry 7). -/
def execRxByteId (b : Byte) (s : State) : Host.Outcome State Fault Refusal :=
  outcome (if s.asm.st = .id then s.takeByte (fun a => .ok (a.idRule s.par b)) b else s.rxByte b)

/-- Meaning of RX_BYTE.LEN (R104); where ST is not LEN the event meets another row's rule (log entry 7). -/
def execRxByteLen (b : Byte) (s : State) : Host.Outcome State Fault Refusal :=
  outcome (if s.asm.st = .len then s.takeByte (fun a => .ok (a.lenRule b)) b else s.rxByte b)

/-- Meaning of RX_BYTE.TYPE_VALID (R105); elsewhere the event meets another row's rule (log entry 7). -/
def execRxByteTypeValid (b : Byte) (s : State) : Host.Outcome State Fault Refusal :=
  outcome (if s.asm.st = .typ ∧ minLen ≤ s.asm.rlen.toNat then s.takeByte (fun a => .ok (a.typeValidRule b)) b
    else s.rxByte b)

/-- Meaning of RX_BYTE.TYPE_INVALID (R106); elsewhere the event meets another row's rule (log entry 7). -/
def execRxByteTypeInvalid (b : Byte) (s : State) : Host.Outcome State Fault Refusal :=
  outcome (if s.asm.st = .typ ∧ s.asm.rlen.toNat < minLen then s.takeByte (fun a => .ok (a.typeInvalidRule b)) b
    else s.rxByte b)

/-- Meaning of RX_BYTE.DATA_PAYLOAD (R107); elsewhere the event meets another row's rule (log entry 7). -/
def execRxByteDataPayload (b : Byte) (s : State) : Host.Outcome State Fault Refusal :=
  outcome (if s.asm.st = .data ∧ 1 < s.asm.rem.toNat then s.takeByte (fun a => a.payloadRule b) b else s.rxByte b)

/-- Meaning of RX_BYTE.DATA_CHECKSUM (R108); elsewhere the event meets another row's rule (log entry 7). -/
def execRxByteDataChecksum (b : Byte) (s : State) : Host.Outcome State Fault Refusal :=
  outcome (if s.asm.st = .data ∧ s.asm.rem = 1#8 then s.takeByte (fun a => .ok (a.checksumRule b)) b
    else s.rxByte b)

/-- Meaning of RX_BYTE.LIMIT (R110): the event with the budget test after its state rule, which does nothing where
`OVERALL_LIMIT` is not set. -/
def execRxByteLimit (b : Byte) (s : State) : Host.Outcome State Fault Refusal := outcome (s.rxByte b)

/-- Meaning of RX_BYTE.IDLE (R111): the byte is not consumed and waits in the transport; where ST is not IDLE the event
meets another row's rule (log entry 7). -/
def execRxByteIdle (b : Byte) (s : State) : Host.Outcome State Fault Refusal :=
  outcome (if s.asm.st = .idle then .ok (s.withLine (s.line.arrive b)) else s.rxByte b)

/-- Meaning of RX_NODATA (R109, R111). -/
def execRxNodata (s : State) : Host.Outcome State Fault Refusal := outcome s.rxNodata

/-- Meaning of DECODE (R112): it returns, or waits once the transport has no further answer; refused while an
invocation runs (U2). -/
def execDecode (s : State) : Host.Outcome State Fault Refusal :=
  if s.asm.st ≠ .idle then .refused .decodeRunning
  else
    match s.invoke with
    | .error e => .fault e
    | .ok t => outcome (t.wait .decode).resume

end Sys2Proof.Machine
end

