-- ==== Sys2Proof/Machine/Client.lean ====
section
/-! DEFINITION. The meanings of layer SEQ (44_client_sequences.md). -/

namespace Sys2Proof.Machine

/-- Every sequence but SEQ_OPEN and SEQ_CLOSE requires LIFE = L_OPERATING (R170, U8), and that the one client waits in
no other call (R51(d), R227, U9). An invocation begun by a bare RX_START, ST ≠ IDLE with no call waiting, does not hold a
sequence back: the writes, SEQ_OPEN and SEQ_CLOSE run, and leave ASM as it is, while an operation that would begin a second
invocation is refused by its own test (U2). R51(d) says the next command is not written until the decode invocation has
ended, R171 to R173 require LIFE alone: DESIGN CHOICE, unsafe, log entry 31. -/
def State.asClient (s : State) (k : Host.Outcome State Fault Refusal) : Host.Outcome State Fault Refusal :=
  if s.seq.life ≠ .operating then .refused .lifeClosed
  else if s.call ≠ .none then .refused .clientBusy
  else k

/-- The command bytes of a bulk write, all six angles converted first (R171). -/
def writeAllCommand (a1 a2 a3 a4 a5 a6 time : Half) : Except MapErr (List Byte) :=
  match toPosition 1#8 a1, toPosition 2#8 a2, toPosition 3#8 a3, toPosition 4#8 a4, toPosition 5#8 a5,
    toPosition 6#8 a6 with
  | .ok p1, .ok p2, .ok p3, .ok p4, .ok p5, .ok p6 => .ok (fmtWriteAll p1 p2 p3 p4 p5 p6 time)
  | _, _, _, _, _, _ => .error .errRange

/-- The bulk write of R171: nothing is written where any angle is refused (R192). -/
def State.writeAll (a1 a2 a3 a4 a5 a6 time : Half) (s : State) : State :=
  match writeAllCommand a1 a2 a3 a4 a5 a6 time with
  | .error _ => s.fail .rangeAngle
  | .ok cmd => (s.send cmd).give .done

/-- The single write of R172 for an id from 1 to 6. -/
def State.writeOne (id : Byte) (angle time : Half) (s : State) : State :=
  match toPosition id angle with
  | .error _ => s.fail .rangeAngle
  | .ok p => (s.send (fmtWriteOne id p time)).give .done

/-- Meaning of SEQ_OPEN (R177, R191): the settle pause passes inside it (R226, log entry 22). -/
def execSeqOpen (path : Path) (s : State) : Host.Outcome State Fault Refusal :=
  if s.seq.life = .operating then .refused .lifeOperating
  else if s.call ≠ .none then .refused .clientBusy
  else
    match s.line.askOpen path with
    | (true, l) => .next (((s.withLine l).withSeq { s.seq with life := .operating }).give .done)
    | (false, l) => .next ((s.withLine l).fail .connection)

/-- Meaning of SEQ_WRITE_ALL (R171). -/
def execSeqWriteAll (a1 a2 a3 a4 a5 a6 time : Half) (s : State) : Host.Outcome State Fault Refusal :=
  s.asClient (.next (s.writeAll a1 a2 a3 a4 a5 a6 time))

/-- Meaning of SEQ_WRITE_ONE (R172): id 0 is the alias for all six servos. -/
def execSeqWriteOne (id : Byte) (angle time : Half) (s : State) : Host.Outcome State Fault Refusal :=
  s.asClient (.next (
    if id = idAll then s.writeAll angle angle angle angle angle angle time
    else if nServos < id.toNat then s.fail .rangeId
    else s.writeOne id angle time))

/-- Meaning of SEQ_SET_TORQUE (R173). -/
def execSeqSetTorque (enabled : Bool) (s : State) : Host.Outcome State Fault Refusal :=
  s.asClient (.next ((s.send (fmtTorque (if enabled then s.par.torqueOn else s.par.torqueOff))).give .done))

/-- Meaning of SEQ_PING (R174): the id first, before any I/O; then one exchange. -/
def execSeqPing (id : Int) (s : State) : Host.Outcome State Fault Refusal :=
  s.asClient (
    if id < pingIdMin ∨ pingIdMax < id then .next (s.fail .rangeId)
    else if s.asm.st ≠ .idle then .refused .decodeRunning
    else
      match s.exchange (fmtPing (idByte id)) with
      | .error e => .fault e
      | .ok t => outcome (t.wait .ping).resume)

/-- Meaning of SEQ_READ_ANGLE (R176): an invalid id is the sentinel at once; else up to two cycles. -/
def execSeqReadAngle (id : Int) (s : State) : Host.Outcome State Fault Refusal :=
  s.asClient (
    if id < 1 ∨ (nServos : Int) < id then .next (s.give (.degrees readSentinel))
    else if s.asm.st ≠ .idle then .refused .decodeRunning
    else outcome ((s.withSeq { s.seq with att := 0 }).readCycles (idByte id) readAttempts))

/-- Meaning of SEQ_CLOSE (R178): the handle is released once; while closed nothing happens (log entry 14). -/
def execSeqClose (s : State) : Host.Outcome State Fault Refusal :=
  if s.call ≠ .none then .refused .clientBusy
  else if s.seq.life = .operating then
    .next (((s.withLine s.line.release).withSeq { s.seq with life := .closed }).give .done)
  else .next (s.give .done)

end Sys2Proof.Machine
end

