-- ==== Sys2Proof/Machine/Dispatch.lean ====
section
/-! DEFINITION. One arm per row of the operation table: the meaning of each operation. -/

namespace Sys2Proof.Machine

def exec (i : Instr) (s : State) : Host.Outcome State Fault Refusal :=
  match i with
  | .fmtWriteAll p1 p2 p3 p4 p5 p6 t => Sys2Proof.Machine.execFmtWriteAll p1 p2 p3 p4 p5 p6 t s
  | .fmtWriteOne1 p t => Sys2Proof.Machine.execFmtWriteOne1 p t s
  | .fmtWriteOne2 p t => Sys2Proof.Machine.execFmtWriteOne2 p t s
  | .fmtWriteOne3 p t => Sys2Proof.Machine.execFmtWriteOne3 p t s
  | .fmtWriteOne4 p t => Sys2Proof.Machine.execFmtWriteOne4 p t s
  | .fmtWriteOne5 p t => Sys2Proof.Machine.execFmtWriteOne5 p t s
  | .fmtWriteOne6 p t => Sys2Proof.Machine.execFmtWriteOne6 p t s
  | .fmtTorque v => Sys2Proof.Machine.execFmtTorque v s
  | .fmtPing id => Sys2Proof.Machine.execFmtPing id s
  | .fmtReadPos1 => Sys2Proof.Machine.execFmtReadPos1 s
  | .fmtReadPos2 => Sys2Proof.Machine.execFmtReadPos2 s
  | .fmtReadPos3 => Sys2Proof.Machine.execFmtReadPos3 s
  | .fmtReadPos4 => Sys2Proof.Machine.execFmtReadPos4 s
  | .fmtReadPos5 => Sys2Proof.Machine.execFmtReadPos5 s
  | .fmtReadPos6 => Sys2Proof.Machine.execFmtReadPos6 s
  | .fmtBuzzer d => Sys2Proof.Machine.execFmtBuzzer d s
  | .rxFrame len type body => Sys2Proof.Machine.execRxFrame len type body s
  | .chkOut bs => Sys2Proof.Machine.execChkOut bs s
  | .encode form => Sys2Proof.Machine.execEncode form s
  | .chkIn len type p => Sys2Proof.Machine.execChkIn len type p s
  | .rxStart => Sys2Proof.Machine.execRxStart s
  | .rxByteHunt b => Sys2Proof.Machine.execRxByteHunt b s
  | .rxByteId b => Sys2Proof.Machine.execRxByteId b s
  | .rxByteLen b => Sys2Proof.Machine.execRxByteLen b s
  | .rxByteTypeValid b => Sys2Proof.Machine.execRxByteTypeValid b s
  | .rxByteTypeInvalid b => Sys2Proof.Machine.execRxByteTypeInvalid b s
  | .rxByteDataPayload b => Sys2Proof.Machine.execRxByteDataPayload b s
  | .rxByteDataChecksum b => Sys2Proof.Machine.execRxByteDataChecksum b s
  | .rxByteLimit b => Sys2Proof.Machine.execRxByteLimit b s
  | .rxByteIdle b => Sys2Proof.Machine.execRxByteIdle b s
  | .rxNodata => Sys2Proof.Machine.execRxNodata s
  | .decode => Sys2Proof.Machine.execDecode s
  | .toPosition id angle => Sys2Proof.Machine.execToPosition id angle s
  | .toAngle id pos => Sys2Proof.Machine.execToAngle id pos s
  | .seqOpen path => Sys2Proof.Machine.execSeqOpen path s
  | .seqWriteAll a1 a2 a3 a4 a5 a6 time => Sys2Proof.Machine.execSeqWriteAll a1 a2 a3 a4 a5 a6 time s
  | .seqWriteOne id angle time => Sys2Proof.Machine.execSeqWriteOne id angle time s
  | .seqSetTorque enabled => Sys2Proof.Machine.execSeqSetTorque enabled s
  | .seqPing id => Sys2Proof.Machine.execSeqPing id s
  | .seqReadAngle id => Sys2Proof.Machine.execSeqReadAngle id s
  | .seqClose => Sys2Proof.Machine.execSeqClose s

end Sys2Proof.Machine
end

