-- ==== Sys2Proof/Machine/Fetch.lean ====
section
/-! DEFINITION. Where the next operation comes from: the oldest input not yet taken (R2, R23; log entry 4). -/

namespace Sys2Proof.Machine

/-- What the machine finds to do. -/
inductive Fetched where
  /-- No input waits. -/
  | idle
  /-- This operation, and the state with its request taken. -/
  | run (i : Instr) (s : State)
  /-- The input is no operation. -/
  | bad (r : Refusal)
  deriving DecidableEq, Repr

/-- The operation a request asks for. -/
def Request.instr : Request → Except DecodeError Instr
  | .op i => .ok i
  | .frame bs => Sys2Proof.decode bs

/-- Takes the oldest request, decodes it and checks its operands. -/
def State.fetch (s : State) : Fetched :=
  match s.inbox with
  | [] => .idle
  | r :: rest =>
    match r.instr with
    | .error e => .bad (.undecodable e)
    | .ok i => if i.wellFormed then .run i { s with inbox := rest } else .bad .illFormed

/-- The request that spells a table row's number: the bytes of its frame. -/
def fetchWord (nbits w : Nat) : Request := .frame (tableBytes nbits w)

end Sys2Proof.Machine
end

