-- ==== Sys2Proof/Machine/Step.lean ====
section
/-! DEFINITION. One step of the machine (R2): the oldest input is taken and its operation runs; where none waits, the
transport answers a waiting assembler, and without an answer nothing happens (log entry 26). -/

namespace Sys2Proof.Machine

/-- One step. -/
def step (s : State) : Host.Outcome State Fault Refusal :=
  match s.fetch with
  | .idle => outcome s.deliver
  | .run i t => exec i t
  | .bad r => .refused r

/-- The state with a table row's frame as the oldest input: it stands for the caller's request (log entry 4). -/
def State.withFetchWord (s : State) (nbits w : Nat) : State :=
  { s with inbox := fetchWord nbits w :: s.inbox }

end Sys2Proof.Machine
end

