-- ==== Sys2Proof/Machine/Signals.lean ====
section
/-! DEFINITION. The output signals of R23, as functions of the state. Outside R_OK the frame outputs are free values
(U5, U6; log entry 21). -/

namespace Sys2Proof.Machine

/-- `busy` (R23): ST is not IDLE. -/
def State.busy (s : State) : Bool := s.asm.st ≠ .idle

/-- `res` (R23). -/
def State.resOut (s : State) : Nat := s.asm.res.code

/-- `rlen` (R23, U6). -/
def State.rlenOut (s : State) : Byte := if s.asm.res = .rOk then s.asm.rlen else Config.freeSignal 0

/-- `rtype` (R23, U6). -/
def State.rtypeOut (s : State) : Byte := if s.asm.res = .rOk then s.asm.rtype else Config.freeSignal 1

/-- `pcnt` (R23, U6). -/
def State.pcntOut (s : State) : Byte := if s.asm.res = .rOk then s.asm.pcnt else Config.freeSignal 2

/-- `pbuf_rd(i)` (R23, U5). -/
def State.pbufRd (i : Nat) (s : State) : Byte :=
  if s.asm.res = .rOk ∧ i < s.asm.pcnt.toNat then s.asm.pbuf.toList.getD i 0#8 else Config.freePayload i

/-- `map_err` (R23). -/
def State.mapErrOut (s : State) : Nat := s.map.err.code

/-- `map_pos_out` (R23, U7). -/
def State.mapPosOut (s : State) : Half := s.map.posOut

/-- `map_angle_out` (R23, U7). -/
def State.mapAngleOut (s : State) : Half := s.map.angleOut

end Sys2Proof.Machine
end

