-- ==== Sys2Proof/Safety.lean ====
section
/-! DEFINITION. What holds of every reachable state, in the terms the claims use: the invariants of R19, the byte
budget of R118, and what the model's own bookkeeping keeps (log entry 8). -/

namespace Sys2Proof.Machine

/-- R19 (a) to (e), on unit ASM; the clauses about DATA, about R_OK, about a running invocation, and about PCNT. -/
structure Asm.Inv (a : Asm) : Prop where
  data_len : a.st = .data → 3 ≤ a.rlen.toNat ∧ 1 ≤ a.rem.toNat ∧ a.rem.toNat ≤ a.rlen.toNat - 2
    ∧ a.pcnt.toNat + a.rem.toNat = a.rlen.toNat - 2
  data_sum : a.st = .data → a.sum.toNat = (a.rlen.toNat + a.rtype.toNat + sumBytes a.payload) % 256
  ok_frame : a.res = .rOk → a.st = .idle ∧ 3 ≤ a.rlen.toNat ∧ a.pcnt.toNat = a.rlen.toNat - 3
  running : a.st ≠ .idle → a.res = .rNone
  pcnt_le : a.pcnt.toNat ≤ 252

/-- R118: with `OVERALL_LIMIT = N`, `N` positive, a running invocation has consumed fewer than `N` bytes. -/
def Asm.WithinBudget (p : Params) (a : Asm) : Prop :=
  ∀ n, p.overallLimit = some n → 0 < n → a.st ≠ .idle → a.ncons < n

/-- The whole machine: ASM's invariants, ATT within its range (R22), and a waiting call only while its invocation runs
(R112), in its first or second cycle where it is `SEQ_READ_ANGLE` (R176). -/
structure State.Inv (s : State) : Prop where
  asm : s.asm.Inv
  budget : s.asm.WithinBudget s.par
  att_le : s.seq.att ≤ readAttempts
  waiting : s.call ≠ .none → s.asm.st ≠ .idle
  cycle : ∀ id, s.call = .readAngle id → 1 ≤ s.seq.att ∧ 1 ≤ id.toNat ∧ id.toNat ≤ nServos

/-- A safe outcome: no fault of the model. -/
def NoFault (o : Host.Outcome State Fault Refusal) : Prop := ∀ e, o ≠ .fault e

/-- `k` steps one after another, stopping at the first fault or refusal. -/
def State.steps : Nat → State → Host.Outcome State Fault Refusal
  | 0, s => .next s
  | k + 1, s =>
    match step s with
    | .next t => t.steps k
    | .fault e => .fault e
    | .refused r => .refused r

end Sys2Proof.Machine

namespace Sys2Proof.Claims

open Machine

/-! The terms in which the claims spell the rules, written from the rules' own formulas and not from the model's
operations. -/

/-- `hi8(v) = v div 256` (R65). -/
def hiByte (v : Half) : Byte := BitVec.ofNat 8 (v.toNat / 256)

/-- `lo8(v) = v mod 256` (R65). -/
def loByte (v : Half) : Byte := BitVec.ofNat 8 (v.toNat % 256)

/-- The sum of a sequence's bytes as natural numbers (R8). -/
def byteSum (bs : List Byte) : Nat := (bs.map fun b => b.toNat).sum

/-- A command sequence with the checksum of R61 after it: `(5 + sum) mod 256`. -/
def framed (cmd : List Byte) : List Byte := cmd ++ [BitVec.ofNat 8 ((5 + byteSum cmd) % 256)]

/-- The incoming checksum of R63: `(LEN + TYPE + sum of payload bytes) mod 256`. -/
def incomingChecksum (len type : Byte) (p : List Byte) : Byte :=
  BitVec.ofNat 8 ((len.toNat + type.toNat + byteSum p) % 256)

/-- The bytes of an incoming frame with the right checksum (R63). -/
def incomingFrame (len type : Byte) (p : List Byte) : List Byte :=
  [0xFF#8, 0xFB#8, len, type] ++ p ++ [incomingChecksum len type p]

/-- The unread bytes after `RxNext()` has answered with the byte `b`: the oldest of them is removed where it is `b` (R41;
log entry 6). -/
def handedOver (b : Byte) (unread : List Byte) : List Byte :=
  if unread.head? = some b then unread.tail else unread

/-- The transport after the assembler has taken the byte `b` of an event `rx_byte(b)` (R41). -/
def lineAfter (b : Byte) (s : State) : Line := { s.line with held := handedOver b s.line.held }

/-- The unread bytes after these answers. -/
def leftUnread : List RxAnswer → List Byte → List Byte
  | [], unread => unread
  | .byte b :: xs, unread => leftUnread xs (handedOver b unread)
  | .noData :: xs, unread => leftUnread xs unread

/-- The answers the transport has for `RxNext()`, in order: those the environment has chosen, a byte or `NoData` each
(R41), then the bytes they leave unread, oldest first (R24; log entry 5). -/
def answers (l : Line) : List RxAnswer := l.next ++ (leftUnread l.next l.held).map RxAnswer.byte

/-- The transport after it has given the first `n` of these answers, its sending side as before. -/
def answered (n : Nat) (l : Line) : Line :=
  { l with next := l.next.drop n, held := (leftUnread (l.next.take n) l.held).drop (n - l.next.length) }

/-- `TxWrite(f)` of R43: what the transport's answer makes of the TX stream and the reports. -/
def Written (f : List Byte) (l l' : Line) : Prop :=
  (l.txNext = [] → l' = { l with tx := l.tx ++ f })
  ∧ (∀ k rest, l.txNext = .accepted k :: rest → f.length ≤ k →
      l' = { l with txNext := rest, tx := l.tx ++ f })
  ∧ (∀ k rest, l.txNext = .accepted k :: rest → k < f.length →
      l' = { l with txNext := rest, tx := l.tx ++ f.take k, reports := l.reports ++ [.partialWrite k f.length] })
  ∧ (∀ rest, l.txNext = .ioFail :: rest →
      l' = { l with txNext := rest, reports := l.reports ++ [.ioError] })

/-- The angle lies in the servo's degree range (R130): 0 to 270 for servo 5, 0 to 180 for the others. -/
def InRange (id : Nat) (angle : Half) : Prop :=
  0 ≤ angle.toInt ∧ angle.toInt ≤ if id = 5 then 270 else 180

/-- The device position of R132 for an angle in the servo's range: servos 2, 3 and 4 reflected. -/
def positionOf (id : Nat) (angle : Half) : Half :=
  if id = 5 then BitVec.ofNat 16 (angle.toInt.toNat * 3320 / 270 + 380)
  else if id = 2 ∨ id = 3 ∨ id = 4 then BitVec.ofNat 16 ((180 - angle.toInt).toNat * 2200 / 180 + 900)
  else BitVec.ofNat 16 (angle.toInt.toNat * 2200 / 180 + 900)

/-- What SEQ_READ_ANGLE makes of a decoded frame (R176): type, then payload length, then conversion. -/
def angleRead (p : Params) (id type : Byte) (payload : List Byte) : Int :=
  if type ≠ p.posReportType then -1
  else if payload.length < 3 then -1
  else
    match toAngle p.roundTies id (BitVec.ofNat 16 (256 * (payload.getD p.posOffset.val 0#8).toNat
        + (payload.getD (p.posOffset.val + 1) 0#8).toNat)) with
    | .ok a => a.toInt
    | .error _ => -1

/-- The payload of the frame ASM holds (R16). -/
def payloadOf (a : Asm) : List Byte := a.pbuf.toList.take a.pcnt.toNat

/-- The events `rx_byte`, one per byte, in order, stopping at the first fault or refusal. -/
def byteEvents : List Byte → State → Host.Outcome State Fault Refusal
  | [], s => .next s
  | b :: bs, s =>
    match exec (.rxByteLimit b) s with
    | .next t => byteEvents bs t
    | .fault e => .fault e
    | .refused r => .refused r

/-- A client that may call a sequence: LIFE = L_OPERATING and no call waiting (R170, R227). -/
def Ready (s : State) : Prop := s.seq.life = .operating ∧ s.call = .none

/-- What only ENC, MAP or the model's bookkeeping of inputs holds: left alone by everything that runs a decode. -/
def SameOutside (s t : State) : Prop :=
  t.enc = s.enc ∧ t.map = s.map ∧ t.par = s.par ∧ t.inbox = s.inbox ∧ t.fresh = s.fresh
    ∧ t.seq.life = s.seq.life ∧ t.line.openNext = s.line.openNext ∧ t.line.handle = s.line.handle
    ∧ t.line.releases = s.line.releases

/-- One write-and-await cycle of R170's `exchange` on the transport and ASM: unread bytes discarded where
`FLUSH_BEFORE_COMMAND` is set, one `TxWrite` of the framed command, then the step rules on the transport's answers from a
started assembler (R101, R112), which consume the answers `used`, all of them where the invocation goes on. -/
def Exchanged (cmd : List Byte) (p : Params) (l : Line) (a : Asm) (l' : Line) (a' : Asm) : Prop :=
  ∃ w used rest, Written (framed cmd) (if p.flushBeforeCommand then { l with held := [] } else l) w
    ∧ answers w = used ++ rest ∧ l' = answered used.length w ∧ answers l' = rest
    ∧ Asm.run p (fun x => x) (answers w) { a with st := .hunt, res := .rNone, ncons := 0 } = .ok (a', rest)
    ∧ (a'.st ≠ .idle → rest = [])

/-- The command bytes of a read-position request (R155). -/
def readCommand (id : Byte) : List Byte := [0xFF#8, 0xFC#8, 0x03#8, 0x30#8 + id]

/-- What SEQ_READ_ANGLE does after a failed first cycle that left the transport `l` and the assembler `a` (R176): a second
cycle, which waits, or returns the judgement of its frame, or -1. The map outputs and ENC are as in `s` (log entries 23
and 12), waiting is log entry 8, and a command taken whole where TxWrite's answers are used up is log entry 5. -/
def SecondCycle (id : Byte) (s : State) (l : Line) (a : Asm) (o : Host.Outcome State Fault Refusal) : Prop :=
  ∃ l2 a2, Exchanged (readCommand id) s.par l a l2 a2
    ∧ (a2.st ≠ .idle → o = .next { s with
        asm := a2, line := l2, seq := { s.seq with att := 2 }, call := .readAngle id, result := .pending })
    ∧ (a2.st = .idle → o = .next { s with
        asm := a2
        line := l2
        seq := { s.seq with att := 2 }
        call := .none
        result := .degrees (if a2.res = .rOk then angleRead s.par id a2.rtype (payloadOf a2) else -1) })

/-- The transport's sending side is untouched. -/
def SameSending (l l' : Line) : Prop := l'.tx = l.tx ∧ l'.txNext = l.txNext ∧ l'.reports = l.reports

/-- The operation is one of the client sequences (R4). -/
def isSequence : Instr → Bool
  | .seqOpen _ => true
  | .seqWriteAll .. => true
  | .seqWriteOne .. => true
  | .seqSetTorque _ => true
  | .seqPing _ => true
  | .seqReadAngle _ => true
  | .seqClose => true
  | _ => false

end Sys2Proof.Claims
end

