-- ==== Sys2Proof/Certificates/Slice0/Obligations.lean ====
section
/-! DEFINITION. The statements for the provers. An event `rx_byte(b)` hands over `b`, and `lineAfter b s` is the transport
without it (R41); that a byte which is not the oldest unread one removes nothing is the model's choice of log entry 6.
`framed` is a command with its checksum (R61), `answered n l` the transport after `n` answers to `RxNext()`. -/

open Sys2Proof Sys2Proof.Machine Sys2Proof.Claims

/-! ### The machine as a whole -/

/-- R25, R220: the four registers the spec gives a reset value for; and the parameters at their defaults of R7. That the
parameters stand in State with these settings at reset, and that POS_REPORT_TYPE, which has no default, is an
uninterpreted constant there, is the model's choice (log entries 2 and 3). -/
def Obligations.ResetGivesTheStatedValuesAndTheDefaults : Prop :=
  State.reset.enc.tst = .idle ∧ State.reset.asm.st = .idle ∧ State.reset.asm.res = .rNone
    ∧ State.reset.seq.life = .closed
    ∧ State.reset.par = {
        rescanIdByte := false
        overallLimit := none
        roundTies := .halfUp
        posReportType := Config.posReportType
        posOffset := 1
        torqueOn := 0x01#8
        torqueOff := 0x00#8
        flushBeforeCommand := false }

/-- R19 at reset, with the bookkeeping of log entry 8; PCNT and ATT at reset are the model's choice (log entry 1). -/
def Obligations.ResetMeetsTheInvariant : Prop := State.reset.Inv

/-- R19: every step keeps the invariant, from every state that meets it. -/
def Obligations.StepKeepsTheInvariant : Prop :=
  ∀ s t : State, s.Inv → step s = .next t → t.Inv

/-- In a state that meets R19 no step faults: the two faults of the model (log entry 17) are out of reach. -/
def Obligations.StepFromTheInvariantNeverFaults : Prop :=
  ∀ s : State, s.Inv → NoFault (step s)

/-- R40, R43: the TX stream is append-only, and reports are never taken back; and (log entry 2) no step changes a
parameter. -/
def Obligations.StepOnlyAppendsAndKeepsParameters : Prop :=
  ∀ s t : State, step s = .next t →
    s.line.tx <+: t.line.tx ∧ s.line.reports <+: t.line.reports ∧ t.par = s.par

/-- R11, R54(c): only ENCODE's events touch TST, TSUM and the collected output, and they touch nothing of ASM. -/
def Obligations.EncoderAndAssemblerShareNothing : Prop :=
  ∀ (i : Instr) (s t : State), exec i s = .next t →
    ((∀ form, i ≠ .encode form) → t.enc = s.enc)
    ∧ (∀ form, i = .encode form → t.asm = s.asm ∧ t.line = s.line ∧ t.seq = s.seq ∧ t.map = s.map)

/-- R22, R209: LIFE changes only by SEQ_OPEN and SEQ_CLOSE. -/
def Obligations.OnlyOpenAndCloseChangeLife : Prop :=
  ∀ (i : Instr) (s t : State), exec i s = .next t → t.seq.life ≠ s.seq.life →
    (∃ path, i = .seqOpen path) ∨ i = .seqClose

/-- R44: `TxWrite` is used only by the client sequences (the one that waits in `SEQ_READ_ANGLE` included). -/
def Obligations.OnlySequencesWriteToTheTransport : Prop :=
  ∀ (i : Instr) (s t : State), exec i s = .next t → isSequence i = false → s.call = .none → SameSending s.line t.line

/-- The oldest request that spells or names a well-formed operation is what a step runs, the request taken; one that does
not is refused. Without a request an idle block does nothing; a waiting assembler takes the transport's next answer as the
event it is, the environment's next chosen one, or else the oldest unread byte, and waits while there is none (R2, R41,
R112); where a call waits, `WaitingCallsGoOnWithTheEvent` says what the event does, and where none does the last three
clauses spell it out. Requests as data, the order of the answers and one answer a step are the model's choice: log entries
4, 5, 26 and 29. -/
def Obligations.StepRunsTheRequestedOperation : Prop :=
  (∀ (s : State) (rest : List Request) (i : Instr), i.wellFormed = true →
    (s.inbox = .op i :: rest ∨ ∃ bs, s.inbox = .frame bs :: rest ∧ Sys2Proof.decode bs = .ok i) →
    step s = exec i { s with inbox := rest })
  ∧ (∀ (s : State) (rest : List Request) (i : Instr), i.wellFormed = false → s.inbox = .op i :: rest →
    step s = .refused .illFormed)
  ∧ (∀ (s : State) (rest : List Request) (bs : List Byte) (e : DecodeError), Sys2Proof.decode bs = .error e →
    s.inbox = .frame bs :: rest → step s = .refused (.undecodable e))
  ∧ (∀ s : State, s.inbox = [] → (s.asm.st = .idle ∨ answers s.line = []) → step s = .next s)
  ∧ (∀ (s : State) (b : Byte) (next : List RxAnswer), s.inbox = [] → s.asm.st ≠ .idle → s.line.next = .byte b :: next →
    step s = exec (.rxByteLimit b) { s with line := { s.line with next := next } })
  ∧ (∀ (s : State) (next : List RxAnswer), s.inbox = [] → s.asm.st ≠ .idle → s.line.next = .noData :: next →
    step s = exec .rxNodata { s with line := { s.line with next := next } })
  ∧ (∀ (s : State) (b : Byte) (held : List Byte), s.inbox = [] → s.asm.st ≠ .idle → s.line.next = [] →
    s.line.held = b :: held → step s = exec (.rxByteLimit b) s)
  ∧ (∀ (s : State) (b : Byte) (next : List RxAnswer) (a : Asm), s.inbox = [] → s.asm.st ≠ .idle → s.call = .none →
    s.line.next = .byte b :: next → Asm.byte s.par b s.asm = .ok a →
    step s = .next { s with
      asm := a
      line := { s.line with next := next, held := handedOver b s.line.held } })
  ∧ (∀ (s : State) (b : Byte) (held : List Byte) (a : Asm), s.inbox = [] → s.asm.st ≠ .idle → s.call = .none →
    s.line.next = [] → s.line.held = b :: held → Asm.byte s.par b s.asm = .ok a →
    step s = .next { s with asm := a, line := { s.line with held := held } })
  ∧ (∀ (s : State) (next : List RxAnswer), s.inbox = [] → s.asm.st ≠ .idle → s.call = .none →
    s.line.next = .noData :: next →
    step s = .next { s with
      asm := { s.asm with res := .rTimeout, st := .idle }
      line := { s.line with next := next } })

/-! ### Decoding -/

/-- A few words of the table, and a whole frame with its checksum, decode to their rows. That command bytes without their
checksum decode too, and that a wrong checksum byte after them is rejected by name, is the model's choice (log entry
10). -/
def Obligations.TableWordsDecodeToTheirRows : Prop :=
  decodeTableWord 32 0xFFFC111D = some (.fmtWriteAll 0#16 0#16 0#16 0#16 0#16 0#16 0#16)
    ∧ decodeTableWord 32 0xFFFC0716 = some (.fmtWriteOne6 0#16 0#16)
    ∧ decodeTableWord 32 0xFFFC041A = some (.fmtTorque 0#8)
    ∧ decodeTableWord 32 0xFFFC0336 = some .fmtReadPos6
    ∧ decodeTableWord 32 0xFFFB0000 = some (.rxFrame 0#8 0#8 [])
    ∧ Sys2Proof.decode [0xFF#8, 0xFC#8, 0x04#8, 0x38#8, 0x07#8, 0x43#8] = .ok (.fmtPing 7#8)
    ∧ Sys2Proof.decode [0xFF#8, 0xFC#8, 0x04#8, 0x38#8, 0x07#8, 0x44#8] = .error .badChecksum

/-- R69, R63, R61: every well-formed frame operation, with every operand, is read back from its bytes, with and without
the checksum byte (that both spellings are accepted is the model's choice: log entry 10). -/
def Obligations.DecodeReadsBackWhatEncodeWrites : Prop :=
  ∀ (i : Instr) (bs f : List Byte), i.wellFormed = true → encode i = some bs → encodeFrame i = some f →
    Sys2Proof.decode bs = .ok i ∧ Sys2Proof.decode f = .ok i

/-- R69, R71: a byte sequence the decoder accepts is the encoding of the operation it gives, with or without the
checksum byte, and that operation is well formed; so no two operations share a spelling. Which spellings the decoder
accepts (a command with or without its checksum byte, an incoming frame with any checksum) is the model's choice (log
entry 10). -/
def Obligations.DecodeAcceptsOnlyEncodings : Prop :=
  ∀ (bs : List Byte) (i : Instr), Sys2Proof.decode bs = .ok i →
    i.wellFormed = true ∧ (encode i = some bs ∨ encodeFrame i = some bs)

/-! ### Layer FMT -/

/-- R151: the command bytes of a bulk write, and no state written. -/
def Obligations.FormatWriteAllLaysOutSixPositionsAndTime : Prop :=
  ∀ (p1 p2 p3 p4 p5 p6 t : Half) (s : State),
    exec (.fmtWriteAll p1 p2 p3 p4 p5 p6 t) s = .next { s with
      result := .bytes [0xFF#8, 0xFC#8, 0x11#8, 0x1D#8, hiByte p1, loByte p1, hiByte p2, loByte p2, hiByte p3,
        loByte p3, hiByte p4, loByte p4, hiByte p5, loByte p5, hiByte p6, loByte p6, hiByte t, loByte t] }

/-- R152: the command bytes of a single write, for each of the six servos, and no state written. -/
def Obligations.FormatWriteOneLaysOutPositionAndTime : Prop :=
  ∀ (p t : Half) (s : State),
    let out := fun cmd : Byte => Host.Outcome.next (φ := Fault) (ρ := Refusal) { s with
      result := .bytes [0xFF#8, 0xFC#8, 0x07#8, cmd, hiByte p, loByte p, hiByte t, loByte t] }
    exec (.fmtWriteOne1 p t) s = out 0x11#8 ∧ exec (.fmtWriteOne2 p t) s = out 0x12#8
      ∧ exec (.fmtWriteOne3 p t) s = out 0x13#8 ∧ exec (.fmtWriteOne4 p t) s = out 0x14#8
      ∧ exec (.fmtWriteOne5 p t) s = out 0x15#8 ∧ exec (.fmtWriteOne6 p t) s = out 0x16#8

/-- R153, R154, R155, R156: the command bytes of torque, ping, read position and buzzer, and no state written.
R154 gives FMT_PING for the ids 1 to 250; that it answers in the same form for the bytes 0 and 251 to 255 is the model's
choice of totality, which U10 allows (log entry 11). -/
def Obligations.FormatShortCommands : Prop :=
  ∀ (v : Byte) (s : State),
    let out := fun bs : List Byte => Host.Outcome.next (φ := Fault) (ρ := Refusal) { s with result := .bytes bs }
    exec (.fmtTorque v) s = out [0xFF#8, 0xFC#8, 0x04#8, 0x1A#8, v]
      ∧ exec (.fmtPing v) s = out [0xFF#8, 0xFC#8, 0x04#8, 0x38#8, v]
      ∧ exec (.fmtBuzzer v) s = out [0xFF#8, 0xFC#8, 0x04#8, 0x06#8, v]
      ∧ exec .fmtReadPos1 s = out [0xFF#8, 0xFC#8, 0x03#8, 0x31#8]
      ∧ exec .fmtReadPos2 s = out [0xFF#8, 0xFC#8, 0x03#8, 0x32#8]
      ∧ exec .fmtReadPos3 s = out [0xFF#8, 0xFC#8, 0x03#8, 0x33#8]
      ∧ exec .fmtReadPos4 s = out [0xFF#8, 0xFC#8, 0x03#8, 0x34#8]
      ∧ exec .fmtReadPos5 s = out [0xFF#8, 0xFC#8, 0x03#8, 0x35#8]
      ∧ exec .fmtReadPos6 s = out [0xFF#8, 0xFC#8, 0x03#8, 0x36#8]

/-- R62, R67, R150: what a formatter answers is its own encoding, begins FF FC, its LEN is its length less 1 (payload
plus 3), and the checksum ENCODE appends to it is `(LEN + CMD + sum(payload)) mod 256`. That this holds of FMT_PING with an
id outside 1 to 250 too is the model's choice of totality (U10, log entry 11). -/
def Obligations.FormattersAnswerSelfDescribingFrames : Prop :=
  ∀ (i : Instr) (bs : List Byte) (s : State), encode i = some bs → (∀ l t body, i ≠ .rxFrame l t body) →
    exec i s = .next { s with result := .bytes bs }
    ∧ (∃ len cmd payload, bs = 0xFF#8 :: 0xFC#8 :: len :: cmd :: payload ∧ len.toNat = payload.length + 3
        ∧ framed bs = bs ++ [BitVec.ofNat 8 ((len.toNat + cmd.toNat + byteSum payload) % 256)])

/-! ### Unit ENC and the checksums -/

/-- R90, R100: the two checksum operations answer the sums mod 256, and touch nothing else. -/
def Obligations.ChecksumOperationsAnswerTheSums : Prop :=
  ∀ (bs p : List Byte) (len type : Byte) (s : State),
    exec (.chkOut bs) s = .next { s with result := .byte (BitVec.ofNat 8 ((5 + byteSum bs) % 256)) }
    ∧ exec (.chkIn len type p) s = .next { s with result := .byte (incomingChecksum len type p) }

/-- R91: the order of the bytes does not matter, and the checksum can be computed byte by byte, dropping carries. -/
def Obligations.ChecksumIgnoresOrderAndGrowsByteByByte : Prop :=
  (∀ bs cs : List Byte, bs.Perm cs → chkOut bs = chkOut cs ∧ ∀ l t, chkIn l t bs = chkIn l t cs)
  ∧ (∀ (bs : List Byte), chkOut bs = bs.foldl (fun sum b => sum + b) 5#8)
  ∧ (∀ (l t : Byte) (bs : List Byte), chkIn l t bs = bs.foldl (fun sum b => sum + b) (l + t))

/-- R93: after the outgoing header the seed cancels, and the checksum is the one of an incoming frame with the same LEN,
type and payload; after the incoming header `CHK_OUT` gives one less. -/
def Obligations.OutgoingHeaderCancelsTheSeed : Prop :=
  ∀ (l t : Byte) (p : List Byte),
    chkOut (0xFF#8 :: 0xFC#8 :: l :: t :: p) = chkIn l t p
    ∧ (∀ r : List Byte, chkOut (0xFF#8 :: 0xFC#8 :: r) = BitVec.ofNat 8 (byteSum r % 256)
        ∧ chkOut (0xFF#8 :: 0xFB#8 :: r) = BitVec.ofNat 8 ((byteSum r + 255) % 256))

/-- R94: one byte changed anywhere before the checksum changes the checksum. -/
def Obligations.OneChangedByteIsDetected : Prop :=
  ∀ (u v : List Byte) (b c : Byte), b ≠ c → chkOut (u ++ b :: v) ≠ chkOut (u ++ c :: v)

/-- R92: the whole form answers the sequence with its checksum; each event in its place has its effect on TST, TSUM and
the output, and nothing else changes; out of its place it is refused (U1, log entry 13). -/
def Obligations.EncodeAndItsEvents : Prop :=
  ∀ (s : State),
    (∀ cmd, exec (.encode (.whole cmd)) s = .next { s with result := .bytes (framed cmd) })
    ∧ (s.enc.tst = .idle → exec (.encode .start) s = .next { s with enc := { tst := .busy, tsum := 5#8, out := [] } })
    ∧ (s.enc.tst = .busy → ∀ b, exec (.encode (.byte b)) s = .next { s with
        enc := { tst := .busy, tsum := BitVec.ofNat 8 ((s.enc.tsum.toNat + b.toNat) % 256), out := s.enc.out ++ [b] } })
    ∧ (s.enc.tst = .busy → exec (.encode .stop) s = .next { s with
        enc := { tst := .idle, tsum := s.enc.tsum, out := s.enc.out ++ [s.enc.tsum] } })
    ∧ (s.enc.tst = .busy → exec (.encode .start) s = .refused .encoderOrder)
    ∧ (s.enc.tst = .idle → exec (.encode .stop) s = .refused .encoderOrder
        ∧ ∀ b, exec (.encode (.byte b)) s = .refused .encoderOrder)

/-- R92: the events enc_start, one enc_byte per command byte, enc_end emit exactly the bytes of `ENCODE(s)`, in order,
and leave ENC idle with the checksum in TSUM; every other part of the machine is as before. -/
def Obligations.EncoderEventsEmitTheEncodedFrame : Prop :=
  ∀ (cmd : List Byte) (rest : List Request) (s : State), s.enc.tst = .idle →
    s.inbox = .op (.encode .start) :: (cmd.map fun b => Request.op (.encode (.byte b)))
      ++ (.op (.encode .stop) :: rest) →
    s.steps (cmd.length + 2) = .next { s with
      inbox := rest
      enc := { tst := .idle, tsum := BitVec.ofNat 8 ((5 + byteSum cmd) % 256), out := framed cmd } }

/-! ### Unit ASM: the step rules. The rules without the byte budget; R110 adds it. -/

/-- R101, U2, R109: RX_START begins an invocation of an idle assembler, and is refused while one runs (the refusal's name:
log entry 13); NoData ends a running invocation with R_TIMEOUT and consumes nothing, where no call waits for it. -/
def Obligations.RxStartBeginsAndNoDataEndsAnInvocation : Prop :=
  ∀ s : State,
    (s.asm.st = .idle → exec .rxStart s = .next { s with asm := { s.asm with st := .hunt, res := .rNone, ncons := 0 } })
    ∧ (s.asm.st ≠ .idle → exec .rxStart s = .refused .decodeRunning)
    ∧ (s.asm.st ≠ .idle → s.call = .none →
      exec .rxNodata s = .next { s with asm := { s.asm with res := .rTimeout, st := .idle } })

/-- R102: header scan. -/
def Obligations.RxByteInHuntScansForTheHeader : Prop :=
  ∀ (b : Byte) (s : State), s.asm.st = .hunt → s.par.overallLimit = none →
    exec (.rxByteHunt b) s = .next { s with
      asm := { s.asm with st := if b = 0xFF#8 then .id else .hunt }
      line := lineAfter b s }

/-- R103: device-id check, for both settings of RESCAN_ID_BYTE. -/
def Obligations.RxByteInIdChecksTheDeviceId : Prop :=
  ∀ (b : Byte) (s : State), s.asm.st = .id → s.par.overallLimit = none →
    exec (.rxByteId b) s = .next { s with
      asm := { s.asm with
        st := if b = 0xFB#8 then .len
          else if s.par.rescanIdByte = true ∧ b = 0xFF#8 then .id
          else .hunt }
      line := lineAfter b s }

/-- R104: length byte. -/
def Obligations.RxByteInLenStoresTheLength : Prop :=
  ∀ (b : Byte) (s : State), s.asm.st = .len → s.par.overallLimit = none →
    exec (.rxByteLen b) s = .next { s with
      asm := { s.asm with rlen := b, st := .typ }
      line := lineAfter b s }

/-- R105: type byte with a valid length. -/
def Obligations.RxByteInTypeStartsTheData : Prop :=
  ∀ (b : Byte) (s : State), s.asm.st = .typ → 3 ≤ s.asm.rlen.toNat → s.par.overallLimit = none →
    exec (.rxByteTypeValid b) s = .next { s with
      asm := { s.asm with
        rtype := b
        rem := BitVec.ofNat 8 (s.asm.rlen.toNat - 2)
        sum := BitVec.ofNat 8 ((s.asm.rlen.toNat + b.toNat) % 256)
        pcnt := 0#8
        st := .data }
      line := lineAfter b s }

/-- R106: type byte with an invalid length; no other call waits for the invocation. -/
def Obligations.RxByteInTypeFailsOnAShortLength : Prop :=
  ∀ (b : Byte) (s : State), s.asm.st = .typ → s.asm.rlen.toNat < 3 → s.par.overallLimit = none → s.call = .none →
    exec (.rxByteTypeInvalid b) s = .next { s with
      asm := { s.asm with rtype := b, res := .rBadLen, st := .idle }
      line := lineAfter b s }

/-- R107: a payload byte; only the entry PBUF[PCNT] of PBUF changes. -/
def Obligations.RxByteInDataStoresThePayload : Prop :=
  ∀ (b : Byte) (s : State) (h : s.asm.pcnt.toNat < 252), s.asm.st = .data → 1 < s.asm.rem.toNat →
    s.par.overallLimit = none →
    exec (.rxByteDataPayload b) s = .next { s with
      asm := { s.asm with
        pbuf := s.asm.pbuf.set s.asm.pcnt.toNat b h
        pcnt := BitVec.ofNat 8 (s.asm.pcnt.toNat + 1)
        sum := BitVec.ofNat 8 ((s.asm.sum.toNat + b.toNat) % 256)
        rem := BitVec.ofNat 8 (s.asm.rem.toNat - 1) }
      line := lineAfter b s }

/-- R108: the checksum byte; no other call waits for the invocation. -/
def Obligations.RxByteInDataChecksTheChecksum : Prop :=
  ∀ (b : Byte) (s : State), s.asm.st = .data → s.asm.rem = 1#8 → s.par.overallLimit = none → s.call = .none →
    exec (.rxByteDataChecksum b) s = .next { s with
      asm := if b = s.asm.sum then { s.asm with res := .rOk, st := .idle } else { s.asm with st := .hunt }
      line := lineAfter b s }

/-- R110: in a state that meets R19 the byte's state rule always applies; with a limit the byte is counted first and the
budget tested after it, without one the state rule alone applies. What that rule is, the statements about R102 to R108
say, and `RowsAndFramesAreByteEvents` carries this to their rows. -/
def Obligations.RxByteIsCountedAgainstTheLimit : Prop :=
  ∀ (b : Byte) (s : State), s.asm.Inv → s.asm.st ≠ .idle → s.call = .none →
    (∀ n, s.par.overallLimit = some n →
      ∃ a, Asm.stateRule s.par b { s.asm with ncons := s.asm.ncons + 1 } = .ok a
        ∧ a.ncons = s.asm.ncons + 1
        ∧ exec (.rxByteLimit b) s = .next { s with
          asm := if a.st ≠ .idle ∧ a.ncons = n then { a with res := .rLimit, st := .idle } else a
          line := lineAfter b s })
    ∧ (s.par.overallLimit = none →
      ∃ a, Asm.stateRule s.par b s.asm = .ok a
        ∧ exec (.rxByteLimit b) s = .next { s with asm := a, line := lineAfter b s })

/-- R111: in IDLE a byte is not consumed and waits in the transport, and NoData changes nothing.
That the byte is always a newly received one, appended also where it is already the oldest unread byte, is the model's
choice of log entry 6; that each of the other eight rows is this same event there, and that an incoming frame as an
operation is its bytes coming in one after another, of log entries 7 and 9. -/
def Obligations.IdleAssemblerConsumesNothing : Prop :=
  ∀ (b : Byte) (s : State), s.asm.st = .idle →
    let waits := Host.Outcome.next (φ := Fault) (ρ := Refusal)
      { s with line := { s.line with held := s.line.held ++ [b] } }
    exec (.rxByteIdle b) s = waits ∧ exec (.rxByteHunt b) s = waits ∧ exec (.rxByteId b) s = waits
      ∧ exec (.rxByteLen b) s = waits ∧ exec (.rxByteTypeValid b) s = waits
      ∧ exec (.rxByteTypeInvalid b) s = waits ∧ exec (.rxByteDataPayload b) s = waits
      ∧ exec (.rxByteDataChecksum b) s = waits ∧ exec (.rxByteLimit b) s = waits
      ∧ exec .rxNodata s = .next s
      ∧ ∀ len type body, exec (.rxFrame len type body) s = .next { s with
          line := { s.line with held := s.line.held ++ (0xFF#8 :: 0xFB#8 :: len :: type :: body) } }

/-- The model's choice of log entries 7 and 9: the nine rows are one event `rx_byte(b)`, whose rule the state decides, and
an incoming frame is one such event per byte, first byte first (R47, R51). -/
def Obligations.RowsAndFramesAreByteEvents : Prop :=
  (∀ (b : Byte) (s : State),
    let event := exec (.rxByteLimit b) s
    exec (.rxByteIdle b) s = event ∧ exec (.rxByteHunt b) s = event ∧ exec (.rxByteId b) s = event
      ∧ exec (.rxByteLen b) s = event ∧ exec (.rxByteTypeValid b) s = event
      ∧ exec (.rxByteTypeInvalid b) s = event ∧ exec (.rxByteDataPayload b) s = event
      ∧ exec (.rxByteDataChecksum b) s = event)
  ∧ (∀ (len type : Byte) (body : List Byte) (s : State),
    exec (.rxFrame len type body) s = byteEvents (0xFF#8 :: 0xFB#8 :: len :: type :: body) s)

/-- R23, R16: the output signals show the registers: `busy` is ST ≠ IDLE, `res` and `map_err` the codes of R17 and R23,
the map outputs as MAP drove them; with RES = R_OK `rlen`, `rtype` and `pcnt` are RLEN, RTYPE and PCNT, and `pbuf_rd(i)` is
payload byte `i` for `i < PCNT`. (Outside R_OK these are free values: U5, U6, log entry 21.) R11, R12, R17, R22, R190: the
codes of the enumerations, and the code and class of each cause. -/
def Obligations.OutputSignalsShowTheRegisters : Prop :=
  (∀ s : State, (s.busy = true ↔ s.asm.st ≠ .idle) ∧ s.resOut = s.asm.res.code ∧ s.mapErrOut = s.map.err.code
    ∧ s.mapPosOut = s.map.posOut ∧ s.mapAngleOut = s.map.angleOut
    ∧ (s.asm.res = .rOk → s.rlenOut = s.asm.rlen ∧ s.rtypeOut = s.asm.rtype ∧ s.pcntOut = s.asm.pcnt
      ∧ (∀ (i : Nat) (h : i < 252), i < s.asm.pcnt.toNat → s.pbufRd i = s.asm.pbuf[i])
      ∧ (s.asm.pcnt.toNat ≤ 252 → payloadOf s.asm = (List.range s.asm.pcnt.toNat).map fun i => s.pbufRd i)))
  ∧ ([TxState.idle, .busy].map TxState.code = [0, 1]
    ∧ [ScanState.idle, .hunt, .id, .len, .typ, .data].map ScanState.code = [0, 1, 2, 3, 4, 5]
    ∧ [RxResult.rNone, .rOk, .rTimeout, .rBadLen, .rLimit].map RxResult.code = [0, 1, 2, 3, 4]
    ∧ [Life.closed, .operating].map Life.code = [0, 1]
    ∧ [MapErr.none, .errId, .errRange].map MapErr.code = [0, 1, 2])
  ∧ ([Cause.connection, .rangeAngle, .rangeId, .partialWrite, .ioError, .rxTimeout, .rxBadLen, .rxBadChecksum,
        .rxBadDevid, .rxLimit, .respType, .respShort, .respRange].map (fun c => (c.code, c.errorClass))
      = [(1, .connectionError), (2, .rangeError), (3, .rangeError), (4, .ioError), (5, .ioError), (6, .protocolError),
        (7, .protocolError), (8, .protocolError), (9, .protocolError), (10, .protocolError), (11, .protocolError),
        (12, .protocolError), (13, .protocolError)]
    ∧ [RxResult.rNone, .rOk, .rTimeout, .rBadLen, .rLimit].map RxResult.cause
      = [none, none, some .rxTimeout, some .rxBadLen, some .rxLimit]
    ∧ [MapErr.none, .errId, .errRange].map MapErr.cause = [none, some .rangeId, some .rangeAngle]
    ∧ (∀ k n, (Report.partialWrite k n).cause = .partialWrite) ∧ Report.ioError.cause = .ioError)

/-! ### Unit ASM: frames and invocations -/

/-- R71, R114, R116: what a hunting assembler makes of an incoming frame whose bytes come in: a right checksum is accepted,
a wrong one rejected with the scan going on, a length below 3 ends the invocation. (A frame as one operation, and what its
bytes remove where others are unread, are the model's choice: log entries 9 and 6.) -/
def Obligations.HuntingAssemblerJudgesTheFrame : Prop :=
  ∀ (len type c : Byte) (p : List Byte) (s : State), s.asm.st = .hunt → s.par.overallLimit = none → s.call = .none →
    let read := fun bs : List Byte => { s.line with held := leftUnread (bs.map RxAnswer.byte) s.line.held }
    (3 ≤ len.toNat → p.length = len.toNat - 3 →
      (∃ a, exec (.rxFrame len type (p ++ [incomingChecksum len type p])) s
            = .next { s with asm := a, line := read (incomingFrame len type p) }
        ∧ a.st = .idle ∧ a.res = .rOk ∧ a.rlen = len ∧ a.rtype = type ∧ a.pcnt.toNat = p.length
        ∧ a.pbuf.toList.take p.length = p)
      ∧ (c ≠ incomingChecksum len type p → ∃ a, exec (.rxFrame len type (p ++ [c])) s
            = .next { s with asm := a, line := read ([0xFF#8, 0xFB#8, len, type] ++ p ++ [c]) }
        ∧ a.st = .hunt ∧ a.res = s.asm.res))
    ∧ (len.toNat < 3 → exec (.rxFrame len type []) s = .next { s with
        asm := { s.asm with rlen := len, rtype := type, res := .rBadLen, st := .idle }
        line := read [0xFF#8, 0xFB#8, len, type] })

/-- R112: DECODE is RX_START and one step per answer, in order, until ST = IDLE; then it returns the frame or RES, and
with the answers used up it waits. The answers not consumed stay. (The transport's answers as data: log entry 5; waiting:
log entry 8.) -/
def Obligations.DecodeRunsTheTransportsAnswers : Prop :=
  ∀ (s : State) (a : Asm) (used rest : List RxAnswer), s.asm.st = .idle → answers s.line = used ++ rest →
    Asm.run s.par (fun x => x) (answers s.line) { s.asm with st := .hunt, res := .rNone, ncons := 0 } = .ok (a, rest) →
    (a.st ≠ .idle → rest = [])
      ∧ answers (answered used.length s.line) = rest
      ∧ exec .decode s = .next { s with
          asm := a
          line := answered used.length s.line
          call := if a.st = .idle then .none else .decode
          result :=
            if a.st ≠ .idle then .pending
            else if a.res = .rOk then .frame a.rlen a.rtype (a.pbuf.toList.take a.pcnt.toNat)
            else .decodeErr a.res }

/-- R112, R113: from every state with ST = IDLE a decode invocation answers a next state: ended with a cause, or waiting
with every answer consumed; it consumes a prefix of the answers and touches ASM and the receive side alone. -/
def Obligations.DecodeAlwaysReturnsOrWaits : Prop :=
  ∀ s : State, s.asm.st = .idle → ∃ t used, exec .decode s = .next t
    ∧ answers s.line = used ++ answers t.line ∧ t.line = answered used.length s.line
    ∧ SameOutside s t ∧ SameSending s.line t.line ∧ t.seq = s.seq
    ∧ ((t.asm.st = .idle ∧ t.asm.res ≠ .rNone ∧ t.call = .none
          ∧ t.result = (if t.asm.res = .rOk
              then .frame t.asm.rlen t.asm.rtype (t.asm.pbuf.toList.take t.asm.pcnt.toNat)
              else .decodeErr t.asm.res))
      ∨ (t.asm.st ≠ .idle ∧ t.asm.res = .rNone ∧ t.call = .decode ∧ t.result = .pending ∧ answers t.line = []))

/-- R113, R114: an accepted frame stood in the received bytes, complete and with the right checksum, and its checksum
byte is the last byte consumed. -/
def Obligations.AcceptedFramesWereReceived : Prop :=
  ∀ (s t : State) (len type : Byte) (p : List Byte), s.asm.st = .idle → exec .decode s = .next t →
    t.result = .frame len type p →
    3 ≤ len.toNat ∧ p.length = len.toNat - 3
      ∧ ∃ before : List Byte,
        answers s.line = (before ++ incomingFrame len type p).map RxAnswer.byte ++ answers t.line

/-- R114, R115: a well-formed frame behind noise without a byte 0xFF is decoded, and nothing behind it is consumed. -/
def Obligations.FrameBehindCleanNoiseIsDecoded : Prop :=
  ∀ (s : State) (noise p : List Byte) (rest : List RxAnswer) (len type : Byte), s.asm.st = .idle →
    s.par.overallLimit = none → (∀ b ∈ noise, b ≠ 0xFF#8) → 3 ≤ len.toNat → p.length = len.toNat - 3 →
    answers s.line = (noise ++ incomingFrame len type p).map RxAnswer.byte ++ rest →
    ∃ a, exec .decode s = .next { s with
        asm := a
        line := answered (noise.length + p.length + 5) s.line
        call := .none
        result := .frame len type p }
      ∧ answers (answered (noise.length + p.length + 5) s.line) = rest
      ∧ a.st = .idle ∧ a.res = .rOk ∧ a.rlen = len ∧ a.rtype = type ∧ a.pcnt.toNat = p.length
      ∧ a.pbuf.toList.take p.length = p

/-- R26, R117: what an invocation returns and consumes depends on the answers and on RESCAN_ID_BYTE and OVERALL_LIMIT
alone, not on what any earlier invocation or any other unit left behind. -/
def Obligations.DecodeDependsOnAnswersAndParametersAlone : Prop :=
  ∀ s1 s2 t1 t2 : State, s1.asm.st = .idle → s2.asm.st = .idle →
    s1.par.rescanIdByte = s2.par.rescanIdByte → s1.par.overallLimit = s2.par.overallLimit →
    s1.line.held = s2.line.held → s1.line.next = s2.line.next →
    exec .decode s1 = .next t1 → exec .decode s2 = .next t2 →
    t1.result = t2.result ∧ t1.asm.st = t2.asm.st ∧ t1.asm.res = t2.asm.res ∧ t1.line.held = t2.line.held
      ∧ t1.line.next = t2.line.next

/-- R95 (the round trip in its true form): an encoded command whose device-id byte is replaced by the incoming one decodes
to its LEN, CMD and payload, and nothing more is consumed. -/
def Obligations.EncodedCommandDecodesUnderTheIncomingId : Prop :=
  ∀ (s t u : State) (len cmd : Byte) (p f : List Byte) (rest : List RxAnswer), len.toNat = p.length + 3 →
    exec (.encode (.whole (0xFF#8 :: 0xFC#8 :: len :: cmd :: p))) s = .next t → t.result = .bytes f →
    u.asm.st = .idle → u.par.overallLimit = none → answers u.line = (f.set 1 0xFB#8).map RxAnswer.byte ++ rest →
    ∃ v, exec .decode u = .next v ∧ v.result = .frame len cmd p ∧ v.asm.res = .rOk ∧ v.asm.rlen = len
      ∧ v.asm.rtype = cmd ∧ payloadOf v.asm = p ∧ v.line = answered f.length u.line ∧ answers v.line = rest

/-- R118: without a limit there is no bound, a stream of any length may leave an invocation waiting; with limit N it ends
after at most N answers. -/
def Obligations.OnlyALimitBoundsAnInvocation : Prop :=
  (∀ (s : State) (n : Nat), s.asm.st = .idle → s.par.overallLimit = none →
    answers s.line = List.replicate n (RxAnswer.byte 0#8) →
    ∃ t, exec .decode s = .next t ∧ t.result = .pending ∧ t.asm.st = .hunt ∧ answers t.line = [])
  ∧ (∀ (s t : State) (n : Nat), s.asm.st = .idle → s.par.overallLimit = some n → 0 < n → exec .decode s = .next t →
    (∃ used, answers s.line = used ++ answers t.line ∧ used.length ≤ n)
      ∧ (n ≤ (answers s.line).length → t.asm.st = .idle))

/-- R231, R103 corner case (a): a stray 0xFF directly before a frame costs that frame, unless RESCAN_ID_BYTE is set. -/
def Obligations.StrayHeaderCostsTheNextFrame : Prop :=
  ∀ (s : State) (len type : Byte) (p : List Byte), s.asm.st = .idle → s.par.overallLimit = none →
    3 ≤ len.toNat → p.length = len.toNat - 3 →
    answers s.line = (0xFF#8 :: incomingFrame len type p).map RxAnswer.byte →
    (∀ b ∈ len :: type :: p ++ [incomingChecksum len type p], b ≠ 0xFF#8) →
    ∃ t, exec .decode s = .next t ∧ answers t.line = []
      ∧ (s.par.rescanIdByte = false → t.result = .pending ∧ t.asm.st = .hunt)
      ∧ (s.par.rescanIdByte = true → t.result = .frame len type p)

/-- The model's way of waiting (log entry 8), after R112, R174, R176: a call that waits in RxNext goes on with the event
that ends its invocation, and returns what it would have returned at once; after a failed first cycle, whichever event
failed it, SEQ_READ_ANGLE begins the second (which the last clause spells out for a transport without further answers),
after a failed second it returns -1. That the map outputs stay as they are although TO_ANGLE judges the frame, and ENC
although ENCODE frames the second command, is the model's reading (log entries 23 and 12); in the second cycle and the
last clause a command is taken whole where TxWrite's answers are used up (log entry 5). -/
def Obligations.WaitingCallsGoOnWithTheEvent : Prop :=
  ∀ (s : State), s.asm.st ≠ .idle →
    (∀ b a, Asm.byte s.par b s.asm = .ok a →
      (a.st ≠ .idle → exec (.rxByteLimit b) s = .next { s with asm := a, line := lineAfter b s })
      ∧ (a.st = .idle → s.call = .decode → exec (.rxByteLimit b) s = .next { s with
          asm := a
          line := lineAfter b s
          call := .none
          result := if a.res = .rOk then .frame a.rlen a.rtype (payloadOf a) else .decodeErr a.res })
      ∧ (a.st = .idle → s.call = .ping → exec (.rxByteLimit b) s = .next { s with
          asm := a
          line := lineAfter b s
          call := .none
          result := .code (if a.res = .rOk then (payloadOf a).headD 0#8 else 0#8) })
      ∧ (∀ id, a.st = .idle → s.call = .readAngle id → a.res = .rOk → exec (.rxByteLimit b) s = .next { s with
          asm := a
          line := lineAfter b s
          call := .none
          result := .degrees (angleRead s.par id a.rtype (payloadOf a)) })
      ∧ (∀ id, a.st = .idle → s.call = .readAngle id → a.res ≠ .rOk → s.seq.att = 1 →
          SecondCycle id s (lineAfter b s) a (exec (.rxByteLimit b) s))
      ∧ (∀ id, a.st = .idle → s.call = .readAngle id → a.res ≠ .rOk → s.seq.att = 2 →
          exec (.rxByteLimit b) s = .next { s with
          asm := a
          line := lineAfter b s
          call := .none
          result := .degrees (-1) }))
    ∧ (s.call = .decode → exec .rxNodata s = .next { s with
        asm := { s.asm with res := .rTimeout, st := .idle }
        call := .none
        result := .decodeErr .rTimeout })
    ∧ (s.call = .ping → exec .rxNodata s = .next { s with
        asm := { s.asm with res := .rTimeout, st := .idle }
        call := .none
        result := .code 0#8 })
    ∧ (∀ id, s.call = .readAngle id → s.seq.att = 1 →
      SecondCycle id s s.line { s.asm with res := .rTimeout, st := .idle } (exec .rxNodata s))
    ∧ (∀ id, s.call = .readAngle id → s.seq.att = 2 → exec .rxNodata s = .next { s with
        asm := { s.asm with res := .rTimeout, st := .idle }
        call := .none
        result := .degrees (-1) })
    ∧ (∀ id, s.call = .readAngle id → s.seq.att = 1 → answers s.line = [] → s.line.txNext = [] →
      exec .rxNodata s = .next { s with
        asm := { s.asm with res := .rNone, st := .hunt, ncons := 0 }
        line := { s.line with tx := s.line.tx ++ framed (readCommand id) }
        seq := { s.seq with att := 2 }
        result := .pending })

/-! ### Unit MAP -/

/-- R132: the id first, then the range, then the truncating linear map of the (reflected) angle; on an error the position
output is unspecified (U7), so it and the count of free values are left open here. That `map_angle_out` keeps its value,
that both directions share `map_err`, and the count of free values are the model's choice (log entry 16). -/
def Obligations.ToPositionMapsOrRefuses : Prop :=
  ∀ (id : Byte) (angle : Half) (s : State),
    let ok := fun p : Half => exec (.toPosition id angle) s = .next { s with
      map := { s.map with err := .none, posOut := p }, result := .position p }
    let bad := fun e : MapErr => ∃ v n, exec (.toPosition id angle) s = .next { s with
      map := { s.map with err := e, posOut := v }, fresh := n, result := .mapErr e }
    (id.toNat < 1 ∨ 6 < id.toNat → bad .errId)
    ∧ (id.toNat = 1 ∨ id.toNat = 6 → 0 ≤ angle.toInt → angle.toInt ≤ 180 →
        ok (BitVec.ofNat 16 (angle.toInt.toNat * 2200 / 180 + 900)))
    ∧ (id.toNat = 2 ∨ id.toNat = 3 ∨ id.toNat = 4 → 0 ≤ angle.toInt → angle.toInt ≤ 180 →
        ok (BitVec.ofNat 16 ((180 - angle.toInt).toNat * 2200 / 180 + 900)))
    ∧ (id.toNat = 5 → 0 ≤ angle.toInt → angle.toInt ≤ 270 →
        ok (BitVec.ofNat 16 (angle.toInt.toNat * 3320 / 270 + 380)))
    ∧ (1 ≤ id.toNat → id.toNat ≤ 6 → (angle.toInt < 0 ∨ (if id.toNat = 5 then 270 else 180) < angle.toInt) →
        bad .errRange)

/-- R133: the id first, then the rounded inverse map and its range, then the reflection; on an error the angle output is
unspecified (U7), so it and the count of free values are left open here. That `map_pos_out` keeps its value, that both
directions share `map_err`, and the count of free values are the model's choice (log entry 16). -/
def Obligations.ToAngleMapsOrRefuses : Prop :=
  ∀ (id : Byte) (pos : Half) (s : State),
    let ok := fun a : Half => exec (.toAngle id pos) s = .next { s with
      map := { s.map with err := .none, angleOut := a }, result := .angle a }
    let bad := fun e : MapErr => ∃ v n, exec (.toAngle id pos) s = .next { s with
      map := { s.map with err := e, angleOut := v }, fresh := n, result := .mapErr e }
    let std := roundTies s.par.roundTies (((pos.toNat : Int) - 900) * 180) 2200
    let s5 := roundTies s.par.roundTies (((pos.toNat : Int) - 380) * 270) 3320
    (id.toNat < 1 ∨ 6 < id.toNat → bad .errId)
    ∧ (id.toNat = 1 ∨ id.toNat = 6 →
        (0 ≤ std ∧ std ≤ 180 → ok (BitVec.ofInt 16 std)) ∧ (std < 0 ∨ 180 < std → bad .errRange))
    ∧ (id.toNat = 2 ∨ id.toNat = 3 ∨ id.toNat = 4 →
        (0 ≤ std ∧ std ≤ 180 → ok (BitVec.ofInt 16 (180 - std))) ∧ (std < 0 ∨ 180 < std → bad .errRange))
    ∧ (id.toNat = 5 →
        (0 ≤ s5 ∧ s5 ≤ 270 → ok (BitVec.ofInt 16 s5)) ∧ (s5 < 0 ∨ 270 < s5 → bad .errRange))

/-- R8, `round_T(p, q)`: a nearest integer to `p/q`, an exact half going up, down, or to the even neighbour. -/
def Obligations.RoundTiesIsNearest : Prop :=
  ∀ (p q : Int), 0 < q →
    (∃ a, roundTies .halfUp p q = a ∧ -q ≤ 2 * (p - a * q) ∧ 2 * (p - a * q) < q)
    ∧ (∃ a, roundTies .halfDown p q = a ∧ -q < 2 * (p - a * q) ∧ 2 * (p - a * q) ≤ q)
    ∧ (∃ a, roundTies .halfEven p q = a ∧ -q ≤ 2 * (p - a * q) ∧ 2 * (p - a * q) ≤ q
        ∧ (2 * (p - a * q) = q ∨ 2 * (p - a * q) = -q → a % 2 = 0))

/-- R136: every angle in a servo's range is recovered exactly, for every tie rule; a position TO_ANGLE accepts comes back
within the bounds of R136, 6 device units and 7 for servo 5, under half_up, the default; under the other two tie rules an
exact half reaches 7 for every servo. -/
def Obligations.MapperRoundTrips : Prop :=
  (∀ (ties : RoundTies) (id : Byte) (angle : Half), 1 ≤ id.toNat → id.toNat ≤ 6 → InRange id.toNat angle →
    ∃ p, toPosition id angle = .ok p ∧ toAngle ties id p = .ok angle)
  ∧ (∀ (ties : RoundTies) (id : Byte) (pos a : Half), toAngle ties id pos = .ok a →
    let bound := if ties = .halfUp ∧ id.toNat ≠ 5 then 6 else 7
    ∃ p, toPosition id a = .ok p ∧ pos.toNat ≤ p.toNat + bound ∧ p.toNat ≤ pos.toNat + bound)

/-- R137: the positions TO_ANGLE accepts, for every tie rule. -/
def Obligations.AcceptedPositionWindows : Prop :=
  ∀ (ties : RoundTies) (id : Byte) (pos : Half),
    (∃ a, toAngle ties id pos = .ok a) ↔
      ((id.toNat ∈ [1, 2, 3, 4, 6] ∧ 894 ≤ pos.toNat ∧ pos.toNat ≤ 3106)
        ∨ (id.toNat = 5 ∧ 374 ≤ pos.toNat ∧ pos.toNat ≤ 3706))

/-- R138: servos 2, 3 and 4 are servo 1 reflected, in both directions; servos 5 and 6 are never reflected. -/
def Obligations.MountInversionReflects : Prop :=
  ∀ (ties : RoundTies) (angle pos : Half),
    (∀ id : Byte, id.toNat = 2 ∨ id.toNat = 3 ∨ id.toNat = 4 →
      (0 ≤ angle.toInt → angle.toInt ≤ 180 → toPosition id angle = toPosition 1#8 (180#16 - angle))
      ∧ (∀ a, toAngle ties 1#8 pos = .ok a → toAngle ties id pos = .ok (180#16 - a)))
    ∧ toPosition 6#8 angle = toPosition 1#8 angle ∧ toAngle ties 6#8 pos = toAngle ties 1#8 pos
    ∧ (∀ p, toPosition 5#8 angle = .ok p → p.toNat = angle.toInt.toNat * 3320 / 270 + 380)
    ∧ (∀ a, toAngle ties 5#8 pos = .ok a → a.toInt = roundTies ties (((pos.toNat : Int) - 380) * 270) 3320)

/-- R134(e), R135: TO_POSITION is a lookup in a strictly increasing table, each step 12 or 13 device units, with values
from 380 to 3700; TO_ANGLE yields 0 to 270. -/
def Obligations.MapperLooksUpIncreasingTables : Prop :=
  (∀ (id : Byte) (angle p : Half), toPosition id angle = .ok p →
    380 ≤ p.toNat ∧ p.toNat ≤ 3700
    ∧ (id.toNat = 5 → p.toNat = tabS5 angle.toInt.toNat)
    ∧ (id.toNat = 1 ∨ id.toNat = 6 → p.toNat = tabStd angle.toInt.toNat)
    ∧ (id.toNat = 2 ∨ id.toNat = 3 ∨ id.toNat = 4 → p.toNat = tabStd (180 - angle.toInt.toNat)))
  ∧ (∀ a : Nat, (tabStd (a + 1) - tabStd a = 12 ∨ tabStd (a + 1) - tabStd a = 13)
      ∧ (tabS5 (a + 1) - tabS5 a = 12 ∨ tabS5 (a + 1) - tabS5 a = 13))
  ∧ (∀ (ties : RoundTies) (id : Byte) (pos a : Half), toAngle ties id pos = .ok a → 0 ≤ a.toInt ∧ a.toInt ≤ 270)

/-! ### Layer SEQ -/

/-- R177, R191, R178: opening succeeds or fails as the transport answers, and a failure changes nothing but the answer
taken; closing releases the handle and loses the unread bytes, and closing again does nothing (log entry 14). That the
transport opens where the list of answers is used up is the model's choice (log entry 5); that opening leaves ENC, ASM and
the unread bytes as they are, and that the further answers stay over a close, is the model's reading (log entries 15 and
25); that both run also while an invocation begun by a bare RX_START runs is the model's choice (log entry 31). -/
def Obligations.OpenFollowsTheTransportAndCloseReleasesOnce : Prop :=
  ∀ s : State, s.call = .none →
    (∀ path, s.seq.life = .closed →
      (s.line.openNext = [] ∨ (∃ r, s.line.openNext = true :: r) →
        exec (.seqOpen path) s = .next { s with
          line := { s.line with openNext := s.line.openNext.tail, handle := some path }
          seq := { s.seq with life := .operating }
          result := .done })
      ∧ (∀ r, s.line.openNext = false :: r → exec (.seqOpen path) s = .next { s with
          line := { s.line with openNext := r }
          result := .err .connection }))
    ∧ (s.seq.life = .operating → exec .seqClose s = .next { s with
        line := { s.line with held := [], handle := none, releases := s.line.releases + 1 }
        seq := { s.seq with life := .closed }
        result := .done })
    ∧ (s.seq.life = .closed → exec .seqClose s = .next { s with result := .done })

/-- R170, U2, U8, U9: what is outside the specification is refused by name. The sequences but SEQ_OPEN and SEQ_CLOSE
refuse while LIFE = L_CLOSED, SEQ_OPEN while it is L_OPERATING; every sequence refuses while the client waits in another
call; and an operation that would begin a second invocation refuses. -/
def Obligations.UseOutOfOrderIsRefused : Prop :=
  ∀ s : State,
    (s.seq.life = .closed →
      (∀ a1 a2 a3 a4 a5 a6 t, exec (.seqWriteAll a1 a2 a3 a4 a5 a6 t) s = .refused .lifeClosed)
      ∧ (∀ id a t, exec (.seqWriteOne id a t) s = .refused .lifeClosed)
      ∧ (∀ on, exec (.seqSetTorque on) s = .refused .lifeClosed)
      ∧ (∀ id, exec (.seqPing id) s = .refused .lifeClosed)
      ∧ (∀ id, exec (.seqReadAngle id) s = .refused .lifeClosed))
    ∧ (s.seq.life = .operating → ∀ path, exec (.seqOpen path) s = .refused .lifeOperating)
    ∧ (s.seq.life = .operating → s.call ≠ .none →
      (∀ a1 a2 a3 a4 a5 a6 t, exec (.seqWriteAll a1 a2 a3 a4 a5 a6 t) s = .refused .clientBusy)
      ∧ (∀ id a t, exec (.seqWriteOne id a t) s = .refused .clientBusy)
      ∧ (∀ on, exec (.seqSetTorque on) s = .refused .clientBusy)
      ∧ (∀ id, exec (.seqPing id) s = .refused .clientBusy)
      ∧ (∀ id, exec (.seqReadAngle id) s = .refused .clientBusy)
      ∧ exec .seqClose s = .refused .clientBusy)
    ∧ (s.seq.life = .closed → s.call ≠ .none →
      exec .seqClose s = .refused .clientBusy ∧ ∀ path, exec (.seqOpen path) s = .refused .clientBusy)
    ∧ (s.asm.st ≠ .idle → exec .decode s = .refused .decodeRunning
      ∧ (Ready s → (∀ id : Int, 1 ≤ id → id ≤ 250 → exec (.seqPing id) s = .refused .decodeRunning)
        ∧ (∀ id : Int, 1 ≤ id → id ≤ 6 → exec (.seqReadAngle id) s = .refused .decodeRunning)))

/-- R171, R192: six valid angles are written as one bulk frame; any invalid one and nothing is written. The frame of the
statement, the map outputs and ENC as before although TO_POSITION and ENCODE are used, is the model's reading (log entries
23 and 12); where TxWrite's answers are used up the frame is taken whole (log entry 5). That it runs also while an
invocation begun by a bare RX_START runs is the model's choice beside R51(d) (log entry 31). -/
def Obligations.WriteAllIsAtomic : Prop :=
  ∀ (a1 a2 a3 a4 a5 a6 time : Half) (s : State), Ready s →
    let valid := InRange 1 a1 ∧ InRange 2 a2 ∧ InRange 3 a3 ∧ InRange 4 a4 ∧ InRange 5 a5 ∧ InRange 6 a6
    let frame := framed [0xFF#8, 0xFC#8, 0x11#8, 0x1D#8,
      hiByte (positionOf 1 a1), loByte (positionOf 1 a1), hiByte (positionOf 2 a2), loByte (positionOf 2 a2),
      hiByte (positionOf 3 a3), loByte (positionOf 3 a3), hiByte (positionOf 4 a4), loByte (positionOf 4 a4),
      hiByte (positionOf 5 a5), loByte (positionOf 5 a5), hiByte (positionOf 6 a6), loByte (positionOf 6 a6),
      hiByte time, loByte time]
    (valid → ∃ l, Written frame s.line l
      ∧ exec (.seqWriteAll a1 a2 a3 a4 a5 a6 time) s = .next { s with line := l, result := .done })
    ∧ (¬ valid → exec (.seqWriteAll a1 a2 a3 a4 a5 a6 time) s = .next { s with result := .err .rangeAngle })

/-- R172, R192: id 0 is the bulk write of six equal angles; an id above 6 or an invalid angle is refused with nothing
written; else one frame is written. The frame of the statement, the map outputs and ENC as before although TO_POSITION and
ENCODE are used, is the model's reading (log entries 23 and 12); where TxWrite's answers are used up the frame is taken
whole (log entry 5). That it runs also while an invocation begun by a bare RX_START runs is the model's choice beside
R51(d) (log entry 31). -/
def Obligations.WriteOneOrAll : Prop :=
  ∀ (id : Byte) (angle time : Half) (s : State), Ready s →
    let frame := framed [0xFF#8, 0xFC#8, 0x07#8, BitVec.ofNat 8 (0x10 + id.toNat),
      hiByte (positionOf id.toNat angle), loByte (positionOf id.toNat angle), hiByte time, loByte time]
    (id.toNat = 0 → exec (.seqWriteOne id angle time) s
      = exec (.seqWriteAll angle angle angle angle angle angle time) s)
    ∧ (6 < id.toNat → exec (.seqWriteOne id angle time) s = .next { s with result := .err .rangeId })
    ∧ (1 ≤ id.toNat → id.toNat ≤ 6 →
      (InRange id.toNat angle → ∃ l, Written frame s.line l
        ∧ exec (.seqWriteOne id angle time) s = .next { s with line := l, result := .done })
      ∧ (¬ InRange id.toNat angle → exec (.seqWriteOne id angle time) s = .next { s with result := .err .rangeAngle }))

/-- R173: one torque frame is written, and no response awaited. (ENC as before: log entry 12; a frame taken whole where
TxWrite's answers are used up: log entry 5. That it runs also while an invocation begun by a bare RX_START runs is the
model's choice beside R51(d): log entry 31.) -/
def Obligations.SetTorqueWritesOneFrame : Prop :=
  ∀ (on : Bool) (s : State), Ready s →
    ∃ l, Written (framed [0xFF#8, 0xFC#8, 0x04#8, 0x1A#8, if on then s.par.torqueOn else s.par.torqueOff]) s.line l
      ∧ exec (.seqSetTorque on) s = .next { s with line := l, result := .done }

/-- R174: an invalid id is a RangeError before any I/O; a valid one runs one write-and-await cycle of its ping frame, and
where that cycle's decode ends, the code is the first payload byte of its frame, or else 0; with the answers used up it
waits. (The frame taken whole where TxWrite's answers are used up: log entry 5; waiting: log entry 8; ENC as before: log
entry 12.) -/
def Obligations.PingAnswersTheFirstPayloadByte : Prop :=
  ∀ (id : Int) (s : State), Ready s →
    (id < 1 ∨ 250 < id → exec (.seqPing id) s = .next { s with result := .err .rangeId })
    ∧ (1 ≤ id → id ≤ 250 → s.asm.st = .idle → ∃ t l a, exec (.seqPing id) s = .next t
      ∧ Exchanged [0xFF#8, 0xFC#8, 0x04#8, 0x38#8, BitVec.ofNat 8 id.toNat] s.par s.line s.asm l a
      ∧ (a.st = .idle → a.res ≠ .rNone ∧ t = { s with
          asm := a
          line := l
          result := .code (if a.res = .rOk then (payloadOf a).headD 0#8 else 0#8) })
      ∧ (a.st ≠ .idle → answers l = [] ∧ t = { s with asm := a, line := l, call := .ping, result := .pending })
      ∧ SameOutside s t)

/-- R176, R206: an invalid id is -1 with nothing written; a valid one runs a write-and-await cycle, which waits, or
returns the judgement of its frame, or fails and leads to a second, after whose failure -1 is returned; an angle is 0 to
270. Each cycle discards the unread bytes under FLUSH_BEFORE_COMMAND and writes its command as the transport answers,
whole where TxWrite's answers are used up (log entry 5). Waiting is log entry 8; that the map outputs and ENC stay as they
are although TO_ANGLE and ENCODE are used is the model's reading (log entries 23 and 12). -/
def Obligations.ReadAngleReturnsAnAngleOrTheSentinel : Prop :=
  ∀ (id : Int) (s : State), Ready s →
    (id < 1 ∨ 6 < id → exec (.seqReadAngle id) s = .next { s with result := .degrees (-1) })
    ∧ (1 ≤ id → id ≤ 6 → s.asm.st = .idle → ∃ t, exec (.seqReadAngle id) s = .next t
      ∧ SameOutside s t ∧ 1 ≤ t.seq.att ∧ t.seq.att ≤ 2
      ∧ ((t.asm.st = .idle ∧ t.call = .none ∧ ∃ d, t.result = .degrees d ∧ -1 ≤ d ∧ d ≤ 270)
        ∨ (t.asm.st ≠ .idle ∧ t.call = .readAngle (BitVec.ofNat 8 id.toNat) ∧ t.result = .pending
            ∧ answers t.line = []))
      ∧ ∃ l a, Exchanged (readCommand (BitVec.ofNat 8 id.toNat)) s.par s.line s.asm l a
        ∧ (a.st ≠ .idle → t = { s with
            asm := a
            line := l
            seq := { s.seq with att := 1 }
            call := .readAngle (BitVec.ofNat 8 id.toNat)
            result := .pending })
        ∧ (a.st = .idle → a.res = .rOk → t = { s with
            asm := a
            line := l
            seq := { s.seq with att := 1 }
            result := .degrees (angleRead s.par (BitVec.ofNat 8 id.toNat) a.rtype (payloadOf a)) })
        ∧ (a.st = .idle → a.res ≠ .rOk → SecondCycle (BitVec.ofNat 8 id.toNat) s l a (.next t)))

/-- R176, D29: a frame that decodes in the first cycle settles the result: the type, then the payload's length, then the
conversion of the position; there is no second cycle. Without a limit, with nothing discarded before the command and with
the command taken whole (log entry 5, where the list of answers is used up); `ReadAngleReturnsAnAngleOrTheSentinel` has the
other settings. That the map outputs and ENC stay as they are is the model's reading (log entries 23 and 12). -/
def Obligations.ReadAngleJudgesTheFirstDecodedFrame : Prop :=
  ∀ (s : State) (id : Nat) (len type : Byte) (p : List Byte) (rest : List RxAnswer), Ready s → s.asm.st = .idle →
    1 ≤ id → id ≤ 6 → s.par.overallLimit = none → s.par.flushBeforeCommand = false → s.line.txNext = [] →
    3 ≤ len.toNat → p.length = len.toNat - 3 →
    answers s.line = (incomingFrame len type p).map RxAnswer.byte ++ rest →
    ∃ a, exec (.seqReadAngle id) s = .next { s with
        asm := a
        line := { answered (p.length + 5) s.line with
          tx := s.line.tx ++ framed [0xFF#8, 0xFC#8, 0x03#8, BitVec.ofNat 8 (0x30 + id)] }
        seq := { s.seq with att := 1 }
        result := .degrees (angleRead s.par (BitVec.ofNat 8 id) type p) }
      ∧ answers (answered (p.length + 5) s.line) = rest
      ∧ a.st = .idle ∧ a.res = .rOk ∧ a.rlen = len ∧ a.rtype = type ∧ payloadOf a = p

/-- R176, R242: against a transport that answers NoData twice, two commands are written, both invocations time out, and
-1 is returned; the bytes held meanwhile stay unread unless FLUSH_BEFORE_COMMAND discards them. (The commands taken whole
where TxWrite's answers are used up: log entry 5; ENC as before: log entry 12.) -/
def Obligations.ReadAngleGivesUpAfterTwoSilentCycles : Prop :=
  ∀ (s : State) (id : Nat) (rest : List RxAnswer), Ready s → s.asm.st = .idle → 1 ≤ id → id ≤ 6 →
    s.line.txNext = [] → s.line.next = .noData :: .noData :: rest →
    let f := framed [0xFF#8, 0xFC#8, 0x03#8, BitVec.ofNat 8 (0x30 + id)]
    exec (.seqReadAngle id) s = .next { s with
      asm := { s.asm with st := .idle, res := .rTimeout, ncons := 0 }
      line := { s.line with
        next := rest
        held := if s.par.flushBeforeCommand then [] else s.line.held
        tx := s.line.tx ++ f ++ f }
      seq := { s.seq with att := 2 }
      result := .degrees (-1) }
end

