-- ==== Sys2Proof/Laws/State.lean ====
section
/-! SUPPORT. What each named update leaves of each field: one lemma per field per update, true by `rfl`, so that no later
proof unfolds a record update. -/

namespace Sys2Proof.Machine

@[simp] theorem maxPayload_eq : maxPayload = 252 := rfl
@[simp] theorem lenOverhead_eq : lenOverhead = 2 := rfl

/-! ### State.give -/

@[simp] theorem State.give_enc (r : Result) (s : State) : (s.give r).enc = s.enc := rfl
@[simp] theorem State.give_asm (r : Result) (s : State) : (s.give r).asm = s.asm := rfl
@[simp] theorem State.give_map (r : Result) (s : State) : (s.give r).map = s.map := rfl
@[simp] theorem State.give_seq (r : Result) (s : State) : (s.give r).seq = s.seq := rfl
@[simp] theorem State.give_line (r : Result) (s : State) : (s.give r).line = s.line := rfl
@[simp] theorem State.give_par (r : Result) (s : State) : (s.give r).par = s.par := rfl
@[simp] theorem State.give_inbox (r : Result) (s : State) : (s.give r).inbox = s.inbox := rfl
@[simp] theorem State.give_call (r : Result) (s : State) : (s.give r).call = s.call := rfl
@[simp] theorem State.give_result (r : Result) (s : State) : (s.give r).result = r := rfl
@[simp] theorem State.give_fresh (r : Result) (s : State) : (s.give r).fresh = s.fresh := rfl

/-! ### State.ret -/

@[simp] theorem State.ret_enc (r : Result) (s : State) : (s.ret r).enc = s.enc := rfl
@[simp] theorem State.ret_asm (r : Result) (s : State) : (s.ret r).asm = s.asm := rfl
@[simp] theorem State.ret_map (r : Result) (s : State) : (s.ret r).map = s.map := rfl
@[simp] theorem State.ret_seq (r : Result) (s : State) : (s.ret r).seq = s.seq := rfl
@[simp] theorem State.ret_line (r : Result) (s : State) : (s.ret r).line = s.line := rfl
@[simp] theorem State.ret_par (r : Result) (s : State) : (s.ret r).par = s.par := rfl
@[simp] theorem State.ret_inbox (r : Result) (s : State) : (s.ret r).inbox = s.inbox := rfl
@[simp] theorem State.ret_call (r : Result) (s : State) : (s.ret r).call = .none := rfl
@[simp] theorem State.ret_result (r : Result) (s : State) : (s.ret r).result = r := rfl
@[simp] theorem State.ret_fresh (r : Result) (s : State) : (s.ret r).fresh = s.fresh := rfl

/-! ### State.wait -/

@[simp] theorem State.wait_enc (c : Call) (s : State) : (s.wait c).enc = s.enc := rfl
@[simp] theorem State.wait_asm (c : Call) (s : State) : (s.wait c).asm = s.asm := rfl
@[simp] theorem State.wait_map (c : Call) (s : State) : (s.wait c).map = s.map := rfl
@[simp] theorem State.wait_seq (c : Call) (s : State) : (s.wait c).seq = s.seq := rfl
@[simp] theorem State.wait_line (c : Call) (s : State) : (s.wait c).line = s.line := rfl
@[simp] theorem State.wait_par (c : Call) (s : State) : (s.wait c).par = s.par := rfl
@[simp] theorem State.wait_inbox (c : Call) (s : State) : (s.wait c).inbox = s.inbox := rfl
@[simp] theorem State.wait_call (c : Call) (s : State) : (s.wait c).call = c := rfl
@[simp] theorem State.wait_result (c : Call) (s : State) : (s.wait c).result = .pending := rfl
@[simp] theorem State.wait_fresh (c : Call) (s : State) : (s.wait c).fresh = s.fresh := rfl

/-! ### State.fail -/

@[simp] theorem State.fail_enc (c : Cause) (s : State) : (s.fail c).enc = s.enc := rfl
@[simp] theorem State.fail_asm (c : Cause) (s : State) : (s.fail c).asm = s.asm := rfl
@[simp] theorem State.fail_map (c : Cause) (s : State) : (s.fail c).map = s.map := rfl
@[simp] theorem State.fail_seq (c : Cause) (s : State) : (s.fail c).seq = s.seq := rfl
@[simp] theorem State.fail_line (c : Cause) (s : State) : (s.fail c).line = s.line := rfl
@[simp] theorem State.fail_par (c : Cause) (s : State) : (s.fail c).par = s.par := rfl
@[simp] theorem State.fail_inbox (c : Cause) (s : State) : (s.fail c).inbox = s.inbox := rfl
@[simp] theorem State.fail_call (c : Cause) (s : State) : (s.fail c).call = s.call := rfl
@[simp] theorem State.fail_result (c : Cause) (s : State) : (s.fail c).result = .err c := rfl
@[simp] theorem State.fail_fresh (c : Cause) (s : State) : (s.fail c).fresh = s.fresh := rfl

/-! ### State.withLine -/

@[simp] theorem State.withLine_enc (l : Line) (s : State) : (s.withLine l).enc = s.enc := rfl
@[simp] theorem State.withLine_asm (l : Line) (s : State) : (s.withLine l).asm = s.asm := rfl
@[simp] theorem State.withLine_map (l : Line) (s : State) : (s.withLine l).map = s.map := rfl
@[simp] theorem State.withLine_seq (l : Line) (s : State) : (s.withLine l).seq = s.seq := rfl
@[simp] theorem State.withLine_line (l : Line) (s : State) : (s.withLine l).line = l := rfl
@[simp] theorem State.withLine_par (l : Line) (s : State) : (s.withLine l).par = s.par := rfl
@[simp] theorem State.withLine_inbox (l : Line) (s : State) : (s.withLine l).inbox = s.inbox := rfl
@[simp] theorem State.withLine_call (l : Line) (s : State) : (s.withLine l).call = s.call := rfl
@[simp] theorem State.withLine_result (l : Line) (s : State) : (s.withLine l).result = s.result := rfl
@[simp] theorem State.withLine_fresh (l : Line) (s : State) : (s.withLine l).fresh = s.fresh := rfl

/-! ### State.withAsm -/

@[simp] theorem State.withAsm_enc (a : Asm) (s : State) : (s.withAsm a).enc = s.enc := rfl
@[simp] theorem State.withAsm_asm (a : Asm) (s : State) : (s.withAsm a).asm = a := rfl
@[simp] theorem State.withAsm_map (a : Asm) (s : State) : (s.withAsm a).map = s.map := rfl
@[simp] theorem State.withAsm_seq (a : Asm) (s : State) : (s.withAsm a).seq = s.seq := rfl
@[simp] theorem State.withAsm_line (a : Asm) (s : State) : (s.withAsm a).line = s.line := rfl
@[simp] theorem State.withAsm_par (a : Asm) (s : State) : (s.withAsm a).par = s.par := rfl
@[simp] theorem State.withAsm_inbox (a : Asm) (s : State) : (s.withAsm a).inbox = s.inbox := rfl
@[simp] theorem State.withAsm_call (a : Asm) (s : State) : (s.withAsm a).call = s.call := rfl
@[simp] theorem State.withAsm_result (a : Asm) (s : State) : (s.withAsm a).result = s.result := rfl
@[simp] theorem State.withAsm_fresh (a : Asm) (s : State) : (s.withAsm a).fresh = s.fresh := rfl

/-! ### State.withEnc -/

@[simp] theorem State.withEnc_enc (e : Enc) (s : State) : (s.withEnc e).enc = e := rfl
@[simp] theorem State.withEnc_asm (e : Enc) (s : State) : (s.withEnc e).asm = s.asm := rfl
@[simp] theorem State.withEnc_map (e : Enc) (s : State) : (s.withEnc e).map = s.map := rfl
@[simp] theorem State.withEnc_seq (e : Enc) (s : State) : (s.withEnc e).seq = s.seq := rfl
@[simp] theorem State.withEnc_line (e : Enc) (s : State) : (s.withEnc e).line = s.line := rfl
@[simp] theorem State.withEnc_par (e : Enc) (s : State) : (s.withEnc e).par = s.par := rfl
@[simp] theorem State.withEnc_inbox (e : Enc) (s : State) : (s.withEnc e).inbox = s.inbox := rfl
@[simp] theorem State.withEnc_call (e : Enc) (s : State) : (s.withEnc e).call = s.call := rfl
@[simp] theorem State.withEnc_result (e : Enc) (s : State) : (s.withEnc e).result = s.result := rfl
@[simp] theorem State.withEnc_fresh (e : Enc) (s : State) : (s.withEnc e).fresh = s.fresh := rfl

/-! ### State.withSeq -/

@[simp] theorem State.withSeq_enc (q : Seq) (s : State) : (s.withSeq q).enc = s.enc := rfl
@[simp] theorem State.withSeq_asm (q : Seq) (s : State) : (s.withSeq q).asm = s.asm := rfl
@[simp] theorem State.withSeq_map (q : Seq) (s : State) : (s.withSeq q).map = s.map := rfl
@[simp] theorem State.withSeq_seq (q : Seq) (s : State) : (s.withSeq q).seq = q := rfl
@[simp] theorem State.withSeq_line (q : Seq) (s : State) : (s.withSeq q).line = s.line := rfl
@[simp] theorem State.withSeq_par (q : Seq) (s : State) : (s.withSeq q).par = s.par := rfl
@[simp] theorem State.withSeq_inbox (q : Seq) (s : State) : (s.withSeq q).inbox = s.inbox := rfl
@[simp] theorem State.withSeq_call (q : Seq) (s : State) : (s.withSeq q).call = s.call := rfl
@[simp] theorem State.withSeq_result (q : Seq) (s : State) : (s.withSeq q).result = s.result := rfl
@[simp] theorem State.withSeq_fresh (q : Seq) (s : State) : (s.withSeq q).fresh = s.fresh := rfl

/-! ### State.withMap -/

@[simp] theorem State.withMap_enc (m : MapOut) (s : State) : (s.withMap m).enc = s.enc := rfl
@[simp] theorem State.withMap_asm (m : MapOut) (s : State) : (s.withMap m).asm = s.asm := rfl
@[simp] theorem State.withMap_map (m : MapOut) (s : State) : (s.withMap m).map = m := rfl
@[simp] theorem State.withMap_seq (m : MapOut) (s : State) : (s.withMap m).seq = s.seq := rfl
@[simp] theorem State.withMap_line (m : MapOut) (s : State) : (s.withMap m).line = s.line := rfl
@[simp] theorem State.withMap_par (m : MapOut) (s : State) : (s.withMap m).par = s.par := rfl
@[simp] theorem State.withMap_inbox (m : MapOut) (s : State) : (s.withMap m).inbox = s.inbox := rfl
@[simp] theorem State.withMap_call (m : MapOut) (s : State) : (s.withMap m).call = s.call := rfl
@[simp] theorem State.withMap_result (m : MapOut) (s : State) : (s.withMap m).result = s.result := rfl
@[simp] theorem State.withMap_fresh (m : MapOut) (s : State) : (s.withMap m).fresh = s.fresh := rfl

/-! ### State.draw -/

@[simp] theorem State.draw_enc (s : State) : (s.draw).enc = s.enc := rfl
@[simp] theorem State.draw_asm (s : State) : (s.draw).asm = s.asm := rfl
@[simp] theorem State.draw_map (s : State) : (s.draw).map = s.map := rfl
@[simp] theorem State.draw_seq (s : State) : (s.draw).seq = s.seq := rfl
@[simp] theorem State.draw_line (s : State) : (s.draw).line = s.line := rfl
@[simp] theorem State.draw_par (s : State) : (s.draw).par = s.par := rfl
@[simp] theorem State.draw_inbox (s : State) : (s.draw).inbox = s.inbox := rfl
@[simp] theorem State.draw_call (s : State) : (s.draw).call = s.call := rfl
@[simp] theorem State.draw_result (s : State) : (s.draw).result = s.result := rfl
@[simp] theorem State.draw_fresh (s : State) : (s.draw).fresh = s.fresh + 1 := rfl

/-! ### Asm.start -/

@[simp] theorem Asm.start_st (a : Asm) : (a.start).st = .hunt := rfl
@[simp] theorem Asm.start_rlen (a : Asm) : (a.start).rlen = a.rlen := rfl
@[simp] theorem Asm.start_rtype (a : Asm) : (a.start).rtype = a.rtype := rfl
@[simp] theorem Asm.start_rem (a : Asm) : (a.start).rem = a.rem := rfl
@[simp] theorem Asm.start_sum (a : Asm) : (a.start).sum = a.sum := rfl
@[simp] theorem Asm.start_pbuf (a : Asm) : (a.start).pbuf = a.pbuf := rfl
@[simp] theorem Asm.start_pcnt (a : Asm) : (a.start).pcnt = a.pcnt := rfl
@[simp] theorem Asm.start_res (a : Asm) : (a.start).res = .rNone := rfl
@[simp] theorem Asm.start_ncons (a : Asm) : (a.start).ncons = 0 := rfl

/-! ### Asm.finish -/

@[simp] theorem Asm.finish_st (r : RxResult) (a : Asm) : (a.finish r).st = .idle := rfl
@[simp] theorem Asm.finish_rlen (r : RxResult) (a : Asm) : (a.finish r).rlen = a.rlen := rfl
@[simp] theorem Asm.finish_rtype (r : RxResult) (a : Asm) : (a.finish r).rtype = a.rtype := rfl
@[simp] theorem Asm.finish_rem (r : RxResult) (a : Asm) : (a.finish r).rem = a.rem := rfl
@[simp] theorem Asm.finish_sum (r : RxResult) (a : Asm) : (a.finish r).sum = a.sum := rfl
@[simp] theorem Asm.finish_pbuf (r : RxResult) (a : Asm) : (a.finish r).pbuf = a.pbuf := rfl
@[simp] theorem Asm.finish_pcnt (r : RxResult) (a : Asm) : (a.finish r).pcnt = a.pcnt := rfl
@[simp] theorem Asm.finish_res (r : RxResult) (a : Asm) : (a.finish r).res = r := rfl
@[simp] theorem Asm.finish_ncons (r : RxResult) (a : Asm) : (a.finish r).ncons = a.ncons := rfl

/-! ### Line.arrive -/

@[simp] theorem Line.arrive_held (b : Byte) (l : Line) : (l.arrive b).held = l.held ++ [b] := rfl
@[simp] theorem Line.arrive_next (b : Byte) (l : Line) : (l.arrive b).next = l.next := rfl
@[simp] theorem Line.arrive_tx (b : Byte) (l : Line) : (l.arrive b).tx = l.tx := rfl
@[simp] theorem Line.arrive_txNext (b : Byte) (l : Line) : (l.arrive b).txNext = l.txNext := rfl
@[simp] theorem Line.arrive_openNext (b : Byte) (l : Line) : (l.arrive b).openNext = l.openNext := rfl
@[simp] theorem Line.arrive_handle (b : Byte) (l : Line) : (l.arrive b).handle = l.handle := rfl
@[simp] theorem Line.arrive_releases (b : Byte) (l : Line) : (l.arrive b).releases = l.releases := rfl
@[simp] theorem Line.arrive_reports (b : Byte) (l : Line) : (l.arrive b).reports = l.reports := rfl

/-! ### Line.handOver -/

@[simp] theorem Line.handOver_held (b : Byte) (l : Line) : (l.handOver b).held = dropUnread b l.held := rfl
@[simp] theorem Line.handOver_next (b : Byte) (l : Line) : (l.handOver b).next = l.next := rfl
@[simp] theorem Line.handOver_tx (b : Byte) (l : Line) : (l.handOver b).tx = l.tx := rfl
@[simp] theorem Line.handOver_txNext (b : Byte) (l : Line) : (l.handOver b).txNext = l.txNext := rfl
@[simp] theorem Line.handOver_openNext (b : Byte) (l : Line) : (l.handOver b).openNext = l.openNext := rfl
@[simp] theorem Line.handOver_handle (b : Byte) (l : Line) : (l.handOver b).handle = l.handle := rfl
@[simp] theorem Line.handOver_releases (b : Byte) (l : Line) : (l.handOver b).releases = l.releases := rfl
@[simp] theorem Line.handOver_reports (b : Byte) (l : Line) : (l.handOver b).reports = l.reports := rfl

/-! ### Line.accept -/

@[simp] theorem Line.accept_held (k : Nat) (f : List Byte) (l : Line) : (l.accept k f).held = l.held := rfl
@[simp] theorem Line.accept_next (k : Nat) (f : List Byte) (l : Line) : (l.accept k f).next = l.next := rfl
@[simp] theorem Line.accept_tx (k : Nat) (f : List Byte) (l : Line) : (l.accept k f).tx = l.tx ++ f.take k := rfl
@[simp] theorem Line.accept_txNext (k : Nat) (f : List Byte) (l : Line) : (l.accept k f).txNext = l.txNext := rfl
@[simp] theorem Line.accept_openNext (k : Nat) (f : List Byte) (l : Line) :
    (l.accept k f).openNext = l.openNext := rfl
@[simp] theorem Line.accept_handle (k : Nat) (f : List Byte) (l : Line) : (l.accept k f).handle = l.handle := rfl
@[simp] theorem Line.accept_releases (k : Nat) (f : List Byte) (l : Line) :
    (l.accept k f).releases = l.releases := rfl
@[simp] theorem Line.accept_reports (k : Nat) (f : List Byte) (l : Line) :
    (l.accept k f).reports = if k < f.length then l.reports ++ [.partialWrite k f.length] else l.reports := rfl

/-! ### Line.flush -/

@[simp] theorem Line.flush_held (l : Line) : (l.flush).held = [] := rfl
@[simp] theorem Line.flush_next (l : Line) : (l.flush).next = l.next := rfl
@[simp] theorem Line.flush_tx (l : Line) : (l.flush).tx = l.tx := rfl
@[simp] theorem Line.flush_txNext (l : Line) : (l.flush).txNext = l.txNext := rfl
@[simp] theorem Line.flush_openNext (l : Line) : (l.flush).openNext = l.openNext := rfl
@[simp] theorem Line.flush_handle (l : Line) : (l.flush).handle = l.handle := rfl
@[simp] theorem Line.flush_releases (l : Line) : (l.flush).releases = l.releases := rfl
@[simp] theorem Line.flush_reports (l : Line) : (l.flush).reports = l.reports := rfl

/-! ### Line.release -/

@[simp] theorem Line.release_held (l : Line) : (l.release).held = [] := rfl
@[simp] theorem Line.release_next (l : Line) : (l.release).next = l.next := rfl
@[simp] theorem Line.release_tx (l : Line) : (l.release).tx = l.tx := rfl
@[simp] theorem Line.release_txNext (l : Line) : (l.release).txNext = l.txNext := rfl
@[simp] theorem Line.release_openNext (l : Line) : (l.release).openNext = l.openNext := rfl
@[simp] theorem Line.release_handle (l : Line) : (l.release).handle = none := rfl
@[simp] theorem Line.release_releases (l : Line) : (l.release).releases = l.releases + 1 := rfl
@[simp] theorem Line.release_reports (l : Line) : (l.release).reports = l.reports := rfl

/-! ### Enc.start -/

@[simp] theorem Enc.start_tst (e : Enc) : (e.start).tst = .busy := rfl
@[simp] theorem Enc.start_tsum (e : Enc) : (e.start).tsum = 5#8 := rfl
@[simp] theorem Enc.start_out (e : Enc) : (e.start).out = [] := rfl

/-! ### Enc.byte -/

@[simp] theorem Enc.byte_tst (b : Byte) (e : Enc) : (e.byte b).tst = e.tst := rfl
@[simp] theorem Enc.byte_tsum (b : Byte) (e : Enc) : (e.byte b).tsum = e.tsum + b := rfl
@[simp] theorem Enc.byte_out (b : Byte) (e : Enc) : (e.byte b).out = e.out ++ [b] := rfl

/-! ### Enc.stop -/

@[simp] theorem Enc.stop_tst (e : Enc) : (e.stop).tst = .idle := rfl
@[simp] theorem Enc.stop_tsum (e : Enc) : (e.stop).tsum = e.tsum := rfl
@[simp] theorem Enc.stop_out (e : Enc) : (e.stop).out = e.out ++ [e.tsum] := rfl

end Sys2Proof.Machine
end

