-- ==== Sys2Proof/Laws/Bytes.lean ====
section
/-! SUPPORT. Bytes, sums and checksums: the model's operations on operands meet the formulas of R8, R45, R65, R90 and
R100 in the terms the claims use. -/

namespace Sys2Proof.Machine

open Sys2Proof.Claims

/-! ### Sixteen-bit fields (R45, R65) -/

theorem hi8_eq_hiByte (v : Half) : hi8 v = hiByte v := by
  apply BitVec.eq_of_toNat_eq
  simp only [hi8, hiByte, BitVec.extractLsb'_toNat, BitVec.toNat_ofNat, Nat.shiftRight_eq_div_pow]

theorem lo8_eq_loByte (v : Half) : lo8 v = loByte v := by
  apply BitVec.eq_of_toNat_eq
  simp only [lo8, loByte, BitVec.extractLsb'_toNat, BitVec.toNat_ofNat, Nat.shiftRight_zero]
  omega

theorem bytes16_eq (v : Half) : bytes16 v = [hiByte v, loByte v] := by
  rw [bytes16, hi8_eq_hiByte, lo8_eq_loByte]

theorem be16_toNat (a b : Byte) : (be16 a b).toNat = 256 * a.toNat + b.toNat := by
  have hb := b.isLt
  simp only [be16, BitVec.toNat_append]
  rw [← Nat.shiftLeft_add_eq_or_of_lt hb, Nat.shiftLeft_eq]
  omega

theorem be16_eq (a b : Byte) : be16 a b = BitVec.ofNat 16 (256 * a.toNat + b.toNat) := by
  have ha := a.isLt
  have hb := b.isLt
  apply BitVec.eq_of_toNat_eq
  rw [be16_toNat, BitVec.toNat_ofNat, Nat.mod_eq_of_lt]
  omega

/-- Taking a 16-bit value apart and putting it together again gives it back. -/
theorem be16_hi8_lo8 (v : Half) : be16 (hi8 v) (lo8 v) = v := by
  have hv := v.isLt
  apply BitVec.eq_of_toNat_eq
  rw [be16_toNat, hi8_eq_hiByte, lo8_eq_loByte, hiByte, loByte, BitVec.toNat_ofNat, BitVec.toNat_ofNat]
  omega

theorem bytes16_be16 (a b : Byte) : bytes16 (be16 a b) = [a, b] := by
  have ha := a.isLt
  have hb := b.isLt
  have e1 : hi8 (be16 a b) = a := by
    apply BitVec.eq_of_toNat_eq
    rw [hi8_eq_hiByte, hiByte, BitVec.toNat_ofNat, be16_toNat]
    omega
  have e2 : lo8 (be16 a b) = b := by
    apply BitVec.eq_of_toNat_eq
    rw [lo8_eq_loByte, loByte, BitVec.toNat_ofNat, be16_toNat]
    omega
  rw [bytes16, e1, e2]

/-! ### Sums and checksums (R8, R90, R91, R100) -/

@[simp] theorem sumBytes_nil : sumBytes [] = 0 := rfl

@[simp] theorem sumBytes_cons (b : Byte) (s : List Byte) : sumBytes (b :: s) = b.toNat + sumBytes s := rfl

@[simp] theorem sumBytes_append (s t : List Byte) : sumBytes (s ++ t) = sumBytes s + sumBytes t := by
  induction s with
  | nil => simp
  | cons b s ih => simp [ih]; omega

theorem sumBytes_eq_byteSum (s : List Byte) : sumBytes s = byteSum s := by
  induction s with
  | nil => rfl
  | cons b s ih => simp [byteSum, ih]

theorem ofNat_mod_byte (n : Nat) : BitVec.ofNat 8 (n % 256) = BitVec.ofNat 8 n := by
  apply BitVec.eq_of_toNat_eq
  simp [BitVec.toNat_ofNat]

/-- Two bytes given as naturals mod 256 are equal just when the residues are. -/
theorem ofNat_byte_eq (m n : Nat) : (BitVec.ofNat 8 m = BitVec.ofNat 8 n) ↔ m % 256 = n % 256 := by
  constructor
  · intro h
    simpa [BitVec.toNat_ofNat] using congrArg BitVec.toNat h
  · intro h
    apply BitVec.eq_of_toNat_eq
    simpa [BitVec.toNat_ofNat] using h

theorem chkOut_toNat (s : List Byte) : (chkOut s).toNat = (5 + sumBytes s) % 256 := by
  simp [chkOut, chkSeedTx]

theorem chkIn_toNat (len type : Byte) (p : List Byte) :
    (chkIn len type p).toNat = (len.toNat + type.toNat + sumBytes p) % 256 := by
  simp [chkIn]

theorem chkIn_eq_incomingChecksum (len type : Byte) (p : List Byte) :
    chkIn len type p = incomingChecksum len type p := by
  rw [chkIn, incomingChecksum, ofNat_mod_byte, sumBytes_eq_byteSum]

theorem encodeFrameBytes_eq_framed (cmd : List Byte) : encodeFrameBytes cmd = framed cmd := by
  rw [encodeFrameBytes, framed, chkOut, chkSeedTx, ofNat_mod_byte, sumBytes_eq_byteSum]

@[simp] theorem framed_length (cmd : List Byte) : (framed cmd).length = cmd.length + 1 := by
  simp [framed]

theorem addByte_toNat (a b : Byte) : (addByte a b).toNat = (a.toNat + b.toNat) % 256 := by
  simp [addByte, BitVec.toNat_add]

theorem addByte_eq (a b : Byte) : addByte a b = BitVec.ofNat 8 ((a.toNat + b.toNat) % 256) := by
  apply BitVec.eq_of_toNat_eq
  simp [addByte_toNat]

/-- The outgoing header and the seed cancel mod 256 (R6). -/
theorem header_devIdTx_seed : (header.toNat + devIdTx.toNat + chkSeedTx) % 256 = 0 := by decide

/-- A command frame's checksum is the plain sum of what follows its header (R6, R93). -/
theorem chkOut_header (s : List Byte) : chkOut (header :: devIdTx :: s) = BitVec.ofNat 8 (sumBytes s) := by
  have h := header_devIdTx_seed
  rw [chkOut, ofNat_byte_eq]
  simp only [sumBytes_cons]
  omega

/-- One more byte at the end (R90, corner case). -/
theorem chkOut_append_singleton (s : List Byte) (b : Byte) : chkOut (s ++ [b]) = addByte (chkOut s) b := by
  apply BitVec.eq_of_toNat_eq
  rw [addByte_toNat, chkOut_toNat, chkOut_toNat]
  simp; omega

theorem chkIn_append_singleton (len type : Byte) (p : List Byte) (b : Byte) :
    chkIn len type (p ++ [b]) = addByte (chkIn len type p) b := by
  apply BitVec.eq_of_toNat_eq
  rw [addByte_toNat, chkIn_toNat, chkIn_toNat]
  simp; omega

/-! ### What the checksum does not detect, and what LEN adds (R94) -/

@[simp] theorem sumBytes_replicate_zero (n : Nat) : sumBytes (List.replicate n 0#8) = 0 := by
  induction n with
  | zero => rfl
  | succ n ih => simp [List.replicate_succ, ih]

/-- Zero bytes put in among the summed bytes add nothing. -/
theorem chkOut_insert_zeros (u v : List Byte) (n : Nat) : chkOut (u ++ List.replicate n 0#8 ++ v) = chkOut (u ++ v) := by
  simp [chkOut]

/-- Two changes whose differences cancel mod 256 are not seen. -/
theorem chkOut_cancelling (u v w : List Byte) (b b' c c' : Byte)
    (h : (b.toNat + c.toNat) % 256 = (b'.toNat + c'.toNat) % 256) :
    chkOut (u ++ [b] ++ v ++ [c] ++ w) = chkOut (u ++ [b'] ++ v ++ [c'] ++ w) := by
  simp only [chkOut, ofNat_byte_eq, sumBytes_append, sumBytes_cons, sumBytes_nil]
  omega

/-- Zero payload bytes with LEN adjusted by as many change the checksum by that number, since LEN is itself summed
(R100; log entry 30). -/
theorem chkIn_insert_zeros (len type : Byte) (u v : List Byte) (n : Nat) :
    chkIn (len + BitVec.ofNat 8 n) type (u ++ List.replicate n 0#8 ++ v)
      = addByte (chkIn len type (u ++ v)) (BitVec.ofNat 8 n) := by
  apply BitVec.eq_of_toNat_eq
  rw [addByte_toNat, chkIn_toNat, chkIn_toNat]
  simp [BitVec.toNat_add]
  omega

/-- So, R100 being what it is, no insertion of 1 to 255 zero bytes with LEN adjusted keeps the checksum: R94's clause on
them and R100 exclude each other for every frame (log entry 30). -/
theorem chkIn_insert_zeros_ne (len type : Byte) (u v : List Byte) (n : Nat) (hpos : 0 < n) (hn : n < 256) :
    chkIn (len + BitVec.ofNat 8 n) type (u ++ List.replicate n 0#8 ++ v) ≠ chkIn len type (u ++ v) := by
  rw [chkIn_insert_zeros]
  intro h
  have := congrArg BitVec.toNat h
  rw [addByte_toNat, BitVec.toNat_ofNat] at this
  have := (chkIn len type (u ++ v)).isLt
  omega

/-! ### Ids (R154, R155) -/

/-- A device id within 0 to 255 travels as itself. -/
theorem idByte_toNat (id : Int) (h0 : 0 ≤ id) (h1 : id < 256) : (idByte id).toNat = id.toNat := by
  simp only [idByte, BitVec.toNat_ofInt]
  omega

theorem idByte_eq (id : Int) (h0 : 0 ≤ id) (h1 : id < 256) : idByte id = BitVec.ofNat 8 id.toNat := by
  apply BitVec.eq_of_toNat_eq
  rw [idByte_toNat id h0 h1, BitVec.toNat_ofNat]
  omega

end Sys2Proof.Machine
end

