-- ==== Sys2Proof/Laws/Ops.lean ====
section
/-! SUPPORT. What the shared operations of Machine/Ops.lean and Machine/Calls.lean can do: the transport's primitives,
PBUF, and the answers of a waiting call. -/

namespace Sys2Proof.Machine

open Sys2Proof.Claims

/-! ### TxWrite and opening (R43, R177) -/

/-- Everything one `TxWrite` can do. -/
theorem Line.txWrite_written (f : List Byte) (l : Line) : Written f l (l.txWrite f) := by
  refine ⟨fun h => ?_, fun k r h hk => ?_, fun k r h hk => ?_, fun r h => ?_⟩
  · simp [Line.txWrite, h, Line.accept]
  · simp [Line.txWrite, h, Line.accept, List.take_of_length_le hk, Nat.not_lt.mpr hk]
  · simp [Line.txWrite, h, Line.accept, hk]
  · simp [Line.txWrite, h]

/-- One `TxWrite` leaves the receive side and the handle alone, and only appends. -/
theorem Line.txWrite_frame (f : List Byte) (l : Line) :
    (l.txWrite f).held = l.held ∧ (l.txWrite f).next = l.next ∧ (l.txWrite f).openNext = l.openNext
      ∧ (l.txWrite f).handle = l.handle ∧ (l.txWrite f).releases = l.releases
      ∧ l.tx <+: (l.txWrite f).tx ∧ l.reports <+: (l.txWrite f).reports := by
  unfold Line.txWrite
  split
  · refine ⟨rfl, rfl, rfl, rfl, rfl, by simp, by simp⟩
  · refine ⟨rfl, rfl, rfl, rfl, rfl, by simp, ?_⟩
    rw [Line.accept_reports]
    split <;> simp
  · refine ⟨rfl, rfl, rfl, rfl, rfl, by simp, by simp⟩

@[simp] theorem Line.txWrite_held (f : List Byte) (l : Line) : (l.txWrite f).held = l.held :=
  (l.txWrite_frame f).1

@[simp] theorem Line.txWrite_next (f : List Byte) (l : Line) : (l.txWrite f).next = l.next :=
  (l.txWrite_frame f).2.1

/-- Where the answers to `TxWrite` are used up the frame is taken whole (log entry 5). -/
theorem Line.txWrite_of_nil (f : List Byte) (l : Line) (h : l.txNext = []) :
    l.txWrite f = { l with tx := l.tx ++ f } := (l.txWrite_written f).1 h

/-- A request to open touches nothing but its answer and the handle. -/
theorem Line.askOpen_frame (path : Path) (l : Line) :
    (l.askOpen path).2.held = l.held ∧ (l.askOpen path).2.next = l.next ∧ (l.askOpen path).2.tx = l.tx
      ∧ (l.askOpen path).2.txNext = l.txNext ∧ (l.askOpen path).2.releases = l.releases
      ∧ (l.askOpen path).2.reports = l.reports := by
  unfold Line.askOpen
  split <;> simp

/-! ### PBUF (R16) -/

/-- Below its capacity PBUF takes the byte at PCNT. -/
theorem Asm.storePayload_of_lt (b : Byte) (a : Asm) (h : a.pcnt.toNat < 252) :
    a.storePayload b = .ok { a with pbuf := a.pbuf.set a.pcnt.toNat b h } := by
  simp [Asm.storePayload, h]

/-- At its capacity PBUF has no entry: the store faults. -/
theorem Asm.storePayload_of_ge (b : Byte) (a : Asm) (h : 252 ≤ a.pcnt.toNat) :
    a.storePayload b = .error .pbufIndex := by
  simp [Asm.storePayload, Nat.not_lt.mpr h]

/-- Read after write: the entry written holds the byte, every other entry what it held. -/
theorem Asm.storePayload_get (b : Byte) (a a' : Asm) (h : a.storePayload b = .ok a') (i : Nat) (hi : i < 252) :
    a'.pbuf[i] = if i = a.pcnt.toNat then b else a.pbuf[i] := by
  by_cases hp : a.pcnt.toNat < 252
  · rw [Asm.storePayload_of_lt b a hp] at h
    cases h
    rw [Vector.getElem_set]
    simp only [eq_comm]
  · rw [Asm.storePayload_of_ge b a (by omega)] at h
    cases h

theorem Asm.payload_length (a : Asm) : a.payload.length = min a.pcnt.toNat 252 := by
  simp [Asm.payload]

/-- A stored payload byte, once counted, ends the payload. -/
theorem Asm.payload_set (a : Asm) (b : Byte) (h : a.pcnt.toNat < 252) :
    ({ a with pbuf := a.pbuf.set a.pcnt.toNat b h, pcnt := a.pcnt + 1#8 } : Asm).payload = a.payload ++ [b] := by
  have hp : (a.pcnt + 1#8).toNat = a.pcnt.toNat + 1 := by
    rw [BitVec.toNat_add, BitVec.toNat_ofNat]
    omega
  have hl : a.pcnt.toNat < a.pbuf.toList.length := by simpa using h
  simp only [Asm.payload, hp, Vector.toList_set]
  rw [List.take_add_one, List.take_set_of_le (Nat.le_refl _), List.getElem?_set_self hl]
  rfl

/-! ### The outcome of a computation -/

@[simp] theorem outcome_ok (t : State) : outcome (.ok t) = .next t := rfl

@[simp] theorem outcome_error (e : Fault) : outcome (.error e) = .fault e := rfl

theorem outcome_next_iff {x : Except Fault State} {t : State} : outcome x = .next t ↔ x = .ok t := by
  cases x <;> simp [outcome]

theorem outcome_not_refused {x : Except Fault State} {r : Refusal} : outcome x ≠ .refused r := by
  cases x <;> simp [outcome]

end Sys2Proof.Machine
end

