-- ==== Sys2Proof/Laws/Scan.lean ====
section
/-! SUPPORT. The assembler: what one byte, one answer, and one whole invocation can do, said once. `Following h a` says
what a running or ended invocation that has consumed the bytes `h` looks like; every rule R102 to R109 keeps it, from a
started assembler onwards, whatever stood in the registers before (R26). -/

namespace Sys2Proof.Machine

open Sys2Proof.Claims

/-- What a started assembler that has consumed the bytes `h` knows (R19, R114). -/
structure Asm.Following (h : List Byte) (a : Asm) : Prop where
  running : a.st ≠ .idle → a.res = .rNone
  ended : a.st = .idle → a.res ≠ .rNone
  atId : a.st = .id → ∃ z, h = z ++ [0xFF#8]
  atLen : a.st = .len → ∃ z, h = z ++ [0xFF#8, 0xFB#8]
  atTyp : a.st = .typ → ∃ z, h = z ++ [0xFF#8, 0xFB#8, a.rlen]
  inData : a.st = .data → 3 ≤ a.rlen.toNat ∧ 1 ≤ a.rem.toNat ∧ a.pcnt.toNat + a.rem.toNat = a.rlen.toNat - 2
    ∧ a.sum = chkIn a.rlen a.rtype a.payload ∧ ∃ z, h = z ++ [0xFF#8, 0xFB#8, a.rlen, a.rtype] ++ a.payload
  accepted : a.res = .rOk → a.st = .idle ∧ 3 ≤ a.rlen.toNat ∧ a.pcnt.toNat = a.rlen.toNat - 3
    ∧ ∃ z, h = z ++ incomingFrame a.rlen a.rtype a.payload

theorem Asm.following_start (a : Asm) : a.start.Following [] := by
  constructor <;> simp

theorem Asm.payload_length_of_le {a : Asm} (h : a.pcnt.toNat ≤ 252) : a.payload.length = a.pcnt.toNat := by
  rw [Asm.payload_length]; omega

/-! ### The state rules -/

/-- A payload byte in DATA with `REM > 1` (R107). -/
theorem Asm.payloadRule_following (b : Byte) (a : Asm) (h : List Byte) (hf : a.Following h) (hs : a.st = .data)
    (hr : 1 < a.rem.toNat) :
    ∃ a', a.payloadRule b = .ok a' ∧ a'.Following (h ++ [b]) ∧ a'.st = .data ∧ a'.ncons = a.ncons
      ∧ a'.pcnt.toNat = a.pcnt.toNat + 1 ∧ a'.rem.toNat = a.rem.toNat - 1 ∧ a'.payload = a.payload ++ [b]
      ∧ a'.rlen = a.rlen ∧ a'.rtype = a.rtype ∧ a'.res = a.res := by
  obtain ⟨h3, h1, hsum, hchk, z, hz⟩ := hf.inData hs
  have hl := a.rlen.isLt
  have hp : a.pcnt.toNat < 252 := by omega
  have hpl : (a.pcnt + 1#8).toNat = a.pcnt.toNat + 1 := by
    rw [BitVec.toNat_add, BitVec.toNat_ofNat]; omega
  have hrl : (a.rem - 1#8).toNat = a.rem.toNat - 1 := by
    rw [BitVec.toNat_sub, BitVec.toNat_ofNat]; omega
  have hpay := Asm.payload_set a b hp
  have hpay' : ({ a with pbuf := a.pbuf.set a.pcnt.toNat b hp, pcnt := a.pcnt + 1#8, sum := addByte a.sum b
                         rem := a.rem - 1#8 } : Asm).payload = a.payload ++ [b] := hpay
  have hn : a.res = .rNone := hf.running (by simp [hs])
  refine ⟨{ a with pbuf := a.pbuf.set a.pcnt.toNat b hp, pcnt := a.pcnt + 1#8, sum := addByte a.sum b
                   rem := a.rem - 1#8 }, ?_, ?_, hs, rfl, hpl, hrl, hpay', rfl, rfl, rfl⟩
  · simp [Asm.payloadRule, Asm.storePayload_of_lt b a hp]
  · constructor
    · intro _; exact hn
    · simp [hs]
    · simp [hs]
    · simp [hs]
    · simp [hs]
    · intro _
      refine ⟨h3, ?_, ?_, ?_, z, ?_⟩
      · show 1 ≤ (a.rem - 1#8).toNat
        omega
      · show (a.pcnt + 1#8).toNat + (a.rem - 1#8).toNat = a.rlen.toNat - 2
        omega
      · show addByte a.sum b = chkIn a.rlen a.rtype _
        rw [hpay', chkIn_append_singleton, ← hchk]
      · show h ++ [b] = z ++ [0xFF#8, 0xFB#8, a.rlen, a.rtype] ++ _
        rw [hpay', hz]; simp
    · simp [hn]

/-- The checksum byte in DATA with `REM = 1` (R108). -/
theorem Asm.checksumRule_following (b : Byte) (a : Asm) (h : List Byte) (hf : a.Following h) (hs : a.st = .data)
    (hr : a.rem = 1#8) : (a.checksumRule b).Following (h ++ [b]) := by
  obtain ⟨h3, h1, hsum, hchk, z, hz⟩ := hf.inData hs
  have hn : a.res = .rNone := hf.running (by simp [hs])
  unfold Asm.checksumRule
  split
  · rename_i hb
    constructor <;> try simp
    refine ⟨h3, ?_, z, ?_⟩
    · rw [hr] at hsum
      simp at hsum
      omega
    · show h ++ [b] = z ++ incomingFrame a.rlen a.rtype a.payload
      rw [hz, incomingFrame, ← chkIn_eq_incomingChecksum, ← hchk, hb]
      simp
  · constructor <;> simp [hn]

/-- R102 to R108: from a state of a running invocation the byte's rule applies, and the registers follow. -/
theorem Asm.stateRule_following (p : Params) (b : Byte) (a : Asm) (h : List Byte) (hf : a.Following h)
    (hs : a.st ≠ .idle) :
    ∃ a', Asm.stateRule p b a = .ok a' ∧ a'.Following (h ++ [b]) ∧ a'.ncons = a.ncons
      ∧ (a.pcnt.toNat ≤ 252 → a'.pcnt.toNat ≤ 252) := by
  have hn := hf.running hs
  cases hst : a.st with
  | idle => exact absurd hst hs
  | hunt =>
    refine ⟨a.huntRule b, by simp [Asm.stateRule, hst], ?_, rfl, fun x => x⟩
    by_cases hb : b = header
    · subst hb
      have e : (a.huntRule header) = { a with st := .id } := by simp [Asm.huntRule]
      rw [e]
      constructor <;> simp [hn, header]
    · have e : (a.huntRule b) = { a with st := .hunt } := by simp [Asm.huntRule, hb]
      rw [e]
      constructor <;> simp [hn]
  | id =>
    obtain ⟨z, hz⟩ := hf.atId hst
    refine ⟨a.idRule p b, by simp [Asm.stateRule, hst], ?_, rfl, fun x => x⟩
    by_cases hb : b = devIdRx
    · have e : (a.idRule p b) = { a with st := .len } := by simp [Asm.idRule, hb]
      rw [e]
      constructor <;> simp [hn]
      exact ⟨z, by rw [hz, hb]; simp [devIdRx]⟩
    · by_cases hr : p.rescanIdByte = true ∧ b = header
      · have e : (a.idRule p b) = { a with st := .id } := by simp [Asm.idRule, hr.1, hr.2, header, devIdRx]
        rw [e]
        constructor <;> simp [hn, hr.2, header]
      · have e : (a.idRule p b) = { a with st := .hunt } := by simp [Asm.idRule, hb, hr]
        rw [e]
        constructor <;> simp [hn]
  | len =>
    obtain ⟨z, hz⟩ := hf.atLen hst
    refine ⟨a.lenRule b, by simp [Asm.stateRule, hst], ?_, rfl, fun x => x⟩
    constructor <;> simp [Asm.lenRule, hn]
    exact ⟨z, by rw [hz]; simp⟩
  | typ =>
    obtain ⟨z, hz⟩ := hf.atTyp hst
    by_cases hl : a.rlen.toNat < minLen
    · refine ⟨a.typeInvalidRule b, by simp [Asm.stateRule, hst, hl], ?_, rfl, fun x => x⟩
      constructor <;> simp [Asm.typeInvalidRule]
    · refine ⟨a.typeValidRule b, by simp [Asm.stateRule, hst, hl], ?_, rfl, fun _ => by simp [Asm.typeValidRule]⟩
      have h3 : 3 ≤ a.rlen.toNat := by simp [minLen] at hl; omega
      have hlt := a.rlen.isLt
      have hrem : (a.rlen - 2#8).toNat = a.rlen.toNat - 2 := by
        rw [BitVec.toNat_sub, BitVec.toNat_ofNat]; omega
      constructor <;> simp [Asm.typeValidRule, hn]
      refine ⟨h3, ?_, ?_, ?_, z, ?_⟩
      · omega
      · omega
      · apply BitVec.eq_of_toNat_eq
        rw [addByte_toNat, chkIn_toNat]
        simp [Asm.payload]
      · rw [hz]; simp [Asm.payload]
  | data =>
    obtain ⟨h3, h1, hsum, hchk, z, hz⟩ := hf.inData hst
    have h0 : a.rem ≠ 0#8 := by
      intro h0; rw [h0] at h1; simp at h1
    by_cases hr : a.rem = 1#8
    · refine ⟨a.checksumRule b, by simp [Asm.stateRule, hst, hr], Asm.checksumRule_following b a h hf hst hr, ?_, ?_⟩
      · unfold Asm.checksumRule; split <;> rfl
      · unfold Asm.checksumRule; split <;> exact fun x => x
    · have hr1 : 1 < a.rem.toNat := by
        have : a.rem.toNat ≠ 1 := fun h => hr (BitVec.eq_of_toNat_eq (by simpa using h))
        omega
      obtain ⟨a', e, hf', -, hnc, hp, -, -, -, -, -⟩ := Asm.payloadRule_following b a h hf hst hr1
      refine ⟨a', by simp [Asm.stateRule, hst, h0, hr, e], hf', hnc, fun _ => ?_⟩
      have := a.rlen.isLt
      omega

/-! ### The byte budget (R110) -/

@[simp] theorem Asm.count_of_none (p : Params) (a : Asm) (h : p.overallLimit = none) : a.count p = a := by
  simp [Asm.count, h]

@[simp] theorem Asm.budget_of_none (p : Params) (a : Asm) (h : p.overallLimit = none) : a.budget p = a := by
  simp [Asm.budget, h]

theorem Asm.count_following {p : Params} {h : List Byte} {a : Asm} (hf : a.Following h) :
    (a.count p).Following h ∧ (a.count p).st = a.st ∧ (a.count p).pcnt = a.pcnt := by
  unfold Asm.count
  split
  · exact ⟨hf, rfl, rfl⟩
  · exact ⟨⟨hf.running, hf.ended, hf.atId, hf.atLen, hf.atTyp, hf.inData, hf.accepted⟩, rfl, rfl⟩

theorem Asm.finish_following {h : List Byte} {a : Asm} (r : RxResult) (hr : r ≠ .rNone) (ho : r ≠ .rOk) :
    (a.finish r).Following h := by
  constructor <;> simp [hr, ho]

theorem Asm.budget_following {p : Params} {h : List Byte} {a : Asm} (hf : a.Following h) :
    (a.budget p).Following h ∧ (a.budget p).pcnt = a.pcnt ∧ (a.budget p).ncons = a.ncons
      ∧ ((a.budget p).st ≠ .idle → ∀ n, p.overallLimit = some n → a.ncons ≠ n) := by
  unfold Asm.budget
  split
  · rename_i hn; exact ⟨hf, rfl, rfl, fun _ n hn' => by simp [hn] at hn'⟩
  · rename_i n hn
    split
    · exact ⟨Asm.finish_following .rLimit (by simp) (by simp), rfl, rfl, by simp⟩
    · rename_i hc
      refine ⟨hf, rfl, rfl, fun hs m hm => ?_⟩
      rw [hn] at hm
      cases hm
      exact fun e => hc ⟨hs, e⟩

/-- Without a limit the budget of R110 does nothing. -/
theorem Asm.budgeted_of_none {p : Params} {rule : Asm → Except Fault Asm} {a : Asm} (h : p.overallLimit = none) :
    a.budgeted p rule = rule a := by
  unfold Asm.budgeted
  rw [Asm.count_of_none p a h]
  cases rule a with
  | error e => rfl
  | ok a' => simp [h]

/-! ### One byte, one answer -/

/-- One byte handed to a running invocation: the invocation follows, and the byte is counted where there is a limit. -/
theorem Asm.byte_following (p : Params) (b : Byte) (a : Asm) (h : List Byte) (hf : a.Following h)
    (hs : a.st ≠ .idle) :
    ∃ a', a.byte p b = .ok a' ∧ a'.Following (h ++ [b]) ∧ (a.pcnt.toNat ≤ 252 → a'.pcnt.toNat ≤ 252)
      ∧ ∀ n, p.overallLimit = some n → a'.ncons = a.ncons + 1 ∧ (a'.st ≠ .idle → a'.ncons ≠ n) := by
  obtain ⟨hc, hcs, hcp⟩ := Asm.count_following (p := p) hf
  obtain ⟨a1, e1, hf1, hn1, hp1⟩ := Asm.stateRule_following p b (a.count p) h hc (by rw [hcs]; exact hs)
  obtain ⟨hf2, hp2, hn2, hl2⟩ := Asm.budget_following (p := p) hf1
  refine ⟨a1.budget p, by simp [Asm.byte, hs, Asm.budgeted, e1], hf2, ?_, ?_⟩
  · intro hp
    rw [hp2]
    exact hp1 (by rw [hcp]; exact hp)
  · intro n hn
    have hcn : (a.count p).ncons = a.ncons + 1 := by simp [Asm.count, hn]
    refine ⟨by rw [hn2, hn1, hcn], fun hs2 => ?_⟩
    rw [hn2]
    exact hl2 hs2 n hn

/-! ### The loop of R112 -/

/-- The loop over two lists of answers, one after the other. -/
theorem Asm.run_append {α : Type} (p : Params) (f : α → RxAnswer) (xs ys : List α) (a : Asm) :
    Asm.run p f (xs ++ ys) a = match Asm.run p f xs a with
      | .error e => .error e
      | .ok (a1, []) => Asm.run p f ys a1
      | .ok (a1, x :: rest) => .ok (a1, x :: rest ++ ys) := by
  induction xs generalizing a with
  | nil => simp [Asm.run]
  | cons x xs ih =>
    simp only [List.cons_append, Asm.run]
    split
    · rfl
    · cases Asm.answer p (f x) a with
      | error e => rfl
      | ok a' => exact ih a'

theorem Asm.run_map {α β : Type} (p : Params) (g : α → β) (f : β → RxAnswer) (xs : List α) (a : Asm) :
    Asm.run p f (xs.map g) a = match Asm.run p (fun x => f (g x)) xs a with
      | .error e => .error e
      | .ok (a1, rest) => .ok (a1, rest.map g) := by
  induction xs generalizing a with
  | nil => simp [Asm.run]
  | cons x xs ih =>
    simp only [List.map_cons, Asm.run]
    split
    · rfl
    · cases Asm.answer p (f (g x)) a with
      | error e => rfl
      | ok a' => exact ih a'

theorem Asm.run_idle {α : Type} (p : Params) (f : α → RxAnswer) (xs : List α) (a : Asm) (h : a.st = .idle) :
    Asm.run p f xs a = .ok (a, xs) := by
  cases xs <;> simp [Asm.run, h]

/-- Everything a loop can do: it consumes a prefix of the answers, all of them where the invocation is still running;
what it consumed are bytes, but for a final `NoData` after which the invocation has failed; and a limit bounds it. -/
theorem Asm.run_following {α : Type} (p : Params) (f : α → RxAnswer) (xs : List α) (a : Asm) (h : List Byte)
    (hf : a.Following h) :
    ∃ a' used rest h', Asm.run p f xs a = .ok (a', rest) ∧ xs = used ++ rest ∧ a'.Following (h ++ h')
      ∧ (a'.st ≠ .idle → rest = []) ∧ (a.pcnt.toNat ≤ 252 → a'.pcnt.toNat ≤ 252)
      ∧ (used.map f = h'.map .byte ∨ (used.map f = h'.map .byte ++ [.noData] ∧ a'.res = .rTimeout ∧ a'.st = .idle))
      ∧ (∀ n, p.overallLimit = some n → a.ncons < n → a.st ≠ .idle →
          a.ncons + used.length ≤ n ∧ (a'.st ≠ .idle → a'.ncons = a.ncons + used.length ∧ a'.ncons < n)) := by
  induction xs generalizing a h with
  | nil => exact ⟨a, [], [], [], by simp [Asm.run], rfl, by simpa using hf, by simp, fun x => x, by simp,
      fun n _ hlt _ => ⟨by simp; omega, fun _ => ⟨rfl, hlt⟩⟩⟩
  | cons x xs ih =>
    by_cases hs : a.st = .idle
    · exact ⟨a, [], x :: xs, [], Asm.run_idle p f _ a hs, rfl, by simpa using hf, fun h => absurd hs h, fun x => x,
        by simp, fun n _ _ hi => absurd hs hi⟩
    · cases hx : f x with
      | noData =>
        have e : a.answer p (f x) = .ok (a.finish .rTimeout) := by simp [hx, Asm.answer, Asm.noData, hs]
        have hi : (a.finish .rTimeout).st = .idle := rfl
        refine ⟨a.finish .rTimeout, [x], xs, [], ?_, rfl, ?_, fun h => absurd hi h, fun x => x, ?_, ?_⟩
        · simp [Asm.run, hs, e, Asm.run_idle p f xs _ hi]
        · exact Asm.finish_following .rTimeout (by simp) (by simp)
        · right; simp [hx]
        · intro n _ hlt _
          exact ⟨by simp; omega, fun h => absurd hi h⟩
      | byte b =>
        obtain ⟨a1, e1, hf1, hp1, hl1⟩ := Asm.byte_following p b a h hf hs
        obtain ⟨a', used, rest, h', e, hx', hf', hr, hp, hu, hl⟩ := ih a1 (h ++ [b]) hf1
        have ea : a.answer p (f x) = .ok a1 := by simp [hx, Asm.answer, e1]
        refine ⟨a', x :: used, rest, b :: h', ?_, by simp [hx'], by simpa using hf', hr, fun q => hp (hp1 q), ?_, ?_⟩
        · simp [Asm.run, hs, ea, e]
        · rcases hu with hu | ⟨hu, hres, hst⟩
          · left; simp [hu, hx]
          · right; simp [hu, hx, hres, hst]
        · intro n hn hlt _
          obtain ⟨hc, hlim⟩ := hl1 n hn
          by_cases hi : a1.st = .idle
          · rw [Asm.run_idle p f xs a1 hi] at e
            have e' := Except.ok.inj e
            have ha : a' = a1 := (congrArg Prod.fst e').symm
            have hrest : rest = xs := (congrArg Prod.snd e').symm
            have hu0 : used = [] := by
              rw [hrest] at hx'
              simpa using hx'
            rw [ha, hu0]
            exact ⟨by simp; omega, fun h => absurd hi h⟩
          · have hlt1 : a1.ncons < n := by have := hlim hi; omega
            obtain ⟨hle, hrun⟩ := hl n hn hlt1 hi
            refine ⟨by simp only [List.length_cons]; omega, fun hs' => ?_⟩
            obtain ⟨h1, h2⟩ := hrun hs'
            exact ⟨by simp only [List.length_cons]; omega, h2⟩

/-! ### The loop against the transport -/

/-- What is left over is an end of the list. -/
theorem Asm.run_suffix {α : Type} {p : Params} {f : α → RxAnswer} {xs : List α} {a a' : Asm} {rest : List α}
    (h : Asm.run p f xs a = .ok (a', rest)) : ∃ used, xs = used ++ rest := by
  induction xs generalizing a with
  | nil => exact ⟨[], by simp [Asm.run] at h; simp [← h.2]⟩
  | cons x xs ih =>
    rw [Asm.run] at h
    split at h
    · cases Except.ok.inj h
      exact ⟨[], rfl⟩
    · split at h
      · cases h
      · obtain ⟨used, hu⟩ := ih h
        exact ⟨x :: used, by rw [hu]; rfl⟩

/-- Answers that are left over are left by an invocation that has ended. -/
theorem Asm.run_rest {α : Type} {p : Params} {f : α → RxAnswer} {xs : List α} {a a' : Asm} {rest : List α}
    (h : Asm.run p f xs a = .ok (a', rest)) : rest = [] ∨ a'.st = .idle := by
  induction xs generalizing a with
  | nil => left; simp [Asm.run] at h; exact h.2
  | cons x xs ih =>
    rw [Asm.run] at h
    split at h
    · rename_i hs
      cases Except.ok.inj h
      exact .inr hs
    · split at h
      · cases h
      · exact ih h

theorem dropUnread_eq (b : Byte) (held : List Byte) : dropUnread b held = handedOver b held := by
  cases held with
  | nil => rfl
  | cons c held => by_cases h : c = b <;> simp [dropUnread, handedOver, h]

theorem unreadAfter_eq (xs : List RxAnswer) (held : List Byte) : unreadAfter xs held = leftUnread xs held := by
  induction xs generalizing held with
  | nil => rfl
  | cons x xs ih => cases x <;> simp [unreadAfter, leftUnread, ih, dropUnread_eq]

@[simp] theorem leftUnread_append (xs ys : List RxAnswer) (held : List Byte) :
    leftUnread (xs ++ ys) held = leftUnread ys (leftUnread xs held) := by
  induction xs generalizing held with
  | nil => rfl
  | cons x xs ih => cases x <;> simp [leftUnread, ih]

/-- What is left after the first `n` answers are the answers but the first `n`. -/
@[simp] theorem answers_answered (n : Nat) (l : Line) : answers (answered n l) = (answers l).drop n := by
  unfold answers answered
  by_cases h : n ≤ l.next.length
  · have h0 : n - l.next.length = 0 := by omega
    have hu : leftUnread (l.next.drop n) (leftUnread (l.next.take n) l.held) = leftUnread l.next l.held := by
      rw [← leftUnread_append, List.take_append_drop]
    simp [List.drop_append, h0, hu]
  · have h1 : l.next.drop n = [] := List.drop_eq_nil_of_le (by omega)
    have h2 : l.next.take n = l.next := List.take_of_length_le (by omega)
    simp [List.drop_append, h1, h2, leftUnread]

theorem answers_eq_nil {l : Line} : answers l = [] ↔ l.held = [] ∧ l.next = [] := by
  constructor
  · intro h
    have hn : l.next = [] := (List.append_eq_nil_iff.mp h).1
    exact ⟨by simpa [answers, hn, leftUnread] using h, hn⟩
  · rintro ⟨h1, h2⟩
    simp [answers, h1, h2, leftUnread]

/-- The loop over the environment's answers and then the unread bytes is the loop over all the transport's answers. -/
theorem Line.feed_of_run {p : Params} {l : Line} {a a' : Asm} {used rest : List RxAnswer}
    (hu : answers l = used ++ rest) (h : Asm.run p (fun x => x) (answers l) a = .ok (a', rest)) :
    l.feed p a = .ok (answered used.length l, a') := by
  have hlen := congrArg List.length hu
  simp only [answers, List.length_append, List.length_map] at hlen
  rw [answers, Asm.run_append] at h
  unfold Line.feed
  generalize hr : Asm.run p (fun x => x) l.next a = r at h ⊢
  cases r with
  | error e => simp at h
  | ok q =>
    obtain ⟨a1, next⟩ := q
    obtain ⟨u, hn⟩ := Asm.run_suffix hr
    have hl := congrArg List.length hn
    simp only [List.length_append] at hl
    have ht : l.next.take (l.next.length - next.length) = u := by rw [hn]; simp
    simp only [ht, unreadAfter_eq]
    cases next with
    | nil =>
      rw [List.append_nil] at hn
      simp only [Asm.run_map] at h
      rw [hn] at h
      generalize hr2 : Asm.run p RxAnswer.byte (leftUnread u l.held) a1 = r2 at h ⊢
      cases r2 with
      | error e => simp at h
      | ok q2 =>
        obtain ⟨a2, held⟩ := q2
        obtain ⟨rfl, rfl⟩ := Prod.ext_iff.mp (Except.ok.inj h)
        obtain ⟨v, hv⟩ := Asm.run_suffix hr2
        have hvl := congrArg List.length hv
        rw [List.length_append] at hvl
        rw [hn, List.length_map, hvl] at hlen
        have e1 : u.drop used.length = [] := List.drop_eq_nil_of_le (by omega)
        have e2 : u.take used.length = u := List.take_of_length_le (by omega)
        have e3 : used.length - u.length = v.length := by omega
        simp [answered, hn, e1, e2, e3, hv]
    | cons x next =>
      have hi : a1.st = .idle := (Asm.run_rest hr).resolve_left (by simp)
      obtain ⟨rfl, rfl⟩ := Prod.ext_iff.mp (Except.ok.inj h)
      have e3 : used = u := by
        rw [answers, hn] at hu
        simpa using hu.symm
      subst e3
      simp [answered, hn, Asm.run_idle p _ _ a1 hi]

/-- Everything an invocation can do from a started assembler: it never faults, it consumes a prefix of the transport's
answers, and it has either ended with a cause or used every answer up. -/
theorem Line.feed_following (p : Params) (l : Line) (a : Asm) :
    ∃ a' used rest h', l.feed p a.start = .ok (answered used.length l, a')
      ∧ Asm.run p (fun x => x) (answers l) a.start = .ok (a', rest)
      ∧ answers l = used ++ rest ∧ answers (answered used.length l) = rest
      ∧ a'.Following h' ∧ (a'.st ≠ .idle → rest = []) ∧ (a.pcnt.toNat ≤ 252 → a'.pcnt.toNat ≤ 252)
      ∧ (used = h'.map .byte ∨ (used = h'.map .byte ++ [.noData] ∧ a'.res = .rTimeout ∧ a'.st = .idle))
      ∧ (∀ n, p.overallLimit = some n → 0 < n → used.length ≤ n ∧ (a'.st ≠ .idle → a'.ncons = used.length ∧ a'.ncons < n))
    := by
  obtain ⟨a', used, rest, h', e, hx, hf, hr, hp, hu, hl⟩ :=
    Asm.run_following p (fun x => x) (answers l) a.start [] a.following_start
  refine ⟨a', used, rest, h', Line.feed_of_run hx e, e, hx, by rw [answers_answered, hx]; simp, by simpa using hf, hr, hp,
    by simpa using hu, ?_⟩
  intro n hn h0
  simpa using hl n hn h0 (by simp)

/-- The same of the whole machine: an invocation touches ASM and the receive side alone. -/
theorem State.invoke_following (s : State) :
    ∃ a' used rest h', s.invoke = .ok ((s.withLine (answered used.length s.line)).withAsm a')
      ∧ Asm.run s.par (fun x => x) (answers s.line) s.asm.start = .ok (a', rest)
      ∧ answers s.line = used ++ rest ∧ answers (answered used.length s.line) = rest
      ∧ a'.Following h' ∧ (a'.st ≠ .idle → rest = [])
      ∧ (s.asm.pcnt.toNat ≤ 252 → a'.pcnt.toNat ≤ 252)
      ∧ (used = h'.map .byte ∨ (used = h'.map .byte ++ [.noData] ∧ a'.res = .rTimeout ∧ a'.st = .idle))
      ∧ (∀ n, s.par.overallLimit = some n → 0 < n →
          used.length ≤ n ∧ (a'.st ≠ .idle → a'.ncons = used.length ∧ a'.ncons < n)) := by
  obtain ⟨a', used, rest, h', e, h⟩ := Line.feed_following s.par s.line s.asm
  exact ⟨a', used, rest, h', by simp [State.invoke, e], h⟩

end Sys2Proof.Machine
end

