-- ==== Sys2Proof/Laws/Calls.lean ====
section
/-! SUPPORT. The invariant of Safety.lean against the assembler's laws, and what an exchange, the cycles of
SEQ_READ_ANGLE, a waiting call and an event can do, said once. -/

namespace Sys2Proof.Machine

open Sys2Proof.Claims

/-! ### The invariant of R19 and the bytes consumed -/

/-- A running assembler that meets R19 has consumed some bytes that explain its registers. -/
theorem Asm.Inv.following {a : Asm} (h : a.Inv) (hs : a.st ≠ .idle) : ∃ bs, a.Following bs := by
  have hn := h.running hs
  cases hst : a.st with
  | idle => exact absurd hst hs
  | hunt => exact ⟨[], by constructor <;> simp [hst, hn]⟩
  | id => exact ⟨[0xFF#8], by constructor <;> simp [hst, hn]⟩
  | len => exact ⟨[0xFF#8, 0xFB#8], by constructor <;> simp [hst, hn]⟩
  | typ => exact ⟨[0xFF#8, 0xFB#8, a.rlen], by constructor <;> simp [hst, hn]⟩
  | data =>
    obtain ⟨h3, h1, -, hp⟩ := h.data_len hst
    refine ⟨[0xFF#8, 0xFB#8, a.rlen, a.rtype] ++ a.payload, ?_⟩
    constructor <;> simp [hst, hn]
    refine ⟨h3, h1, hp, ?_⟩
    apply BitVec.eq_of_toNat_eq
    rw [chkIn_toNat]
    exact h.data_sum hst

/-- An assembler that follows its bytes meets R19. -/
theorem Asm.Following.inv {a : Asm} {bs : List Byte} (h : a.Following bs) (hp : a.pcnt.toNat ≤ 252) : a.Inv := by
  constructor
  · intro hs
    obtain ⟨h3, h1, hsum, -⟩ := h.inData hs
    exact ⟨h3, h1, by omega, hsum⟩
  · intro hs
    obtain ⟨-, -, -, hchk, -⟩ := h.inData hs
    rw [hchk, chkIn_toNat]
  · intro hr
    obtain ⟨hi, h3, hpc, -⟩ := h.accepted hr
    exact ⟨hi, h3, hpc⟩
  · exact h.running
  · exact hp

/-- One byte keeps R19 and the budget of R110, and does not fault. -/
theorem Asm.byte_inv (p : Params) (b : Byte) (a : Asm) (h : a.Inv) (hb : a.WithinBudget p) :
    ∃ a', a.byte p b = .ok a' ∧ a'.Inv ∧ a'.WithinBudget p := by
  by_cases hs : a.st = .idle
  · exact ⟨a, by simp [Asm.byte, hs], h, hb⟩
  · obtain ⟨bs, hf⟩ := h.following hs
    obtain ⟨a', e, hf', hp, hl⟩ := Asm.byte_following p b a bs hf hs
    refine ⟨a', e, hf'.inv (hp h.pcnt_le), fun n hn h0 hs' => ?_⟩
    obtain ⟨h1, h2⟩ := hl n hn
    have := hb n hn h0 hs
    have := h2 hs'
    omega

theorem Asm.noData_inv {p : Params} {a : Asm} (h : a.Inv) (hb : a.WithinBudget p) :
    a.noData.Inv ∧ a.noData.WithinBudget p := by
  unfold Asm.noData
  split
  · exact ⟨h, hb⟩
  · exact ⟨(Asm.finish_following (h := []) .rTimeout (by simp) (by simp)).inv h.pcnt_le, fun n _ _ hs => absurd rfl hs⟩

theorem Asm.start_inv {p : Params} {a : Asm} (h : a.pcnt.toNat ≤ 252) : a.start.Inv ∧ a.start.WithinBudget p :=
  ⟨a.following_start.inv h, fun _ _ h0 _ => h0⟩

/-! ### What running a decode leaves alone -/

/-- What everything that runs a decode keeps: ENC, MAP, the parameters, the inputs, LIFE, the handle; and the TX stream
and the reports only grow. -/
structure State.Keeps (s t : State) : Prop where
  outside : SameOutside s t
  tx : s.line.tx <+: t.line.tx
  reports : s.line.reports <+: t.line.reports

theorem State.Keeps.refl (s : State) : s.Keeps s :=
  ⟨⟨rfl, rfl, rfl, rfl, rfl, rfl, rfl, rfl, rfl⟩, List.prefix_refl _, List.prefix_refl _⟩

theorem State.Keeps.trans {s t u : State} (h : s.Keeps t) (h' : t.Keeps u) : s.Keeps u := by
  obtain ⟨⟨a1, a2, a3, a4, a5, a6, a7, a8, a9⟩, b, c⟩ := h
  obtain ⟨⟨a1', a2', a3', a4', a5', a6', a7', a8', a9'⟩, b', c'⟩ := h'
  exact ⟨⟨a1'.trans a1, a2'.trans a2, a3'.trans a3, a4'.trans a4, a5'.trans a5, a6'.trans a6, a7'.trans a7,
    a8'.trans a8, a9'.trans a9⟩, b.trans b', c.trans c'⟩

/-- The asm of a state that ran or ended an invocation. -/
structure State.Ran (s t : State) : Prop where
  inv : s.asm.pcnt.toNat ≤ 252 → t.asm.Inv
  budget : t.asm.WithinBudget t.par
  running : t.asm.st ≠ .idle → t.asm.res = .rNone ∧ t.line.held = [] ∧ t.line.next = []
  ended : t.asm.st = .idle → t.asm.res ≠ .rNone
  pcnt : s.asm.pcnt.toNat ≤ 252 → t.asm.pcnt.toNat ≤ 252

theorem State.invoke_ran (s : State) : ∃ t, s.invoke = .ok t ∧ s.Keeps t ∧ s.Ran t ∧ t.seq = s.seq
    ∧ t.call = s.call ∧ t.result = s.result := by
  obtain ⟨a', used, rest, h', e, -, hx, hl, hf, hr, hp, hu, hn⟩ := s.invoke_following
  refine ⟨_, e, ⟨⟨rfl, rfl, rfl, rfl, rfl, rfl, rfl, rfl, rfl⟩, List.prefix_refl _, List.prefix_refl _⟩, ?_, rfl, rfl,
    rfl⟩
  exact ⟨fun h => hf.inv (hp h), fun n hn' h0 hs => ((hn n hn' h0).2 hs).2,
    fun hs => ⟨hf.running hs, answers_eq_nil.mp (hl.trans (hr hs))⟩, hf.ended, hp⟩

/-- An exchange writes one frame and runs one invocation; it never faults. -/
theorem State.exchange_ran (cmd : List Byte) (s : State) :
    ∃ t, s.exchange cmd = .ok t ∧ s.Keeps t ∧ s.Ran t ∧ t.seq = s.seq ∧ t.call = s.call ∧ t.result = s.result := by
  unfold State.exchange
  set s1 := if s.par.flushBeforeCommand = true then s.withLine s.line.flush else s with hs1
  have k1 : s.Keeps s1 ∧ s1.asm = s.asm ∧ s1.seq = s.seq ∧ s1.call = s.call ∧ s1.result = s.result := by
    rw [hs1]
    split
    · exact ⟨⟨⟨rfl, rfl, rfl, rfl, rfl, rfl, rfl, rfl, rfl⟩, List.prefix_refl _, List.prefix_refl _⟩, rfl, rfl, rfl, rfl⟩
    · exact ⟨State.Keeps.refl s, rfl, rfl, rfl, rfl⟩
  obtain ⟨f1, f2, f3, f4, f5, f6, f7⟩ := s1.line.txWrite_frame (encodeFrameBytes cmd)
  have k2 : s1.Keeps (s1.send cmd) := ⟨⟨rfl, rfl, rfl, rfl, rfl, rfl, f3, f4, f5⟩, f6, f7⟩
  obtain ⟨t, e, k3, hran, hq, hc, hr⟩ := (s1.send cmd).invoke_ran
  obtain ⟨k1, ea, eq, ec, er⟩ := k1
  have ep : (s1.send cmd).asm.pcnt = s.asm.pcnt := by rw [← ea]; rfl
  refine ⟨t, e, (k1.trans k2).trans k3, ?_, hq.trans eq, hc.trans ec, hr.trans er⟩
  exact ⟨fun h => hran.inv (by rw [ep]; exact h), hran.budget, hran.running, hran.ended,
    fun h => hran.pcnt (by rw [ep]; exact h)⟩

/-- An exchange is the write-and-await cycle of R170, and touches the transport and ASM alone. -/
theorem State.exchange_exchanged (cmd : List Byte) (s : State) :
    ∃ l a, s.exchange cmd = .ok ((s.withLine l).withAsm a) ∧ Exchanged cmd s.par s.line s.asm l a := by
  set s1 : State := if s.par.flushBeforeCommand then s.withLine s.line.flush else s with hs1
  have el : s1.line = if s.par.flushBeforeCommand then { s.line with held := [] } else s.line := by
    rw [hs1]; split <;> rfl
  obtain ⟨a, used, rest, h', e, er, hx, hl, -, hr, -⟩ := (s1.send cmd).invoke_following
  have ep : s1.par = s.par ∧ s1.asm = s.asm := by rw [hs1]; split <;> exact ⟨rfl, rfl⟩
  have et : ∀ l, ((s1.send cmd).withLine l).withAsm a = (s.withLine l).withAsm a := by
    intro l; rw [hs1]; split <;> rfl
  refine ⟨_, a, e.trans (congrArg _ (et _)), (s1.send cmd).line, used, rest, ?_, hx, rfl, hl, ?_, hr⟩
  · rw [← el, ← encodeFrameBytes_eq_framed]
    exact Line.txWrite_written _ _
  · have e1 : (s1.send cmd).par = s.par := ep.1
    have e2 : (s1.send cmd).asm = s.asm := ep.2
    rw [e1, e2] at er
    exact er

/-! ### The cycles of SEQ_READ_ANGLE (R176) -/

/-- The judgement of a decoded frame, in the terms of the claims. -/
theorem reportResult_eq (p : Params) (id : Byte) (a : Asm) :
    reportResult p id a = .degrees (angleRead p id a.rtype (payloadOf a)) := by
  have hp : a.payload = payloadOf a := rfl
  unfold reportResult angleRead
  rw [hp]
  split
  · rfl
  · by_cases hl : (payloadOf a).length < 3
    · rw [if_pos hl, if_pos (show _ < reportMinPayload from hl)]
      rfl
    · rw [if_neg hl, if_neg (show ¬ _ < reportMinPayload from hl), reportedPosition, be16_eq]
      generalize toAngle p.roundTies id _ = x
      cases x <;> rfl

/-- What SEQ_READ_ANGLE makes of a decoded frame is always a number of degrees or the sentinel. -/
theorem reportResult_degrees (p : Params) (id : Byte) (a : Asm) : ∃ d, reportResult p id a = .degrees d :=
  ⟨_, reportResult_eq p id a⟩

/-- Everything up to `n` more cycles can do: they return, or wait with every answer used up; ATT counts the cycles
begun. -/
theorem State.readCycles_ran (id : Byte) (n : Nat) (s : State) (hs : s.asm.st = .idle) :
    ∃ t, s.readCycles id n = .ok t ∧ s.Keeps t
      ∧ s.seq.att ≤ t.seq.att ∧ t.seq.att ≤ s.seq.att + n ∧ (0 < n → s.seq.att < t.seq.att)
      ∧ (s.asm.Inv → t.asm.Inv) ∧ t.asm.WithinBudget t.par
      ∧ ((t.asm.st = .idle ∧ t.call = .none ∧ ∃ d, t.result = .degrees d)
        ∨ (t.asm.st ≠ .idle ∧ t.call = .readAngle id ∧ t.result = .pending ∧ t.line.held = [] ∧ t.line.next = [])) := by
  induction n generalizing s with
  | zero =>
    exact ⟨s.ret (.degrees readSentinel), rfl,
      ⟨⟨rfl, rfl, rfl, rfl, rfl, rfl, rfl, rfl, rfl⟩, List.prefix_refl _, List.prefix_refl _⟩, Nat.le_refl _,
      Nat.le_refl _, by simp, fun h => h, fun _ _ _ h => absurd hs h, .inl ⟨hs, rfl, _, rfl⟩⟩
  | succ n ih =>
    set s0 := s.withSeq { s.seq with att := s.seq.att + 1 } with hs0
    have k0 : s.Keeps s0 :=
      ⟨⟨rfl, rfl, rfl, rfl, rfl, rfl, rfl, rfl, rfl⟩, List.prefix_refl _, List.prefix_refl _⟩
    obtain ⟨t, e, k1, hran, hq, hc, hr⟩ := s0.exchange_ran (fmtReadPos id)
    have k := k0.trans k1
    have hatt : t.seq.att = s.seq.att + 1 := by rw [hq]; rfl
    by_cases hi : t.asm.st = .idle
    · by_cases ho : t.asm.res = .rOk
      · refine ⟨t.ret (reportResult t.par id t.asm), ?_, ⟨k.outside, k.tx, k.reports⟩, ?_, ?_, ?_,
          fun h => hran.inv h.pcnt_le, hran.budget, .inl ⟨hi, rfl, reportResult_degrees _ _ _⟩⟩
        · simp [State.readCycles, ← hs0, e, hi, ho]
        · show s.seq.att ≤ t.seq.att; omega
        · show t.seq.att ≤ s.seq.att + (n + 1); omega
        · intro _; show s.seq.att < t.seq.att; omega
      · obtain ⟨u, e', k', h1, h2, h3, h4, h5, h6⟩ := ih t hi
        refine ⟨u, ?_, k.trans k', by omega, by omega, fun _ => by omega,
          fun h => h4 (hran.inv h.pcnt_le), h5, h6⟩
        simp [State.readCycles, ← hs0, e, hi, ho, e']
    · obtain ⟨-, hh, hn⟩ := hran.running hi
      refine ⟨t.wait (.readAngle id), ?_, ⟨k.outside, k.tx, k.reports⟩, ?_, ?_, ?_,
          fun h => hran.inv h.pcnt_le, hran.budget, .inr ⟨hi, rfl, rfl, hh, hn⟩⟩
      · simp [State.readCycles, ← hs0, e, hi]
      · show s.seq.att ≤ t.seq.att; omega
      · show t.seq.att ≤ s.seq.att + (n + 1); omega
      · intro _; show s.seq.att < t.seq.att; omega

/-- The last cycle, begun with ATT = 1 after a failed first one, whichever call is noted meanwhile. -/
theorem State.readCycles_second (id : Byte) (s : State) (l : Line) (a : Asm) (c : Call) :
    SecondCycle id s l a (outcome (State.readCycles id 1
      { s with asm := a, line := l, seq := { s.seq with att := 1 }, call := c })) := by
  obtain ⟨l2, a2, e, hx⟩ := State.exchange_exchanged (fmtReadPos id)
    { s with asm := a, line := l, seq := { s.seq with att := 2 }, call := c }
  refine ⟨l2, a2, hx, fun h => ?_, fun h => ?_⟩ <;> unfold State.readCycles <;> simp only [State.withSeq] <;> rw [e]
  · simp only [State.withAsm_asm, ne_eq, h, not_false_eq_true, if_true, outcome_ok]
    rfl
  · by_cases ho : a2.res = .rOk
    · simp only [State.withAsm_asm, ne_eq, h, not_true_eq_false, if_false, ho, if_true, outcome_ok, reportResult_eq]
      rfl
    · simp only [State.withAsm_asm, ne_eq, h, not_true_eq_false, if_false, ho, State.readCycles, outcome_ok]
      rfl

/-! ### A waiting call and an event -/

/-- A call that waits does not go on while its invocation runs. -/
theorem State.resume_running (s : State) (h : s.asm.st ≠ .idle) : s.resume = .ok s := by simp [State.resume, h]

/-- Where no call waits the end of an invocation changes nothing more. -/
theorem State.resume_none (s : State) (h : s.call = .none) : s.resume = .ok s := by simp [State.resume, h]

/-- Everything the waiting call can do: it goes on waiting, or returns, or begins its next cycle; it never faults. -/
theorem State.resume_ran (s : State) :
    ∃ t, s.resume = .ok t ∧ s.Keeps t ∧ (s.asm.Inv → t.asm.Inv)
      ∧ (s.asm.WithinBudget s.par → t.asm.WithinBudget t.par)
      ∧ (t.call ≠ .none → t.asm.st ≠ .idle) ∧ (s.call = .none → t = s)
      ∧ (s.seq.att ≤ readAttempts → t.seq.att ≤ readAttempts)
      ∧ s.seq.att ≤ t.seq.att
      ∧ (∀ id, t.call = .readAngle id → s.call = .readAngle id) := by
  unfold State.resume
  by_cases hi : s.asm.st = .idle
  · simp only [hi, ne_eq, not_true_eq_false, if_false]
    have frame : ∀ r, s.Keeps (s.ret r) := fun r =>
      ⟨⟨rfl, rfl, rfl, rfl, rfl, rfl, rfl, rfl, rfl⟩, List.prefix_refl _, List.prefix_refl _⟩
    cases hc : s.call with
    | none => exact ⟨s, rfl, State.Keeps.refl s, fun h => h, fun h => h, fun h => absurd hc h, fun _ => rfl, fun h => h,
        Nat.le_refl _, fun id h => by rw [hc] at h; cases h⟩
    | decode => exact ⟨_, rfl, frame _, fun h => h, fun h => h, fun h => absurd rfl h, by simp, fun h => h,
        Nat.le_refl _, fun id h => by cases h⟩
    | ping => exact ⟨_, rfl, frame _, fun h => h, fun h => h, fun h => absurd rfl h, by simp, fun h => h,
        Nat.le_refl _, fun id h => by cases h⟩
    | readAngle id =>
      by_cases ho : s.asm.res = .rOk
      · simp only [ho, if_true]
        exact ⟨_, rfl, frame _, fun h => h, fun h => h, fun h => absurd rfl h, by simp, fun h => h,
          Nat.le_refl _, fun id h => by cases h⟩
      · simp only [ho, if_false]
        obtain ⟨t, e, k, h1, h2, h3, h4, h5, h6⟩ := s.readCycles_ran id (readAttempts - s.seq.att) hi
        refine ⟨t, e, k, h4, fun _ => h5, ?_, by simp, fun h => by omega, h1, ?_⟩
        · rcases h6 with ⟨-, hn, -⟩ | ⟨hn, -⟩
          · exact fun h => absurd hn h
          · exact fun _ => hn
        · rcases h6 with ⟨-, hn, -⟩ | ⟨-, hn, -⟩
          · intro id' h; rw [hn] at h; cases h
          · intro id' h; rw [hn] at h; exact h
  · simp only [ne_eq, hi, not_false_eq_true, if_true]
    exact ⟨s, rfl, State.Keeps.refl s, fun h => h, fun h => h, fun _ => hi, fun _ => rfl, fun h => h, Nat.le_refl _,
      fun id h => h⟩

/-- The event of a byte: the rule inside its budget, the byte handed over, and then the waiting call. -/
theorem State.takeByte_eq (rule : Asm → Except Fault Asm) (b : Byte) (s : State) :
    s.takeByte rule b = match s.asm.budgeted s.par rule with
      | .error e => .error e
      | .ok a => ((s.withLine (lineAfter b s)).withAsm a).resume := by
  simp only [State.takeByte, Line.handOver, dropUnread_eq]
  rfl

/-- A row whose rule is the one of the state answers as the event itself. -/
theorem State.takeByte_congr {rule rule' : Asm → Except Fault Asm} {b : Byte} {s : State}
    (h : s.asm.budgeted s.par rule = s.asm.budgeted s.par rule') : s.takeByte rule b = s.takeByte rule' b := by
  simp only [State.takeByte, h]

/-- The event `rx_byte` keeps what every event keeps. -/
theorem State.rxByte_ran (b : Byte) (s : State) (h : s.Inv) : ∃ t, s.rxByte b = .ok t ∧ s.Keeps t ∧ t.Inv := by
  by_cases hs : s.asm.st = .idle
  · refine ⟨s.withLine (s.line.arrive b), by simp [State.rxByte, hs],
      ⟨⟨rfl, rfl, rfl, rfl, rfl, rfl, rfl, rfl, rfl⟩, List.prefix_refl _, List.prefix_refl _⟩, ?_⟩
    exact ⟨h.asm, h.budget, h.att_le, h.waiting, h.cycle⟩
  · obtain ⟨a, e, hi, hb⟩ := Asm.byte_inv s.par b s.asm h.asm h.budget
    have e' : s.asm.budgeted s.par (Asm.stateRule s.par (b)) = .ok a := by
      simpa [Asm.byte, hs] using e
    obtain ⟨t, et, k, h1, h2, h3, -, h5, h6, h7⟩ := ((s.withLine (lineAfter b s)).withAsm a).resume_ran
    refine ⟨t, by simp [State.rxByte, hs, State.takeByte_eq, e', et], ?_, h1 hi, h2 hb, h5 h.att_le, h3, ?_⟩
    · exact State.Keeps.trans
        (t := (s.withLine (lineAfter b s)).withAsm a)
        ⟨⟨rfl, rfl, rfl, rfl, rfl, rfl, rfl, rfl, rfl⟩, List.prefix_refl _, List.prefix_refl _⟩ k
    · intro id hid
      obtain ⟨c1, c2⟩ := h.cycle id (h7 id hid)
      exact ⟨Nat.le_trans c1 h6, c2⟩

/-! ### Bytes one after another (RXFRAME) -/

/-- An idle assembler leaves every byte in the transport (R111). -/
theorem State.rxBytes_idle (bs : List Byte) (s : State) (h : s.asm.st = .idle) :
    s.rxBytes bs = .ok (s.withLine { s.line with held := s.line.held ++ bs }) := by
  induction bs generalizing s with
  | nil => simp [State.rxBytes, State.withLine]
  | cons b bs ih =>
    have := ih (s.withLine (s.line.arrive b)) h
    simp only [State.rxBytes, State.rxByte, h, if_true, this]
    simp [State.withLine, Line.arrive]

/-- With no call waiting, the bytes are the assembler's loop; each byte it takes is handed over, and what it does not take
waits behind the unread ones. -/
theorem State.rxBytes_of_run {bs : List Byte} {s : State} {a : Asm} {used rest : List Byte} (hc : s.call = .none)
    (hu : bs = used ++ rest) (h : Asm.run s.par RxAnswer.byte bs s.asm = .ok (a, rest)) :
    s.rxBytes bs = .ok ((s.withLine { s.line with
      held := leftUnread (used.map RxAnswer.byte) s.line.held ++ rest }).withAsm a) := by
  induction bs generalizing s used with
  | nil =>
    obtain ⟨rfl, rfl⟩ := List.append_eq_nil_iff.mp hu.symm
    obtain ⟨rfl, -⟩ := Prod.ext_iff.mp (Except.ok.inj h)
    simp [State.rxBytes, State.withLine, State.withAsm, leftUnread]
  | cons b bs ih =>
    by_cases hs : s.asm.st = .idle
    · rw [Asm.run_idle _ _ _ _ hs] at h
      obtain ⟨rfl, rfl⟩ := Prod.ext_iff.mp (Except.ok.inj h)
      obtain rfl : used = [] := by simpa using hu
      rw [State.rxBytes_idle _ _ hs]
      simp [State.withLine, State.withAsm, leftUnread]
    · rw [Asm.run, if_neg hs] at h
      cases hb : s.asm.answer s.par (.byte b) with
      | error e => rw [hb] at h; cases h
      | ok a1 =>
        rw [hb] at h
        have hb' : s.asm.budgeted s.par (Asm.stateRule s.par b) = .ok a1 := by
          simpa [Asm.answer, Asm.byte, hs] using hb
        have hr : ((s.withLine (lineAfter b s)).withAsm a1).resume = .ok ((s.withLine (lineAfter b s)).withAsm a1) :=
          State.resume_none _ hc
        cases used with
        | nil =>
          obtain ⟨v, hv⟩ := Asm.run_suffix h
          have := congrArg List.length hu
          have := congrArg List.length hv
          simp at *
          omega
        | cons c used =>
          obtain ⟨rfl, hu'⟩ := List.cons.inj hu
          have := ih (s := (s.withLine (lineAfter b s)).withAsm a1) hc hu' h
          simp only [State.rxBytes, State.rxByte, hs, if_false, State.takeByte_eq, hb', hr, this]
          rfl

end Sys2Proof.Machine
end

