-- ==== Sys2Proof/Laws/PerInstr.lean ====
section
/-! SUPPORT. The family EncodeSize, one lemma per instruction: the size the decoder computes from a frame's first bytes
is the length of its encoding (R62, R73); the operations without a bit pattern have no encoding (R75(c)).
And the bound MAX_FRAME on every frame (R6). -/

namespace Sys2Proof.Laws.EncodeSize

open Sys2Proof

/-- The bytes the encoder writes are as many as the frame's own first bytes announce. -/
def Statement (i : Instr) : Prop :=
  i.wellFormed = true → ∀ bs, encode i = some bs → frameSize bs = bs.length

theorem fmtWriteAll (p1 p2 p3 p4 p5 p6 t : Half) : Statement (.fmtWriteAll p1 p2 p3 p4 p5 p6 t) := by
  rintro - bs ⟨⟩
  rfl

theorem fmtWriteOne1 (p t : Half) : Statement (.fmtWriteOne1 p t) := by
  rintro - bs ⟨⟩
  rfl

theorem fmtWriteOne2 (p t : Half) : Statement (.fmtWriteOne2 p t) := by
  rintro - bs ⟨⟩
  rfl

theorem fmtWriteOne3 (p t : Half) : Statement (.fmtWriteOne3 p t) := by
  rintro - bs ⟨⟩
  rfl

theorem fmtWriteOne4 (p t : Half) : Statement (.fmtWriteOne4 p t) := by
  rintro - bs ⟨⟩
  rfl

theorem fmtWriteOne5 (p t : Half) : Statement (.fmtWriteOne5 p t) := by
  rintro - bs ⟨⟩
  rfl

theorem fmtWriteOne6 (p t : Half) : Statement (.fmtWriteOne6 p t) := by
  rintro - bs ⟨⟩
  rfl

theorem fmtTorque (v : Byte) : Statement (.fmtTorque v) := by
  rintro - bs ⟨⟩
  rfl

theorem fmtPing (id : Byte) : Statement (.fmtPing id) := by
  rintro - bs ⟨⟩
  rfl

theorem fmtReadPos1 : Statement .fmtReadPos1 := by
  rintro - bs ⟨⟩
  rfl

theorem fmtReadPos2 : Statement .fmtReadPos2 := by
  rintro - bs ⟨⟩
  rfl

theorem fmtReadPos3 : Statement .fmtReadPos3 := by
  rintro - bs ⟨⟩
  rfl

theorem fmtReadPos4 : Statement .fmtReadPos4 := by
  rintro - bs ⟨⟩
  rfl

theorem fmtReadPos5 : Statement .fmtReadPos5 := by
  rintro - bs ⟨⟩
  rfl

theorem fmtReadPos6 : Statement .fmtReadPos6 := by
  rintro - bs ⟨⟩
  rfl

theorem fmtBuzzer (d : Byte) : Statement (.fmtBuzzer d) := by
  rintro - bs ⟨⟩
  rfl

theorem rxFrame (len type : Byte) (body : List Byte) : Statement (.rxFrame len type body) := by
  intro hw bs e
  have hl : body.length = len.toNat - Machine.lenOverhead := by simpa [Instr.wellFormed] using hw
  cases e
  simp [frameSize, Machine.devIdRx, hl]

theorem chkOut (bs : List Byte) : Statement (.chkOut bs) := by
  rintro - bs ⟨⟩

theorem encode (form : EncodeForm) : Statement (.encode form) := by
  rintro - bs ⟨⟩

theorem chkIn (len type : Byte) (p : List Byte) : Statement (.chkIn len type p) := by
  rintro - bs ⟨⟩

theorem rxStart : Statement .rxStart := by
  rintro - bs ⟨⟩

theorem rxByteHunt (b : Byte) : Statement (.rxByteHunt b) := by
  rintro - bs ⟨⟩

theorem rxByteId (b : Byte) : Statement (.rxByteId b) := by
  rintro - bs ⟨⟩

theorem rxByteLen (b : Byte) : Statement (.rxByteLen b) := by
  rintro - bs ⟨⟩

theorem rxByteTypeValid (b : Byte) : Statement (.rxByteTypeValid b) := by
  rintro - bs ⟨⟩

theorem rxByteTypeInvalid (b : Byte) : Statement (.rxByteTypeInvalid b) := by
  rintro - bs ⟨⟩

theorem rxByteDataPayload (b : Byte) : Statement (.rxByteDataPayload b) := by
  rintro - bs ⟨⟩

theorem rxByteDataChecksum (b : Byte) : Statement (.rxByteDataChecksum b) := by
  rintro - bs ⟨⟩

theorem rxByteLimit (b : Byte) : Statement (.rxByteLimit b) := by
  rintro - bs ⟨⟩

theorem rxByteIdle (b : Byte) : Statement (.rxByteIdle b) := by
  rintro - bs ⟨⟩

theorem rxNodata : Statement .rxNodata := by
  rintro - bs ⟨⟩

theorem decode : Statement .decode := by
  rintro - bs ⟨⟩

theorem toPosition (id : Byte) (angle : Half) : Statement (.toPosition id angle) := by
  rintro - bs ⟨⟩

theorem toAngle (id : Byte) (pos : Half) : Statement (.toAngle id pos) := by
  rintro - bs ⟨⟩

theorem seqOpen (path : Path) : Statement (.seqOpen path) := by
  rintro - bs ⟨⟩

theorem seqWriteAll (a1 a2 a3 a4 a5 a6 time : Half) : Statement (.seqWriteAll a1 a2 a3 a4 a5 a6 time) := by
  rintro - bs ⟨⟩

theorem seqWriteOne (id : Byte) (angle time : Half) : Statement (.seqWriteOne id angle time) := by
  rintro - bs ⟨⟩

theorem seqSetTorque (enabled : Bool) : Statement (.seqSetTorque enabled) := by
  rintro - bs ⟨⟩

theorem seqPing (id : Int) : Statement (.seqPing id) := by
  rintro - bs ⟨⟩

theorem seqReadAngle (id : Int) : Statement (.seqReadAngle id) := by
  rintro - bs ⟨⟩

theorem seqClose : Statement .seqClose := by
  rintro - bs ⟨⟩

end Sys2Proof.Laws.EncodeSize

namespace Sys2Proof.Laws

open Sys2Proof

/-- No frame on the wire is longer than MAX_FRAME (R6). -/
theorem encodeFrame_length_le (i : Instr) (f : List Byte) (hw : i.wellFormed = true) (he : encodeFrame i = some f) :
    f.length ≤ Machine.maxFrame := by
  cases i with
  | rxFrame len type body =>
    have hl : body.length = len.toNat - Machine.lenOverhead := by simpa [Instr.wellFormed] using hw
    have := len.isLt
    cases he
    simp [Machine.maxFrame, Machine.lenOverhead] at *
    omega
  | _ => cases he <;> simp [Machine.maxFrame, Machine.bytes16]

end Sys2Proof.Laws
end

