-- ==== Sys2Proof/Tests/Slice0.lean ====
section
/-! SUPPORT. Own tests. The expected values are those of spec/95_test_vectors.md (section named beside each) or follow by
hand from the rule named; the witnesses show, for every statement with hypotheses, a state and operands that meet them. -/

namespace Sys2Proof.Tests

open Sys2Proof Sys2Proof.Machine Sys2Proof.Claims

/-! ### Helpers -/

/-- A client that may call a sequence, with the report type spec/95 uses for illustration. -/
def client : State :=
  { State.reset with
    seq := { life := .operating, att := 0 }
    par := { defaultParams with posReportType := 0x31#8 } }

/-- The client with these bytes unread, and these answers chosen by the environment before them. -/
def hearing (bs : List Byte) (next : List RxAnswer) : State :=
  { client with line := { client.line with held := bs, next := next } }

/-- The client with the assembler in this state, with RLEN, REM and SUM as given and one payload byte stored. -/
def scanning (st : ScanState) (rlen rem sum : Byte) : State :=
  { client with asm := { Asm.reset with st := st, rlen := rlen, rem := rem, sum := sum, pcnt := 1#8 } }

/-- A limit on the bytes of an invocation. -/
def limited (n : Nat) (s : State) : State := { s with par := { s.par with overallLimit := some n } }

/-- The outcome is a next state with this property. -/
def after (o : Host.Outcome State Fault Refusal) (p : State → Bool) : Bool :=
  match o with
  | .next t => p t
  | .fault _ => false
  | .refused _ => false

/-- The outcome is a next state whose operation answered `r`. -/
def gives (o : Host.Outcome State Fault Refusal) (r : Result) : Bool := after o fun t => decide (t.result = r)

/-- A client with this frame as its only request. -/
def asked (r : Request) : State := { client with inbox := [r] }

/-! ### Well-formedness -/

/-- A frame body shorter or longer than LEN announces is ill formed; LEN 2 announces none (R71, R73). -/
theorem test_wellFormed_frame :
    (Instr.rxFrame 0x06#8 0x31#8 [1#8, 7#8, 0xD0#8]).wellFormed = false
      ∧ (Instr.rxFrame 0x02#8 0x41#8 [0x44#8]).wellFormed = false
      ∧ (Instr.rxFrame 0x03#8 0x41#8 [0x44#8]).wellFormed = true
      ∧ (Instr.rxFrame 0x02#8 0x41#8 []).wellFormed = true := by decide

/-- A payload of 253 bytes is no operand of `CHK_IN`; one of 252 is (R100). -/
theorem test_wellFormed_chkIn :
    (Instr.chkIn 0xFF#8 0x55#8 (List.replicate 253 0#8)).wellFormed = false
      ∧ (Instr.chkIn 0xFF#8 0x55#8 (List.replicate 252 0#8)).wellFormed = true := by decide +kernel

/-- The step refuses ill-formed operands and bytes that spell nothing, each by name. -/
theorem test_step_refuses_no_operation :
    step (asked (.op (.rxFrame 0x06#8 0x31#8 []))) = .refused .illFormed
      ∧ step (asked (.frame [0x00#8, 0xFC#8, 0x03#8, 0x31#8])) = .refused (.undecodable .noHeader) :=
  ⟨rfl, rfl⟩

/-! ### Decoding: the bytes of spec/95 section 6.2 and 3.5, with and without the checksum -/

theorem test_decode_write_all : Sys2Proof.decode
    [0xFF#8, 0xFC#8, 0x11#8, 0x1D#8, 0x05#8, 0xAA#8, 0x05#8, 0xAA#8, 0x09#8, 0x3E#8, 0x06#8, 0x61#8, 0x0B#8, 0x17#8,
      0x03#8, 0xFE#8, 0x07#8, 0xD0#8, 0x34#8] = .ok (.fmtWriteAll 1450#16 1450#16 2366#16 1633#16 2839#16 1022#16 2000#16) := by
  decide

theorem test_decode_write_one :
    Sys2Proof.decode [0xFF#8, 0xFC#8, 0x07#8, 0x11#8, 0x03#8, 0x84#8, 0x00#8, 0x00#8, 0x9F#8] = .ok (.fmtWriteOne1 900#16 0#16)
      ∧ Sys2Proof.decode [0xFF#8, 0xFC#8, 0x07#8, 0x12#8, 0x0A#8, 0xAD#8, 0x03#8, 0xE8#8] = .ok (.fmtWriteOne2 2733#16 1000#16)
      ∧ Sys2Proof.decode [0xFF#8, 0xFC#8, 0x07#8, 0x13#8, 0x0A#8, 0xAD#8, 0x03#8, 0xE8#8, 0xBC#8] = .ok (.fmtWriteOne3 2733#16 1000#16)
      ∧ Sys2Proof.decode [0xFF#8, 0xFC#8, 0x07#8, 0x14#8, 0x0A#8, 0xAD#8, 0x03#8, 0xE8#8, 0xBD#8] = .ok (.fmtWriteOne4 2733#16 1000#16)
      ∧ Sys2Proof.decode [0xFF#8, 0xFC#8, 0x07#8, 0x15#8, 0x01#8, 0x7C#8, 0xFF#8, 0xFF#8, 0x97#8] = .ok (.fmtWriteOne5 380#16 65535#16)
      ∧ Sys2Proof.decode [0xFF#8, 0xFC#8, 0x07#8, 0x16#8, 0x0C#8, 0x1C#8, 0x01#8, 0xF4#8] = .ok (.fmtWriteOne6 3100#16 500#16) := by
  decide

theorem test_decode_one_byte :
    Sys2Proof.decode [0xFF#8, 0xFC#8, 0x04#8, 0x1A#8, 0x01#8, 0x1F#8] = .ok (.fmtTorque 0x01#8)
      ∧ Sys2Proof.decode [0xFF#8, 0xFC#8, 0x04#8, 0x38#8, 0xC4#8, 0x00#8] = .ok (.fmtPing 196#8)
      ∧ Sys2Proof.decode [0xFF#8, 0xFC#8, 0x04#8, 0x06#8, 0x0A#8] = .ok (.fmtBuzzer 10#8) := by decide

theorem test_decode_read_pos :
    Sys2Proof.decode [0xFF#8, 0xFC#8, 0x03#8, 0x31#8, 0x34#8] = .ok .fmtReadPos1
      ∧ Sys2Proof.decode [0xFF#8, 0xFC#8, 0x03#8, 0x32#8, 0x35#8] = .ok .fmtReadPos2
      ∧ Sys2Proof.decode [0xFF#8, 0xFC#8, 0x03#8, 0x33#8] = .ok .fmtReadPos3
      ∧ Sys2Proof.decode [0xFF#8, 0xFC#8, 0x03#8, 0x34#8] = .ok .fmtReadPos4
      ∧ Sys2Proof.decode [0xFF#8, 0xFC#8, 0x03#8, 0x35#8, 0x38#8] = .ok .fmtReadPos5
      ∧ Sys2Proof.decode [0xFF#8, 0xFC#8, 0x03#8, 0x36#8, 0x39#8] = .ok .fmtReadPos6 := by decide

theorem test_decode_incoming :
    Sys2Proof.decode [0xFF#8, 0xFB#8, 0x06#8, 0x31#8, 0x01#8, 0x07#8, 0xD0#8, 0x0F#8]
        = .ok (.rxFrame 0x06#8 0x31#8 [0x01#8, 0x07#8, 0xD0#8, 0x0F#8])
      ∧ Sys2Proof.decode [0xFF#8, 0xFB#8, 0x00#8, 0x00#8] = .ok (.rxFrame 0#8 0#8 []) := by decide

theorem test_decode_rejects_by_name :
    Sys2Proof.decode [0xFF#8, 0xFC#8, 0x04#8, 0x38#8] = .error .truncated
      ∧ Sys2Proof.decode [0xFF#8, 0xFD#8, 0x04#8, 0x38#8, 0x07#8] = .error .badDevice
      ∧ Sys2Proof.decode [0xFF#8, 0xFC#8, 0x07#8, 0x17#8, 0#8, 0#8, 0#8, 0#8] = .error .unknownCommand
      ∧ Sys2Proof.decode [0xFF#8, 0xFC#8, 0x03#8, 0x31#8, 0x34#8, 0x68#8] = .error .trailing
      ∧ Sys2Proof.decode [0xFF#8, 0xFB#8, 0x03#8, 0x41#8, 0x44#8, 0x44#8] = .error .trailing := by decide

/-! ### Formatters (section 6.2): through the fetch, by their own frames -/

theorem test_fmtWriteAll : gives (exec (.fmtWriteAll 900#16 3100#16 3100#16 3100#16 3700#16 900#16 1000#16) client)
    (.bytes [0xFF#8, 0xFC#8, 0x11#8, 0x1D#8, 0x03#8, 0x84#8, 0x0C#8, 0x1C#8, 0x0C#8, 0x1C#8, 0x0C#8, 0x1C#8, 0x0E#8,
      0x74#8, 0x03#8, 0x84#8, 0x03#8, 0xE8#8]) = true := by decide +kernel

theorem test_fmtWriteOne :
    gives (exec (.fmtWriteOne1 2733#16 1000#16) client) (.bytes [0xFF#8, 0xFC#8, 0x07#8, 0x11#8, 0x0A#8, 0xAD#8, 0x03#8, 0xE8#8]) = true
      ∧ gives (exec (.fmtWriteOne2 2733#16 1000#16) client) (.bytes [0xFF#8, 0xFC#8, 0x07#8, 0x12#8, 0x0A#8, 0xAD#8, 0x03#8, 0xE8#8]) = true
      ∧ gives (exec (.fmtWriteOne3 2733#16 1000#16) client) (.bytes [0xFF#8, 0xFC#8, 0x07#8, 0x13#8, 0x0A#8, 0xAD#8, 0x03#8, 0xE8#8]) = true
      ∧ gives (exec (.fmtWriteOne4 2733#16 1000#16) client) (.bytes [0xFF#8, 0xFC#8, 0x07#8, 0x14#8, 0x0A#8, 0xAD#8, 0x03#8, 0xE8#8]) = true
      ∧ gives (exec (.fmtWriteOne5 3700#16 0#16) client) (.bytes [0xFF#8, 0xFC#8, 0x07#8, 0x15#8, 0x0E#8, 0x74#8, 0#8, 0#8]) = true
      ∧ gives (exec (.fmtWriteOne6 3100#16 500#16) client) (.bytes [0xFF#8, 0xFC#8, 0x07#8, 0x16#8, 0x0C#8, 0x1C#8, 0x01#8, 0xF4#8]) = true := by
  decide +kernel

theorem test_fmtShort :
    gives (step (asked (.frame [0xFF#8, 0xFC#8, 0x04#8, 0x1A#8, 0x01#8, 0x1F#8]))) (.bytes [0xFF#8, 0xFC#8, 0x04#8, 0x1A#8, 0x01#8]) = true
      ∧ gives (exec (.fmtPing 250#8) client) (.bytes [0xFF#8, 0xFC#8, 0x04#8, 0x38#8, 0xFA#8]) = true
      ∧ gives (exec (.fmtBuzzer 255#8) client) (.bytes [0xFF#8, 0xFC#8, 0x04#8, 0x06#8, 0xFF#8]) = true := by
  decide +kernel

theorem test_fmtReadPos :
    gives (exec .fmtReadPos1 client) (.bytes [0xFF#8, 0xFC#8, 0x03#8, 0x31#8]) = true
      ∧ gives (exec .fmtReadPos2 client) (.bytes [0xFF#8, 0xFC#8, 0x03#8, 0x32#8]) = true
      ∧ gives (exec .fmtReadPos3 client) (.bytes [0xFF#8, 0xFC#8, 0x03#8, 0x33#8]) = true
      ∧ gives (exec .fmtReadPos4 client) (.bytes [0xFF#8, 0xFC#8, 0x03#8, 0x34#8]) = true
      ∧ gives (exec .fmtReadPos5 client) (.bytes [0xFF#8, 0xFC#8, 0x03#8, 0x35#8]) = true
      ∧ gives (exec .fmtReadPos6 client) (.bytes [0xFF#8, 0xFC#8, 0x03#8, 0x36#8]) = true := by decide +kernel

/-! ### Unit ENC (sections 2.1, 2.2) -/

theorem test_chkOut :
    gives (exec (.chkOut [0xFF#8, 0xFC#8, 0x04#8, 0x38#8, 0xC4#8]) client) (.byte 0x00#8) = true
      ∧ gives (exec (.chkOut []) client) (.byte 0x05#8) = true := by decide +kernel

theorem test_encode :
    gives (exec (.encode (.whole [0xFF#8, 0xFC#8, 0x03#8, 0x31#8, 0x34#8])) client)
        (.bytes [0xFF#8, 0xFC#8, 0x03#8, 0x31#8, 0x34#8, 0x68#8]) = true
      ∧ after (exec (.encode (.byte 0xFF#8)) { client with enc := { tst := .busy, tsum := 5#8, out := [] } })
        (fun t => decide (t.enc = { tst := .busy, tsum := 4#8, out := [0xFF#8] })) = true := by decide +kernel

theorem test_chkIn :
    gives (exec (.chkIn 0x06#8 0x41#8 [0x02#8, 0x0A#8, 0xAD#8]) client) (.byte 0x00#8) = true
      ∧ gives (exec (.chkIn 0x07#8 0x31#8 [0x02#8, 0x0A#8, 0xAD#8, 0x99#8]) client) (.byte 0x8A#8) = true := by
  decide +kernel

/-! ### Unit ASM, one event (sections 3.1 to 3.7) -/

theorem test_rxStart :
    after (exec .rxStart { client with asm := { Asm.reset with res := .rOk, ncons := 9 } })
      (fun t => decide (t.asm.st = .hunt ∧ t.asm.res = .rNone ∧ t.asm.ncons = 0)) = true
      ∧ exec .rxStart (scanning .id 0#8 0#8 0#8) = .refused .decodeRunning := ⟨by decide +kernel, rfl⟩

theorem test_rxByteHunt :
    after (exec (.rxByteHunt 0xFF#8) (scanning .hunt 0#8 0#8 0#8)) (fun t => decide (t.asm.st = .id)) = true
      ∧ after (exec (.rxByteHunt 0xFB#8) (scanning .hunt 0#8 0#8 0#8)) (fun t => decide (t.asm.st = .hunt)) = true := by
  decide +kernel

theorem test_rxByteId :
    after (exec (.rxByteId 0xFB#8) (scanning .id 0#8 0#8 0#8)) (fun t => decide (t.asm.st = .len)) = true
      ∧ after (exec (.rxByteId 0xFF#8) (scanning .id 0#8 0#8 0#8)) (fun t => decide (t.asm.st = .hunt)) = true := by
  decide +kernel

theorem test_rxByteLen :
    after (exec (.rxByteLen 0xFB#8) (scanning .len 0#8 0#8 0#8))
      (fun t => decide (t.asm.st = .typ ∧ t.asm.rlen = 0xFB#8)) = true := by decide +kernel

theorem test_rxByteTypeValid :
    after (exec (.rxByteTypeValid 0x31#8) (scanning .typ 6#8 0#8 0#8))
      (fun t => decide (t.asm.st = .data ∧ t.asm.rtype = 0x31#8 ∧ t.asm.rem = 4#8 ∧ t.asm.sum = 0x37#8 ∧ t.asm.pcnt = 0#8))
      = true := by decide +kernel

theorem test_rxByteTypeInvalid :
    after (exec (.rxByteTypeInvalid 0x41#8) (scanning .typ 2#8 0#8 0#8))
      (fun t => decide (t.asm.st = .idle ∧ t.asm.rtype = 0x41#8 ∧ t.asm.res = .rBadLen)) = true := by decide +kernel

theorem test_rxByteDataPayload :
    after (exec (.rxByteDataPayload 0x07#8) (scanning .data 6#8 3#8 0x38#8))
      (fun t => decide (t.asm.st = .data ∧ t.asm.rem = 2#8 ∧ t.asm.sum = 0x3F#8 ∧ t.asm.pcnt = 2#8
        ∧ payloadOf t.asm = [0#8, 0x07#8])) = true := by decide +kernel

theorem test_rxByteDataChecksum :
    after (exec (.rxByteDataChecksum 0x43#8) (scanning .data 4#8 1#8 0x43#8))
      (fun t => decide (t.asm.st = .idle ∧ t.asm.res = .rOk)) = true
      ∧ after (exec (.rxByteDataChecksum 0x42#8) (scanning .data 4#8 1#8 0x43#8))
        (fun t => decide (t.asm.st = .hunt ∧ t.asm.res = .rNone)) = true := by decide +kernel

/-- Section 3.6: the byte that uses up the limit ends the invocation unless its own rule has ended it. -/
theorem test_rxByteLimit :
    after (exec (.rxByteLimit 0x00#8) (limited 1 (scanning .hunt 0#8 0#8 0#8)))
      (fun t => decide (t.asm.st = .idle ∧ t.asm.res = .rLimit ∧ t.asm.ncons = 1)) = true
      ∧ after (exec (.rxByteLimit 0x41#8) (limited 1 (scanning .typ 2#8 0#8 0#8)))
        (fun t => decide (t.asm.st = .idle ∧ t.asm.res = .rBadLen)) = true := by decide +kernel

theorem test_rxByteIdle :
    after (exec (.rxByteIdle 0xFF#8) client) (fun t => decide (t.asm = client.asm ∧ t.line.held = [0xFF#8])) = true := by
  decide +kernel

theorem test_rxNodata :
    after (exec .rxNodata (scanning .data 6#8 2#8 0x3F#8)) (fun t => decide (t.asm.st = .idle ∧ t.asm.res = .rTimeout)) = true
      ∧ after (exec .rxNodata client) (fun t => decide (t = client)) = true := by decide +kernel

theorem test_rxFrame :
    after (exec (.rxFrame 0x03#8 0x41#8 [0x44#8]) (scanning .hunt 0#8 0#8 0#8))
      (fun t => decide (t.asm.st = .idle ∧ t.asm.res = .rOk ∧ t.line.held = [])) = true
      ∧ after (exec (.rxFrame 0x03#8 0x41#8 [0x45#8]) (scanning .hunt 0#8 0#8 0#8))
        (fun t => decide (t.asm.st = .hunt ∧ t.asm.res = .rNone)) = true := by decide +kernel

/-- Section 3.3, second and last line but two: what follows the frame stays unread. -/
theorem test_decode :
    after (exec .decode (hearing [0x00#8, 0xFF#8, 0xFB#8, 0x03#8, 0x41#8, 0x44#8, 0x99#8] []))
      (fun t => decide (t.result = .frame 0x03#8 0x41#8 [] ∧ t.line.held = [0x99#8])) = true
      ∧ after (exec .decode (hearing [] ([0xFF#8, 0xFB#8, 0x05#8, 0x41#8, 0xFF#8, 0xFB#8, 0x03#8, 0x41#8, 0x44#8].map
          RxAnswer.byte ++ [.noData])))
        (fun t => decide (t.result = .decodeErr .rTimeout ∧ t.line.held = [] ∧ t.line.next = [])) = true := by
  decide +kernel

/-- R41: NoData removes nothing, also while bytes are unread; a byte handed over is thereby no longer unread. -/
theorem test_rxNext :
    after (exec .decode (hearing [0xFF#8] [.noData]))
      (fun t => decide (t.result = .decodeErr .rTimeout ∧ t.line.held = [0xFF#8] ∧ t.line.next = [])) = true
      ∧ after (exec (.rxByteHunt 0xFF#8)
          { scanning .hunt 0#8 0#8 0#8 with line := { client.line with held := [0xFF#8, 0x13#8] } })
        (fun t => decide (t.asm.st = .id ∧ t.line.held = [0x13#8])) = true := by decide +kernel

/-- R94 against R100: FF FB 04 00 00 04 with a zero byte put in and LEN adjusted to 5 has another checksum, and is rejected
(log entry 30). -/
theorem test_zero_bytes_are_detected :
    after (exec (.rxFrame 0x05#8 0x00#8 [0x00#8, 0x00#8, 0x04#8]) (scanning .hunt 0#8 0#8 0#8))
      (fun t => decide (t.asm.st = .hunt ∧ t.asm.res = .rNone)) = true := by decide +kernel

/-- R5: the three reflected servos. -/
theorem test_invertedIds : invertedIds.map BitVec.toNat = [2, 3, 4] := by decide

/-- R23: the payload bytes and the frame's registers after R_OK (section 3.3). -/
theorem test_signals :
    after (exec .decode (hearing [0xFF#8, 0xFB#8, 0x06#8, 0x31#8, 0x01#8, 0x07#8, 0xD0#8, 0x0F#8] []))
      (fun t => decide (t.busy = false ∧ t.resOut = 1 ∧ t.rlenOut = 0x06#8 ∧ t.rtypeOut = 0x31#8 ∧ t.pcntOut = 3#8
        ∧ t.pbufRd 0 = 0x01#8 ∧ t.pbufRd 2 = 0xD0#8)) = true := by decide +kernel

/-! ### Unit MAP (sections 4.1, 4.2) -/

theorem test_toPosition :
    gives (exec (.toPosition 2#8 30#16) client) (.position 2733#16) = true
      ∧ gives (exec (.toPosition 6#8 270#16) client) (.mapErr .errRange) = true := by decide +kernel

theorem test_toAngle :
    gives (exec (.toAngle 2#8 955#16) client) (.angle 175#16) = true
      ∧ gives (exec (.toAngle 5#8 3707#16) client) (.mapErr .errRange) = true := by decide +kernel

/-- Sections 4.2: an exact half under the three tie rules, and below zero. -/
theorem test_roundTies :
    roundTies .halfUp 27 2 = 14 ∧ roundTies .halfEven 27 2 = 14 ∧ roundTies .halfDown 27 2 = 13
      ∧ roundTies .halfUp (-1) 2 = 0 ∧ roundTies .halfEven (-1) 2 = 0 ∧ roundTies .halfDown (-1) 2 = -1 := by decide

/-- Section 5: the ends and a middle entry of both tables. -/
theorem test_tables :
    tabStd 0 = 900 ∧ tabStd 150 = 2733 ∧ tabStd 180 = 3100 ∧ tabS5 0 = 380 ∧ tabS5 105 = 1671 ∧ tabS5 270 = 3700 := by
  decide

/-! ### Layer SEQ (section 7) -/

theorem test_seqOpen :
    after (exec (.seqOpen [0x2F#8]) State.reset)
      (fun t => decide (t.seq.life = .operating ∧ t.line.handle = some [0x2F#8] ∧ t.line.tx = [])) = true
      ∧ after (exec (.seqOpen [0x2F#8]) { State.reset with line := { State.reset.line with openNext := [false] } })
        (fun t => decide (t.seq.life = .closed ∧ t.result = .err .connection ∧ t.line.handle = none)) = true := by
  decide +kernel

theorem test_seqWriteAll :
    after (exec (.seqWriteAll 90#16 90#16 90#16 90#16 90#16 90#16 500#16) client)
      (fun t => decide (t.line.tx = [0xFF#8, 0xFC#8, 0x11#8, 0x1D#8, 0x07#8, 0xD0#8, 0x07#8, 0xD0#8, 0x07#8, 0xD0#8,
        0x07#8, 0xD0#8, 0x05#8, 0xCE#8, 0x07#8, 0xD0#8, 0x01#8, 0xF4#8, 0x29#8])) = true
      ∧ after (exec (.seqWriteAll 90#16 90#16 90#16 90#16 90#16 0xFFFF#16 500#16) client)
        (fun t => decide (t.line.tx = [] ∧ t.result = .err .rangeAngle)) = true := by decide +kernel

/-- A short write is reported and not retried. -/
theorem test_seqWriteOne :
    after (exec (.seqWriteOne 2#8 30#16 1000#16) { client with line := { client.line with txNext := [.accepted 4] } })
      (fun t => decide (t.line.tx = [0xFF#8, 0xFC#8, 0x07#8, 0x12#8] ∧ t.line.reports = [.partialWrite 4 9]
        ∧ t.result = .done)) = true
      ∧ gives (exec (.seqWriteOne 0#8 200#16 500#16) client) (.err .rangeAngle) = true := by decide +kernel

theorem test_seqSetTorque :
    after (exec (.seqSetTorque true) client)
      (fun t => decide (t.line.tx = [0xFF#8, 0xFC#8, 0x04#8, 0x1A#8, 0x01#8, 0x1F#8])) = true
      ∧ after (exec (.seqSetTorque false) { client with line := { client.line with txNext := [.ioFail] } })
        (fun t => decide (t.line.tx = [] ∧ t.line.reports = [.ioError] ∧ t.result = .done)) = true := by
  decide +kernel

theorem test_seqPing :
    after (exec (.seqPing 7) (hearing [0xFF#8, 0xFB#8, 0x04#8, 0x38#8, 0x07#8, 0x43#8] []))
      (fun t => decide (t.result = .code 7#8 ∧ t.line.tx = [0xFF#8, 0xFC#8, 0x04#8, 0x38#8, 0x07#8, 0x43#8])) = true
      ∧ after (exec (.seqPing 251) client) (fun t => decide (t.result = .err .rangeId ∧ t.line.tx = [])) = true := by
  decide +kernel

/-- A silent first cycle, a report in the second; and a type that is no position report. -/
theorem test_seqReadAngle :
    after (exec (.seqReadAngle 2) (hearing [] [.noData, .byte 0xFF#8, .byte 0xFB#8, .byte 0x06#8, .byte 0x31#8,
        .byte 0x02#8, .byte 0x0A#8, .byte 0xAD#8, .byte 0xF0#8]))
      (fun t => decide (t.result = .degrees 30 ∧ t.seq.att = 2 ∧ t.line.tx = [0xFF#8, 0xFC#8, 0x03#8, 0x32#8, 0x35#8,
        0xFF#8, 0xFC#8, 0x03#8, 0x32#8, 0x35#8])) = true
      ∧ after (exec (.seqReadAngle 2) (hearing [0xFF#8, 0xFB#8, 0x06#8, 0x41#8, 0x02#8, 0x0A#8, 0xAD#8, 0x00#8] []))
        (fun t => decide (t.result = .degrees (-1) ∧ t.seq.att = 1)) = true := by decide +kernel

theorem test_seqClose :
    after (exec .seqClose { client with line := { client.line with handle := some [], held := [7#8] } })
      (fun t => decide (t.seq.life = .closed ∧ t.line.handle = none ∧ t.line.releases = 1 ∧ t.line.held = [])) = true
      ∧ after (exec .seqClose State.reset) (fun t => decide (t.line = State.reset.line)) = true := by decide +kernel

/-! ### Witnesses: the hypotheses of each statement, met -/

/-- A running invocation that has taken one of the three payload bytes of a frame with LEN 6. -/
def receiving : State := scanning .data 6#8 3#8 6#8

/-- The same with the sixth request waiting for it. -/
def waiting (c : Call) (att : Nat) : State :=
  { scanning .hunt 0#8 0#8 0#8 with call := c, seq := { life := .operating, att := att } }

/-- A frame of a report of servo 1 at 90 degrees, LEN 6. -/
def report : List Byte := [0xFF#8, 0xFB#8, 0x06#8, 0x31#8, 0x01#8, 0x07#8, 0xD0#8, 0x0F#8]

theorem witness_receiving_inv : receiving.Inv := by
  refine ⟨⟨by decide +kernel, by decide +kernel, by decide +kernel, by decide +kernel, by decide +kernel⟩, ?_,
    by decide +kernel, by decide +kernel, ?_⟩
  · intro n h; cases h
  · intro id h; cases h

theorem witness_StepFromTheInvariantNeverFaults : ∃ s : State, s.Inv ∧ s.asm.st = .data :=
  ⟨receiving, witness_receiving_inv, rfl⟩

/-- A payload byte is taken. -/
theorem witness_StepKeepsTheInvariant : ∃ s t : State, s.Inv ∧ step s = .next t ∧ s.asm.st = .data ∧ t.asm.pcnt = 2#8 :=
  ⟨{ receiving with inbox := [.op (.rxByteDataPayload 7#8)] }, _,
    ⟨witness_receiving_inv.1, witness_receiving_inv.2, witness_receiving_inv.3, witness_receiving_inv.4,
      witness_receiving_inv.5⟩, rfl, rfl, by decide +kernel⟩

theorem witness_StepOnlyAppendsAndKeepsParameters : ∃ s t : State, step s = .next t ∧ t.line.tx.length = 6 :=
  ⟨asked (.op (.seqSetTorque true)), _, rfl, by decide +kernel⟩

theorem witness_EncoderAndAssemblerShareNothing :
    (∃ (i : Instr) (s t : State), exec i s = .next t ∧ (∀ form, i ≠ .encode form) ∧ t.asm.st = .hunt)
      ∧ ∃ (i : Instr) (s t : State), exec i s = .next t ∧ i = .encode .start ∧ t.enc.tst = .busy :=
  ⟨⟨.rxStart, client, _, rfl, by simp, rfl⟩, ⟨.encode .start, client, _, rfl, rfl, rfl⟩⟩

theorem witness_OnlyOpenAndCloseChangeLife : ∃ (i : Instr) (s t : State), exec i s = .next t ∧ t.seq.life ≠ s.seq.life :=
  ⟨.seqClose, client, _, rfl, by decide⟩

theorem witness_OnlySequencesWriteToTheTransport :
    ∃ (i : Instr) (s t : State), exec i s = .next t ∧ isSequence i = false ∧ s.call = .none :=
  ⟨.decode, hearing report [], _, rfl, rfl, rfl⟩

/-- One witness per clause, in the statement's order. -/
theorem witness_StepRunsTheRequestedOperation :
    (∃ (s : State) (i : Instr), i.wellFormed = true ∧ s.inbox = .op i :: [])
      ∧ (∃ (s : State) (i : Instr) (bs : List Byte), i.wellFormed = true ∧ s.inbox = .frame bs :: []
        ∧ Sys2Proof.decode bs = .ok i)
      ∧ (∃ (s : State) (i : Instr), i.wellFormed = false ∧ s.inbox = .op i :: [])
      ∧ (∃ (s : State) (bs : List Byte) (e : DecodeError), Sys2Proof.decode bs = .error e ∧ s.inbox = .frame bs :: [])
      ∧ (∃ s : State, s.inbox = [] ∧ s.asm.st = .idle)
      ∧ (∃ s : State, s.inbox = [] ∧ s.asm.st ≠ .idle ∧ answers s.line = [])
      ∧ (∃ (s : State) (b : Byte), s.inbox = [] ∧ s.asm.st ≠ .idle ∧ s.call = .ping ∧ s.line.next = [.byte b])
      ∧ (∃ s : State, s.inbox = [] ∧ s.asm.st ≠ .idle ∧ s.call = .ping ∧ s.line.next = [.noData])
      ∧ (∃ (s : State) (b : Byte), s.inbox = [] ∧ s.asm.st ≠ .idle ∧ s.call = .ping ∧ s.line.next = [] ∧ s.line.held = [b])
      ∧ (∃ (s : State) (b : Byte) (a : Asm), s.inbox = [] ∧ s.asm.st ≠ .idle ∧ s.call = .none ∧ s.line.next = [.byte b]
        ∧ Asm.byte s.par b s.asm = .ok a)
      ∧ (∃ (s : State) (b : Byte) (a : Asm), s.inbox = [] ∧ s.asm.st ≠ .idle ∧ s.call = .none ∧ s.line.next = []
        ∧ s.line.held = [b] ∧ Asm.byte s.par b s.asm = .ok a)
      ∧ ∃ s : State, s.inbox = [] ∧ s.asm.st ≠ .idle ∧ s.call = .none ∧ s.line.next = [.noData] :=
  ⟨⟨asked (.op .rxStart), _, rfl, rfl⟩,
    ⟨asked (.frame [0xFF#8, 0xFC#8, 0x03#8, 0x31#8]), .fmtReadPos1, _, rfl, rfl, by decide⟩,
    ⟨asked (.op (.rxFrame 6#8 0#8 [])), _, rfl, rfl⟩,
    ⟨asked (.frame []), _, .truncated, rfl, rfl⟩,
    ⟨client, rfl, rfl⟩,
    ⟨receiving, rfl, by decide, rfl⟩,
    ⟨{ receiving with call := .ping, line := { receiving.line with next := [.byte 7#8] } }, 7#8, rfl, by decide, rfl, rfl⟩,
    ⟨{ receiving with call := .ping, line := { receiving.line with next := [.noData] } }, rfl, by decide, rfl, rfl⟩,
    ⟨{ receiving with call := .ping, line := { receiving.line with held := [7#8] } }, 7#8, rfl, by decide, rfl, rfl, rfl⟩,
    ⟨{ receiving with line := { receiving.line with next := [.byte 7#8] } }, 7#8, _, rfl, by decide, rfl, rfl, rfl⟩,
    ⟨{ receiving with line := { receiving.line with held := [7#8] } }, 7#8, _, rfl, by decide, rfl, rfl, rfl, rfl⟩,
    ⟨{ receiving with line := { receiving.line with next := [.noData] } }, rfl, by decide, rfl, rfl⟩⟩

theorem witness_DecodeReadsBackWhatEncodeWrites : ∃ (i : Instr) (bs f : List Byte),
    i.wellFormed = true ∧ encode i = some bs ∧ encodeFrame i = some f :=
  ⟨.fmtWriteOne5 3700#16 65535#16, _, _, rfl, rfl, rfl⟩

theorem witness_DecodeAcceptsOnlyEncodings : ∃ (bs : List Byte) (i : Instr), Sys2Proof.decode bs = .ok i :=
  ⟨[0xFF#8, 0xFC#8, 0x04#8, 0x38#8, 0x07#8, 0x43#8], .fmtPing 7#8, by decide⟩

theorem witness_FormattersAnswerSelfDescribingFrames : ∃ (i : Instr) (bs : List Byte),
    encode i = some bs ∧ ∀ l t body, i ≠ .rxFrame l t body :=
  ⟨.fmtReadPos6, _, rfl, by simp⟩

theorem witness_ChecksumIgnoresOrderAndGrowsByteByByte : ∃ bs cs : List Byte, bs.Perm cs ∧ bs ≠ cs :=
  ⟨[1#8, 2#8], [2#8, 1#8], by decide, by decide⟩

theorem witness_OneChangedByteIsDetected : ∃ b c : Byte, b ≠ c := ⟨0x00#8, 0xFF#8, by decide⟩

theorem witness_EncodeAndItsEvents :
    client.enc.tst = .idle ∧ ({ client with enc := { tst := .busy, tsum := 0xFF#8, out := [0xFF#8] } } : State).enc.tst = .busy :=
  ⟨rfl, rfl⟩

theorem witness_EncoderEventsEmitTheEncodedFrame : ∃ (cmd : List Byte) (s : State), s.enc.tst = .idle
    ∧ s.inbox = .op (.encode .start) :: (cmd.map fun b => Request.op (.encode (.byte b))) ++ (.op (.encode .stop) :: []) :=
  ⟨[0xFF#8, 0xFC#8, 0x03#8, 0x31#8], { client with inbox := [.op (.encode .start), .op (.encode (.byte 0xFF#8)),
    .op (.encode (.byte 0xFC#8)), .op (.encode (.byte 0x03#8)), .op (.encode (.byte 0x31#8)), .op (.encode .stop)] }, rfl, rfl⟩

theorem witness_IdleAssemblerConsumesNothing : (hearing report []).asm.st = .idle := rfl

theorem witness_RxStartBeginsAndNoDataEndsAnInvocation :
    client.asm.st = .idle ∧ receiving.asm.st ≠ .idle ∧ receiving.call = .none := by decide +kernel

theorem witness_RxByteInHuntScansForTheHeader :
    (scanning .hunt 0#8 0#8 0#8).asm.st = .hunt ∧ (scanning .hunt 0#8 0#8 0#8).par.overallLimit = none := ⟨rfl, rfl⟩

theorem witness_RxByteInIdChecksTheDeviceId :
    (scanning .id 0#8 0#8 0#8).asm.st = .id ∧ (scanning .id 0#8 0#8 0#8).par.overallLimit = none := ⟨rfl, rfl⟩

theorem witness_RxByteInLenStoresTheLength :
    (scanning .len 0#8 0#8 0#8).asm.st = .len ∧ (scanning .len 0#8 0#8 0#8).par.overallLimit = none := ⟨rfl, rfl⟩

theorem witness_RxByteInTypeStartsTheData :
    let s := scanning .typ 3#8 0#8 0#8
    s.asm.st = .typ ∧ 3 ≤ s.asm.rlen.toNat ∧ s.par.overallLimit = none := by decide +kernel

theorem witness_RxByteInTypeFailsOnAShortLength :
    let s := scanning .typ 2#8 0#8 0#8
    s.asm.st = .typ ∧ s.asm.rlen.toNat < 3 ∧ s.par.overallLimit = none ∧ s.call = .none := by decide +kernel

theorem witness_RxByteInDataStoresThePayload :
    let s := scanning .data 5#8 2#8 0x38#8
    s.asm.pcnt.toNat < 252 ∧ s.asm.st = .data ∧ 1 < s.asm.rem.toNat ∧ s.par.overallLimit = none := by decide +kernel

theorem witness_RxByteInDataChecksTheChecksum :
    let s := scanning .data 4#8 1#8 0x43#8
    s.asm.st = .data ∧ s.asm.rem = 1#8 ∧ s.par.overallLimit = none ∧ s.call = .none := by decide +kernel

theorem witness_RxByteIsCountedAgainstTheLimit :
    (receiving.asm.Inv ∧ receiving.asm.st ≠ .idle ∧ receiving.call = .none ∧ receiving.par.overallLimit = none)
      ∧ ((limited 5 receiving).asm.Inv ∧ (limited 5 receiving).asm.st ≠ .idle ∧ (limited 5 receiving).call = .none
        ∧ (limited 5 receiving).par.overallLimit = some 5) :=
  ⟨⟨witness_receiving_inv.1, by decide, rfl, rfl⟩, ⟨witness_receiving_inv.1, by decide, rfl, rfl⟩⟩

/-- A frame with a payload: the first and the last index below PCNT, and PCNT at its bound. -/
theorem witness_OutputSignalsShowTheRegisters :
    let s : State := { client with asm := { Asm.reset with res := .rOk, rlen := 6#8, pcnt := 3#8 } }
    s.asm.res = .rOk ∧ 0 < s.asm.pcnt.toNat ∧ 2 < s.asm.pcnt.toNat ∧ s.asm.pcnt.toNat ≤ 252
      ∧ ({ Asm.reset with res := .rOk, pcnt := 252#8 } : Asm).pcnt.toNat ≤ 252 := by decide +kernel

/-- The shortest frame, the longest, and a length below 3; a checksum that is not the frame's. -/
theorem witness_HuntingAssemblerJudgesTheFrame :
    ((waiting .none 0).asm.st = .hunt ∧ (waiting .none 0).par.overallLimit = none
        ∧ (waiting .none 0).call = .none)
      ∧ (3 ≤ (3#8 : Byte).toNat ∧ ([] : List Byte).length = (3#8 : Byte).toNat - 3)
      ∧ (3 ≤ (0xFF#8 : Byte).toNat ∧ (List.replicate 252 0#8 : List Byte).length = (0xFF#8 : Byte).toNat - 3)
      ∧ (2#8 : Byte).toNat < 3 ∧ (0#8 : Byte) ≠ incomingChecksum 3#8 0x41#8 [] := by
  exact ⟨by decide +kernel, by decide, ⟨by decide, List.length_replicate⟩, by decide, by decide⟩

/-- An invocation that ends, and one that waits. -/
theorem witness_DecodeRunsTheTransportsAnswers :
    (∃ (s : State) (a : Asm) (used rest : List RxAnswer), s.asm.st = .idle ∧ answers s.line = used ++ rest
      ∧ Asm.run s.par (fun x => x) (answers s.line) { s.asm with st := .hunt, res := .rNone, ncons := 0 } = .ok (a, rest)
      ∧ a.st = .idle ∧ rest ≠ [])
    ∧ ∃ (s : State) (a : Asm) (used rest : List RxAnswer), s.asm.st = .idle ∧ answers s.line = used ++ rest
      ∧ Asm.run s.par (fun x => x) (answers s.line) { s.asm with st := .hunt, res := .rNone, ncons := 0 } = .ok (a, rest)
      ∧ a.st ≠ .idle :=
  ⟨⟨hearing [] [.noData, .byte 0xFF#8], _, [.noData], [.byte 0xFF#8], rfl, rfl, rfl, rfl, by simp⟩,
    ⟨hearing [0xFF#8] [], _, [.byte 0xFF#8], [], rfl, rfl, rfl, by decide⟩⟩

theorem witness_DecodeAlwaysReturnsOrWaits : (hearing report [.noData]).asm.st = .idle := rfl

theorem witness_AcceptedFramesWereReceived : ∃ s t : State, s.asm.st = .idle ∧ exec .decode s = .next t
    ∧ t.result = .frame 0x06#8 0x31#8 [0x01#8, 0x07#8, 0xD0#8] :=
  ⟨hearing report [], _, rfl, rfl, by decide +kernel⟩

theorem witness_FrameBehindCleanNoiseIsDecoded :
    let s := hearing ([0xFB#8] ++ incomingFrame 3#8 0x41#8 [] ++ [0x77#8]) [.byte 0x13#8]
    s.asm.st = .idle ∧ s.par.overallLimit = none ∧ (∀ b ∈ [0x13#8, 0xFB#8], b ≠ 0xFF#8) ∧ 3 ≤ (3#8 : Byte).toNat
      ∧ ([] : List Byte).length = (3#8 : Byte).toNat - 3
      ∧ answers s.line = ([0x13#8, 0xFB#8] ++ incomingFrame 3#8 0x41#8 []).map RxAnswer.byte ++ [.byte 0x77#8] := by
  decide +kernel

theorem witness_DecodeDependsOnAnswersAndParametersAlone : ∃ s1 s2 t1 t2 : State, s1.asm.st = .idle ∧ s2.asm.st = .idle
    ∧ s1.par.rescanIdByte = s2.par.rescanIdByte ∧ s1.par.overallLimit = s2.par.overallLimit
    ∧ s1.line.held = s2.line.held ∧ s1.line.next = s2.line.next
    ∧ exec .decode s1 = .next t1 ∧ exec .decode s2 = .next t2 ∧ s1.asm.rlen ≠ s2.asm.rlen :=
  ⟨hearing report [], { hearing report [] with asm := { Asm.reset with rlen := 9#8, res := .rOk } }, _, _, rfl, rfl, rfl,
    rfl, rfl, rfl, rfl, rfl, by decide⟩

theorem witness_EncodedCommandDecodesUnderTheIncomingId : ∃ (s t u : State) (len cmd : Byte) (p f : List Byte),
    len.toNat = p.length + 3 ∧ exec (.encode (.whole (0xFF#8 :: 0xFC#8 :: len :: cmd :: p))) s = .next t
      ∧ t.result = .bytes f ∧ u.asm.st = .idle ∧ u.par.overallLimit = none
      ∧ answers u.line = (f.set 1 0xFB#8).map RxAnswer.byte ++ [.noData] :=
  ⟨client, _, hearing [] ([0xFF#8, 0xFB#8, 0x04#8, 0x38#8, 0x07#8, 0x43#8].map RxAnswer.byte ++ [.noData]), 0x04#8, 0x38#8,
    [7#8], [0xFF#8, 0xFC#8, 0x04#8, 0x38#8, 0x07#8, 0x43#8], rfl, rfl, by decide +kernel, rfl, rfl, by decide +kernel⟩

/-- Without a limit, and with the smallest one. -/
theorem witness_OnlyALimitBoundsAnInvocation :
    (∃ (s : State) (n : Nat), s.asm.st = .idle ∧ s.par.overallLimit = none
      ∧ answers s.line = List.replicate n (RxAnswer.byte 0#8) ∧ n = 3)
    ∧ ∃ (s t : State) (n : Nat), s.asm.st = .idle ∧ s.par.overallLimit = some n ∧ 0 < n ∧ exec .decode s = .next t
      ∧ n ≤ (answers s.line).length :=
  ⟨⟨hearing [0#8, 0#8, 0#8] [], 3, rfl, rfl, rfl, rfl⟩,
    ⟨limited 1 (hearing [0#8] []), _, 1, rfl, rfl, by decide, rfl, by decide⟩⟩

theorem witness_StrayHeaderCostsTheNextFrame :
    let s := hearing (0xFF#8 :: incomingFrame 3#8 0x41#8 []) []
    s.asm.st = .idle ∧ s.par.overallLimit = none ∧ 3 ≤ (3#8 : Byte).toNat
      ∧ ([] : List Byte).length = (3#8 : Byte).toNat - 3
      ∧ answers s.line = (0xFF#8 :: incomingFrame 3#8 0x41#8 []).map RxAnswer.byte
      ∧ (∀ b ∈ 3#8 :: 0x41#8 :: [] ++ [incomingChecksum 3#8 0x41#8 []], b ≠ 0xFF#8)
      ∧ s.par.rescanIdByte = false
      ∧ ({ s with par := { s.par with rescanIdByte := true } } : State).par.rescanIdByte = true := by decide +kernel

/-- One witness per clause, in the statement's order. -/
theorem witness_WaitingCallsGoOnWithTheEvent :
    (∃ (s : State) (b : Byte) (a : Asm), s.asm.st ≠ .idle ∧ Asm.byte s.par b s.asm = .ok a ∧ a.st ≠ .idle)
      ∧ (∀ c : Call, ∃ (s : State) (b : Byte) (a : Asm), s.asm.st ≠ .idle
        ∧ Asm.byte s.par b s.asm = .ok a ∧ a.st = .idle ∧ s.call = c ∧ a.res = .rOk)
      ∧ (∀ (c : Call) (att : Nat), ∃ (s : State) (b : Byte) (a : Asm), s.asm.st ≠ .idle
        ∧ Asm.byte s.par b s.asm = .ok a ∧ a.st = .idle ∧ s.call = c ∧ a.res ≠ .rOk ∧ s.seq.att = att)
      ∧ (∀ (c : Call) (att : Nat), (waiting c att).asm.st ≠ .idle ∧ (waiting c att).call = c
        ∧ (waiting c att).seq.att = att ∧ answers (waiting c att).line = [] ∧ (waiting c att).line.txNext = []) :=
  ⟨⟨waiting .ping 0, 0#8, _, by decide, rfl, by decide⟩,
    fun c => ⟨{ scanning .data 4#8 1#8 4#8 with call := c }, 4#8, _, by show ScanState.data ≠ .idle; decide, rfl, rfl, rfl, rfl⟩,
    fun c att => ⟨{ scanning .typ 2#8 0#8 0#8 with call := c, seq := { life := .operating, att := att } }, 4#8, _,
      by show ScanState.typ ≠ .idle; decide, rfl, rfl, rfl, by show RxResult.rBadLen ≠ .rOk; decide, rfl⟩,
    fun c att => ⟨by show ScanState.hunt ≠ .idle; decide, rfl, rfl, rfl, rfl⟩⟩

/-- Both ends of each clause's range, and the values just outside it. -/
theorem witness_ToPositionMapsOrRefuses :
    (0#8 : Byte).toNat < 1 ∧ 6 < (7#8 : Byte).toNat ∧ (1#8 : Byte).toNat = 1 ∧ (6#8 : Byte).toNat = 6
      ∧ (2#8 : Byte).toNat = 2 ∧ (4#8 : Byte).toNat = 4 ∧ (5#8 : Byte).toNat = 5
      ∧ 0 ≤ (0#16 : Half).toInt ∧ (180#16 : Half).toInt ≤ 180 ∧ (270#16 : Half).toInt ≤ 270
      ∧ (0xFFFF#16 : Half).toInt < 0 ∧ 180 < (181#16 : Half).toInt ∧ 270 < (271#16 : Half).toInt := by decide

/-- The first and last accepted position of each window (R137), and the ones next to them. -/
theorem witness_ToAngleMapsOrRefuses :
    let std := fun p : Int => roundTies .halfUp ((p - 900) * 180) 2200
    let s5 := fun p : Int => roundTies .halfUp ((p - 380) * 270) 3320
    (0 ≤ std 894 ∧ std 3106 ≤ 180 ∧ std 893 < 0 ∧ 180 < std 3107)
      ∧ (0 ≤ s5 374 ∧ s5 3706 ≤ 270 ∧ s5 373 < 0 ∧ 270 < s5 3707) := by decide

theorem witness_RoundTiesIsNearest : (0 : Int) < 1 ∧ (0 : Int) < 2200 := by decide

theorem witness_MapperRoundTrips :
    (1 ≤ (1#8 : Byte).toNat ∧ (6#8 : Byte).toNat ≤ 6 ∧ InRange (1#8 : Byte).toNat 0#16 ∧ InRange (3#8 : Byte).toNat 180#16
        ∧ InRange (5#8 : Byte).toNat 270#16)
      ∧ (∃ a, toAngle .halfUp 1#8 894#16 = .ok a) ∧ (∃ a, toAngle .halfUp 5#8 3706#16 = .ok a)
      ∧ ∃ a, toAngle .halfDown 1#8 955#16 = .ok a := by
  refine ⟨?_, ⟨_, rfl⟩, ⟨_, rfl⟩, ⟨_, rfl⟩⟩
  unfold InRange
  decide

theorem witness_MountInversionReflects :
    (2#8 : Byte).toNat = 2 ∧ (4#8 : Byte).toNat = 4 ∧ 0 ≤ (0#16 : Half).toInt ∧ (180#16 : Half).toInt ≤ 180
      ∧ (∃ a, toAngle .halfUp 1#8 894#16 = .ok a) ∧ (∃ p, toPosition 5#8 270#16 = .ok p)
      ∧ ∃ a, toAngle .halfDown 5#8 3706#16 = .ok a :=
  ⟨by decide, by decide, by decide, by decide, ⟨_, rfl⟩, ⟨_, rfl⟩, ⟨_, rfl⟩⟩

theorem witness_MapperLooksUpIncreasingTables :
    (∃ p, toPosition 5#8 0#16 = .ok p) ∧ (∃ p, toPosition 6#8 180#16 = .ok p) ∧ (∃ p, toPosition 2#8 180#16 = .ok p)
      ∧ ∃ a, toAngle .halfEven 4#8 3106#16 = .ok a :=
  ⟨⟨_, rfl⟩, ⟨_, rfl⟩, ⟨_, rfl⟩, ⟨_, rfl⟩⟩

/-- Each of the transport's three answers while closed, and the open client. -/
theorem witness_OpenFollowsTheTransportAndCloseReleasesOnce :
    (State.reset.call = .none ∧ State.reset.seq.life = .closed ∧ State.reset.line.openNext = [])
      ∧ (∀ b : Bool, ∃ s : State, s.call = .none ∧ s.seq.life = .closed ∧ s.line.openNext = [b])
      ∧ (client.call = .none ∧ client.seq.life = .operating) :=
  ⟨⟨rfl, rfl, rfl⟩, fun b => ⟨{ State.reset with line := { State.reset.line with openNext := [b] } }, rfl, rfl, rfl⟩,
    ⟨rfl, rfl⟩⟩

theorem witness_UseOutOfOrderIsRefused :
    State.reset.seq.life = .closed ∧ client.seq.life = .operating
      ∧ ((waiting .ping 0).seq.life = .operating ∧ (waiting .ping 0).call ≠ .none)
      ∧ (({ State.reset with call := .decode } : State).seq.life = .closed
        ∧ ({ State.reset with call := .decode } : State).call ≠ .none)
      ∧ (receiving.asm.st ≠ .idle ∧ Ready receiving) :=
  ⟨rfl, rfl, ⟨rfl, by decide⟩, ⟨rfl, by decide⟩, ⟨by decide, rfl, rfl⟩⟩

/-- Six angles at the ends of their ranges, and one just outside. -/
theorem witness_WriteAllIsAtomic :
    Ready client
      ∧ (InRange 1 0#16 ∧ InRange 2 180#16 ∧ InRange 3 0#16 ∧ InRange 4 90#16 ∧ InRange 5 270#16 ∧ InRange 6 180#16)
      ∧ ¬ (InRange 1 90#16 ∧ InRange 2 90#16 ∧ InRange 3 90#16 ∧ InRange 4 90#16 ∧ InRange 5 271#16 ∧ InRange 6 90#16) := by
  refine ⟨⟨rfl, rfl⟩, ?_, ?_⟩ <;> unfold InRange <;> decide

theorem witness_WriteOneOrAll :
    Ready client ∧ (0#8 : Byte).toNat = 0 ∧ 6 < (7#8 : Byte).toNat ∧ 1 ≤ (1#8 : Byte).toNat ∧ (6#8 : Byte).toNat ≤ 6
      ∧ InRange (6#8 : Byte).toNat 180#16 ∧ ¬ InRange (1#8 : Byte).toNat 181#16 := by
  refine ⟨⟨rfl, rfl⟩, ?_⟩
  unfold InRange
  decide

theorem witness_SetTorqueWritesOneFrame : Ready client := ⟨rfl, rfl⟩

theorem witness_PingAnswersTheFirstPayloadByte :
    Ready client ∧ client.asm.st = .idle ∧ ((0 : Int) < 1 ∧ (250 : Int) < 251) ∧ ((1 : Int) ≤ 1 ∧ (250 : Int) ≤ 250) :=
  ⟨⟨rfl, rfl⟩, rfl, by decide, by decide⟩

theorem witness_ReadAngleReturnsAnAngleOrTheSentinel :
    Ready client ∧ client.asm.st = .idle ∧ ((0 : Int) < 1 ∧ (6 : Int) < 7) ∧ ((1 : Int) ≤ 1 ∧ (6 : Int) ≤ 6) :=
  ⟨⟨rfl, rfl⟩, rfl, by decide, by decide⟩

theorem witness_ReadAngleJudgesTheFirstDecodedFrame :
    let s := hearing (incomingFrame 3#8 0x31#8 [] ++ [0x55#8]) []
    Ready s ∧ s.asm.st = .idle ∧ 1 ≤ 6 ∧ 6 ≤ 6 ∧ s.par.overallLimit = none ∧ s.par.flushBeforeCommand = false
      ∧ s.line.txNext = [] ∧ 3 ≤ (3#8 : Byte).toNat ∧ ([] : List Byte).length = (3#8 : Byte).toNat - 3
      ∧ answers s.line = (incomingFrame 3#8 0x31#8 []).map RxAnswer.byte ++ [.byte 0x55#8] :=
  ⟨⟨rfl, rfl⟩, rfl, by decide, by decide, rfl, rfl, rfl, by decide, by decide, by decide +kernel⟩

theorem witness_ReadAngleGivesUpAfterTwoSilentCycles :
    let s := hearing [0xFF#8] [.noData, .noData, .byte 0#8]
    Ready s ∧ s.asm.st = .idle ∧ 1 ≤ 1 ∧ 1 ≤ 6 ∧ s.line.txNext = []
      ∧ s.line.next = .noData :: .noData :: [.byte 0#8] :=
  ⟨⟨rfl, rfl⟩, rfl, by decide, by decide, rfl, rfl⟩

end Sys2Proof.Tests
end

section
/-! PROOF. `round_T` of R8: how far the rounded quotient is from the exact one, for each tie rule, and from that O47. The
distance is stated doubled and times `q`, so that it stays an integer. -/

namespace Sys2Proof.Machine

/-- Under half_up twice the distance is a remainder of the division by `2q`, less `q`. -/
theorem roundTies_halfUp_distance (p q : Int) :
    2 * (p - roundTies .halfUp p q * q) = (2 * p + q) % (2 * q) - q := by
  rw [Int.emod_def, roundTies]
  ring

/-- half_down is half_up of the negated quotient, negated. -/
theorem roundTies_halfDown_eq_neg (p q : Int) : roundTies .halfDown p q = -roundTies .halfUp (-p) q := by
  simp only [roundTies]
  congr 2
  ring

/-- R8: half_up gives a nearest integer, and of two the upper one. -/
theorem roundTies_halfUp_nearest (p : Int) {q : Int} (hq : 0 < q) :
    -q ≤ 2 * (p - roundTies .halfUp p q * q) ∧ 2 * (p - roundTies .halfUp p q * q) < q := by
  have hlow : 0 ≤ (2 * p + q) % (2 * q) := Int.emod_nonneg _ (by omega)
  have hhigh : (2 * p + q) % (2 * q) < 2 * q := Int.emod_lt_of_pos _ (by omega)
  rw [roundTies_halfUp_distance]
  omega

/-- R8: half_down gives a nearest integer, and of two the lower one. -/
theorem roundTies_halfDown_nearest (p : Int) {q : Int} (hq : 0 < q) :
    -q < 2 * (p - roundTies .halfDown p q * q) ∧ 2 * (p - roundTies .halfDown p q * q) ≤ q := by
  obtain ⟨hlow, hhigh⟩ := roundTies_halfUp_nearest (-p) hq
  rw [roundTies_halfDown_eq_neg, Int.neg_mul]
  omega

/-- half_even is the floor where the remainder is below one half, or is one half above an even floor; else it is the
floor's upper neighbour. -/
theorem roundTies_halfEven_cases (p q : Int) :
    (roundTies .halfEven p q = p / q ∧ (2 * (p % q) < q ∨ 2 * (p % q) = q ∧ p / q % 2 = 0))
    ∨ (roundTies .halfEven p q = p / q + 1 ∧ (q < 2 * (p % q) ∨ 2 * (p % q) = q ∧ p / q % 2 = 1)) := by
  simp only [roundTies]
  split_ifs with hbelow habove heven
  · exact .inl ⟨rfl, .inl hbelow⟩
  · exact .inr ⟨rfl, .inl habove⟩
  · exact .inl ⟨rfl, .inr ⟨by omega, heven⟩⟩
  · exact .inr ⟨rfl, .inr ⟨by omega, by omega⟩⟩

/-- R8: half_even gives a nearest integer, and of two the even one. -/
theorem roundTies_halfEven_nearest (p : Int) {q : Int} (hq : 0 < q) :
    -q ≤ 2 * (p - roundTies .halfEven p q * q) ∧ 2 * (p - roundTies .halfEven p q * q) ≤ q
      ∧ (2 * (p - roundTies .halfEven p q * q) = q ∨ 2 * (p - roundTies .halfEven p q * q) = -q →
        roundTies .halfEven p q % 2 = 0) := by
  have hlow : 0 ≤ p % q := Int.emod_nonneg p (by omega)
  have hhigh : p % q < q := Int.emod_lt_of_pos p hq
  have hfloor : p - p / q * q = p % q := by rw [Int.emod_def]; ring
  obtain ⟨heq, hrem⟩ | ⟨heq, hrem⟩ := roundTies_halfEven_cases p q
  · rw [heq, hfloor]
    omega
  · have hceil : p - (p / q + 1) * q = p % q - q := by rw [← hfloor]; ring
    rw [heq, hceil]
    omega

/-- Settles O47: the distance bounds of the three tie rules. -/
theorem roundTiesIsNearest : Obligations.RoundTiesIsNearest := by
  intro p q hq
  exact ⟨⟨_, rfl, roundTies_halfUp_nearest p hq⟩, ⟨_, rfl, roundTies_halfDown_nearest p hq⟩,
    ⟨_, rfl, roundTies_halfEven_nearest p hq⟩⟩

end Sys2Proof.Machine
end

section
/-! PROOF. What one step does, an equation per case of the fetch and of the delivery to a waiting assembler, and from these
O9. -/

namespace Sys2Proof.Machine

open Sys2Proof.Claims

/-! ### The oldest request -/

/-- A request that asks for a well-formed operation is taken and runs. -/
theorem step_of_wellFormed {s : State} {r : Request} {rest : List Request} {i : Instr} (hin : s.inbox = r :: rest)
    (hr : r.instr = .ok i) (hw : i.wellFormed = true) : step s = exec i { s with inbox := rest } := by
  simp [step, State.fetch, hin, hr, hw]

theorem step_of_illFormed {s : State} {r : Request} {rest : List Request} {i : Instr} (hin : s.inbox = r :: rest)
    (hr : r.instr = .ok i) (hw : i.wellFormed = false) : step s = .refused .illFormed := by
  simp [step, State.fetch, hin, hr, hw]

theorem step_of_undecodable {s : State} {r : Request} {rest : List Request} {e : DecodeError}
    (hin : s.inbox = r :: rest) (hr : r.instr = .error e) : step s = .refused (.undecodable e) := by
  simp [step, State.fetch, hin, hr]

/-- Without a request the step is the transport's (log entry 26). -/
theorem step_of_no_request {s : State} (hin : s.inbox = []) : step s = outcome s.deliver := by
  simp [step, State.fetch, hin]

/-! ### Delivery to a waiting assembler -/

theorem State.deliver_idle {s : State} (hs : s.asm.st = .idle) : s.deliver = .ok s := by
  simp [State.deliver, hs]

theorem State.deliver_no_answer {s : State} (hl : answers s.line = []) : s.deliver = .ok s := by
  obtain ⟨hheld, hnext⟩ := answers_eq_nil.mp hl
  simp [State.deliver, hheld, hnext]

theorem State.deliver_chosen_byte {s : State} {b : Byte} {next : List RxAnswer} (hs : s.asm.st ≠ .idle)
    (hn : s.line.next = .byte b :: next) : s.deliver = (s.withLine { s.line with next := next }).rxByte b := by
  simp [State.deliver, hs, hn]

theorem State.deliver_chosen_noData {s : State} {next : List RxAnswer} (hs : s.asm.st ≠ .idle)
    (hn : s.line.next = .noData :: next) : s.deliver = (s.withLine { s.line with next := next }).rxNodata := by
  simp [State.deliver, hs, hn]

theorem State.deliver_unread_byte {s : State} {b : Byte} {held : List Byte} (hs : s.asm.st ≠ .idle)
    (hn : s.line.next = []) (hh : s.line.held = b :: held) : s.deliver = s.rxByte b := by
  simp [State.deliver, hs, hn, hh]

/-! ### A step without a request: each of the transport's three answers is the step of its event -/

theorem step_chosen_byte {s : State} {b : Byte} {next : List RxAnswer} (hin : s.inbox = []) (hs : s.asm.st ≠ .idle)
    (hn : s.line.next = .byte b :: next) :
    step s = exec (.rxByteLimit b) { s with line := { s.line with next := next } } := by
  rw [step_of_no_request hin, State.deliver_chosen_byte hs hn]
  rfl

theorem step_chosen_noData {s : State} {next : List RxAnswer} (hin : s.inbox = []) (hs : s.asm.st ≠ .idle)
    (hn : s.line.next = .noData :: next) : step s = exec .rxNodata { s with line := { s.line with next := next } } := by
  rw [step_of_no_request hin, State.deliver_chosen_noData hs hn]
  rfl

theorem step_unread_byte {s : State} {b : Byte} {held : List Byte} (hin : s.inbox = []) (hs : s.asm.st ≠ .idle)
    (hn : s.line.next = []) (hh : s.line.held = b :: held) : step s = exec (.rxByteLimit b) s := by
  rw [step_of_no_request hin, State.deliver_unread_byte hs hn hh]
  rfl

/-! ### The events where no call waits -/

/-- With no call waiting, `rx_byte(b)` is the assembler's rule for `b`, and `b` is handed over. -/
theorem exec_rxByteLimit_no_call {s : State} {b : Byte} {a : Asm} (hs : s.asm.st ≠ .idle) (hc : s.call = .none)
    (ha : Asm.byte s.par b s.asm = .ok a) :
    exec (.rxByteLimit b) s = .next { s with asm := a, line := lineAfter b s } := by
  have hrule : s.asm.budgeted s.par (Asm.stateRule s.par b) = .ok a := by simpa [Asm.byte, hs] using ha
  have hcall : ((s.withLine (lineAfter b s)).withAsm a).call = .none := hc
  have htake : s.rxByte b = .ok ((s.withLine (lineAfter b s)).withAsm a) := by
    simp only [State.rxByte, hs, if_false, State.takeByte_eq, hrule, State.resume_none _ hcall]
  exact congrArg outcome htake

/-- With no call waiting, `rx_nodata` ends the invocation with R_TIMEOUT (R109). -/
theorem exec_rxNodata_no_call {s : State} (hs : s.asm.st ≠ .idle) (hc : s.call = .none) :
    exec .rxNodata s = .next { s with asm := { s.asm with res := .rTimeout, st := .idle } } := by
  have hcall : (s.withAsm (s.asm.finish .rTimeout)).call = .none := hc
  have hend : s.rxNodata = .ok (s.withAsm (s.asm.finish .rTimeout)) := by
    simp only [State.rxNodata, Asm.noData, hs, if_false, State.resume_none _ hcall]
  exact congrArg outcome hend

/-- The oldest unread byte, handed over, is removed. -/
theorem handedOver_cons_self (b : Byte) (held : List Byte) : handedOver b (b :: held) = held := by
  simp [handedOver]

/-- Settles O9: a clause per case of the fetch, then one per answer of the transport, as an event and spelled out. -/
theorem stepRunsTheRequestedOperation : Obligations.StepRunsTheRequestedOperation := by
  unfold Obligations.StepRunsTheRequestedOperation
  refine ⟨?run, ?illFormed, ?undecodable, ?nothing, ?chosenByte, ?chosenNoData, ?unreadByte, ?chosenByteNoCall,
    ?unreadByteNoCall, ?chosenNoDataNoCall⟩
  case run =>
    rintro s rest i hw (hin | ⟨bs, hin, hd⟩)
    · exact step_of_wellFormed hin rfl hw
    · exact step_of_wellFormed hin hd hw
  case illFormed =>
    intro s rest i hw hin
    exact step_of_illFormed hin rfl hw
  case undecodable =>
    intro s rest bs e hd hin
    exact step_of_undecodable hin hd
  case nothing =>
    rintro s hin (hs | hl)
    · rw [step_of_no_request hin, State.deliver_idle hs, outcome_ok]
    · rw [step_of_no_request hin, State.deliver_no_answer hl, outcome_ok]
  case chosenByte => exact fun s b next => step_chosen_byte
  case chosenNoData => exact fun s next => step_chosen_noData
  case unreadByte => exact fun s b held => step_unread_byte
  case chosenByteNoCall =>
    intro s b next a hin hs hc hn ha
    rw [step_chosen_byte hin hs hn]
    exact exec_rxByteLimit_no_call hs hc ha
  case unreadByteNoCall =>
    intro s b held a hin hs hc hn hh ha
    rw [step_unread_byte hin hs hn hh, exec_rxByteLimit_no_call hs hc ha, lineAfter, hh, handedOver_cons_self]
  case chosenNoDataNoCall =>
    intro s next hin hs hc hn
    rw [step_chosen_noData hin hs hn]
    exact exec_rxNodata_no_call hs hc

end Sys2Proof.Machine
end

section
/-! PROOF. What one operation can do, said once. Every one of the nine RX_BYTE rows is the event `rx_byte` (log entry 7),
and each of the 41 operations has one of nine effects (`Effect`, `exec_effect`). -/

namespace Sys2Proof.Machine

/-! ### The nine RX_BYTE rows. RX_BYTE.LIMIT is the event itself; the others are it too. -/

@[simp] theorem Asm.count_st (p : Params) (a : Asm) : (a.count p).st = a.st := by unfold Asm.count; split <;> rfl
@[simp] theorem Asm.count_rlen (p : Params) (a : Asm) : (a.count p).rlen = a.rlen := by unfold Asm.count; split <;> rfl
@[simp] theorem Asm.count_rem (p : Params) (a : Asm) : (a.count p).rem = a.rem := by unfold Asm.count; split <;> rfl

/-- A row that applies its own rule where `c` holds is the event, if its rule there is the rule of the state met. -/
theorem outcome_row {c : Prop} [Decidable c] {rule : Asm → Except Fault Asm} {b : Byte} {s : State}
    (hst : c → s.asm.st ≠ .idle)
    (hrule : c → rule (s.asm.count s.par) = Asm.stateRule s.par b (s.asm.count s.par)) :
    outcome (if c then s.takeByte rule b else s.rxByte b) = outcome (s.rxByte b) := by
  split
  case isTrue hc =>
    rw [State.rxByte, if_neg (hst hc)]
    exact congrArg outcome (State.takeByte_congr (by simp only [Asm.budgeted, hrule hc]))
  case isFalse => rfl

theorem exec_rxByteHunt (b : Byte) (s : State) : exec (.rxByteHunt b) s = outcome (s.rxByte b) :=
  outcome_row (by simp +contextual) (by simp +contextual [Asm.stateRule])

theorem exec_rxByteId (b : Byte) (s : State) : exec (.rxByteId b) s = outcome (s.rxByte b) :=
  outcome_row (by simp +contextual) (by simp +contextual [Asm.stateRule])

theorem exec_rxByteLen (b : Byte) (s : State) : exec (.rxByteLen b) s = outcome (s.rxByte b) :=
  outcome_row (by simp +contextual) (by simp +contextual [Asm.stateRule])

theorem exec_rxByteTypeValid (b : Byte) (s : State) : exec (.rxByteTypeValid b) s = outcome (s.rxByte b) :=
  outcome_row (by simp +contextual) (fun ⟨hst, hlen⟩ => by simp [Asm.stateRule, hst, Nat.not_lt.mpr hlen])

theorem exec_rxByteTypeInvalid (b : Byte) (s : State) : exec (.rxByteTypeInvalid b) s = outcome (s.rxByte b) :=
  outcome_row (by simp +contextual) (by simp +contextual [Asm.stateRule])

theorem exec_rxByteDataPayload (b : Byte) (s : State) : exec (.rxByteDataPayload b) s = outcome (s.rxByte b) := by
  refine outcome_row (by simp +contextual) fun ⟨hst, hrem⟩ => ?_
  have hne0 : s.asm.rem ≠ 0#8 := by rintro h; simp [h] at hrem
  have hne1 : s.asm.rem ≠ 1#8 := by rintro h; simp [h] at hrem
  simp [Asm.stateRule, hst, hne0, hne1]

theorem exec_rxByteDataChecksum (b : Byte) (s : State) : exec (.rxByteDataChecksum b) s = outcome (s.rxByte b) :=
  outcome_row (by simp +contextual) (by simp +contextual [Asm.stateRule])

theorem exec_rxByteIdle (b : Byte) (s : State) : exec (.rxByteIdle b) s = outcome (s.rxByte b) := by
  show outcome (if _ then _ else _) = _
  rw [State.rxByte]
  split <;> rfl

/-! ### The invariant under the updates that events are made of -/

/-- What `State.Inv` speaks of is the same. -/
structure State.SameControl (s t : State) : Prop where
  asm : t.asm = s.asm
  par : t.par = s.par
  att : t.seq.att = s.seq.att
  call : t.call = s.call

theorem State.Inv.of_sameControl {s t : State} (h : s.Inv) (hc : s.SameControl t) : t.Inv := by
  obtain ⟨hasm, hpar, hatt, hcall⟩ := hc
  constructor
  · rw [hasm]; exact h.asm
  · rw [hasm, hpar]; exact h.budget
  · rw [hatt]; exact h.att_le
  · rw [hcall, hasm]; exact h.waiting
  · rw [hcall, hatt]; exact h.cycle

/-- A call that goes on, or waits on, in a state that meets the invariant but for the end of its invocation. -/
theorem State.resume_inv {s : State} (hasm : s.asm.Inv) (hbudget : s.asm.WithinBudget s.par)
    (hatt : s.seq.att ≤ readAttempts)
    (hcycle : ∀ id, s.call = .readAngle id → 1 ≤ s.seq.att ∧ 1 ≤ id.toNat ∧ id.toNat ≤ nServos) :
    ∃ t, s.resume = .ok t ∧ t.Inv := by
  obtain ⟨t, et, -, hasm', hbudget', hwaiting', -, hatt', hmono, hcall⟩ := s.resume_ran
  refine ⟨t, et, hasm' hasm, hbudget' hbudget, hatt' hatt, hwaiting', fun id hid => ?_⟩
  obtain ⟨hone, hid'⟩ := hcycle id (hcall id hid)
  exact ⟨Nat.le_trans hone hmono, hid'⟩

/-! ### What receiving keeps, in every state -/

/-- Another assembler and other answers of the transport are all that receiving changes by itself. -/
theorem State.keeps_receive (s : State) (a : Asm) (held : List Byte) (next : List RxAnswer) :
    s.Keeps ((s.withLine { s.line with held := held, next := next }).withAsm a) :=
  have h := State.Keeps.refl s
  ⟨h.outside, h.tx, h.reports⟩

theorem State.resume_keeps {s t : State} (h : s.resume = .ok t) : s.Keeps t := by
  obtain ⟨u, eu, hk, -⟩ := s.resume_ran
  cases eu.symm.trans h
  exact hk

theorem State.takeByte_keeps {rule : Asm → Except Fault Asm} {b : Byte} {s t : State} (h : s.takeByte rule b = .ok t) :
    s.Keeps t := by
  rw [State.takeByte_eq] at h
  split at h
  · cases h
  · exact (s.keeps_receive _ _ _).trans (State.resume_keeps h)

theorem State.rxByte_keeps {b : Byte} {s t : State} (h : s.rxByte b = .ok t) : s.Keeps t := by
  rw [State.rxByte] at h
  split at h
  · cases h
    exact s.keeps_receive s.asm (s.line.held ++ [b]) s.line.next
  · exact State.takeByte_keeps h

theorem State.rxNodata_keeps {s t : State} (h : s.rxNodata = .ok t) : s.Keeps t := by
  rw [State.rxNodata] at h
  split at h
  · cases h
    exact State.Keeps.refl _
  · exact (s.keeps_receive s.asm.noData s.line.held s.line.next).trans (State.resume_keeps h)

theorem State.rxBytes_keeps {bs : List Byte} {s t : State} (h : s.rxBytes bs = .ok t) : s.Keeps t := by
  induction bs generalizing s with
  | nil =>
    cases h
    exact State.Keeps.refl _
  | cons b bs ih =>
    rw [State.rxBytes] at h
    split at h
    · cases h
    · next u hu => exact (State.rxByte_keeps hu).trans (ih h)

/-! ### What receiving does to the invariant -/

/-- `x` is what a received event, or an operation that runs a decode, makes of `s`: whatever `s` is, ENC, MAP, LIFE and
the rest of `State.Keeps` are kept; and from a state that meets the invariant it does not fault and keeps the
invariant. -/
structure Receives (s : State) (x : Except Fault State) : Prop where
  keeps : ∀ t, x = .ok t → s.Keeps t
  inv : s.Inv → ∃ t, x = .ok t ∧ t.Inv

theorem State.rxByte_receives (b : Byte) (s : State) : Receives s (s.rxByte b) where
  keeps _ h := State.rxByte_keeps h
  inv h := by
    obtain ⟨t, et, -, hinv⟩ := State.rxByte_ran b s h
    exact ⟨t, et, hinv⟩

theorem State.rxNodata_receives (s : State) : Receives s s.rxNodata where
  keeps _ h := State.rxNodata_keeps h
  inv h := by
    rw [State.rxNodata]
    split
    · exact ⟨s, rfl, h⟩
    · obtain ⟨hasm, hbudget⟩ := Asm.noData_inv h.asm h.budget
      exact State.resume_inv hasm hbudget h.att_le h.cycle

theorem State.rxBytes_inv {bs : List Byte} {s : State} (h : s.Inv) : ∃ t, s.rxBytes bs = .ok t ∧ t.Inv := by
  induction bs generalizing s with
  | nil => exact ⟨s, rfl, h⟩
  | cons b bs ih =>
    obtain ⟨u, eu, hu⟩ := (s.rxByte_receives b).inv h
    obtain ⟨t, et, ht⟩ := ih hu
    exact ⟨t, by simp [State.rxBytes, eu, et], ht⟩

theorem State.rxBytes_receives (bs : List Byte) (s : State) : Receives s (s.rxBytes bs) where
  keeps _ h := State.rxBytes_keeps h
  inv h := State.rxBytes_inv h

/-- RX_START, where it is not refused: a call that waits finds the invocation running. -/
theorem State.start_receives (s : State) : Receives s (.ok (s.withAsm s.asm.start)) where
  keeps _ h := by
    cases h
    exact s.keeps_receive s.asm.start s.line.held s.line.next
  inv h := by
    obtain ⟨hasm, hbudget⟩ := Asm.start_inv (p := s.par) h.asm.pcnt_le
    exact ⟨_, rfl, hasm, hbudget, h.att_le, by simp, h.cycle⟩

/-- An invocation that has run in `s` gave `t`, and the call `c` (not SEQ_READ_ANGLE's) goes on there. -/
theorem State.wait_resume_receives {s t : State} {c : Call} (hkeeps : s.Keeps t) (hran : s.Ran t) (hseq : t.seq = s.seq)
    (hc : ∀ id, c ≠ .readAngle id) : Receives s (t.wait c).resume where
  keeps _ h :=
    have hwait : s.Keeps (t.wait c) := ⟨hkeeps.outside, hkeeps.tx, hkeeps.reports⟩
    hwait.trans (State.resume_keeps h)
  inv h := by
    have hatt : t.seq.att ≤ readAttempts := hseq ▸ h.att_le
    exact State.resume_inv (s := t.wait c) (hran.inv h.asm.pcnt_le) hran.budget hatt fun id hid => absurd hid (hc id)

/-- The cycles of SEQ_READ_ANGLE for an id from 1 to 6, from ATT = 0 (R176). -/
theorem State.readAngle_receives {s : State} {id : Byte} (hs : s.asm.st = .idle)
    (hid : 1 ≤ id.toNat ∧ id.toNat ≤ nServos) :
    Receives s ((s.withSeq { s.seq with att := 0 }).readCycles id readAttempts) := by
  obtain ⟨t, et, hkeeps, -, hatt, hpos, hasm, hbudget, hend⟩ :=
    State.readCycles_ran id readAttempts (s.withSeq { s.seq with att := 0 }) hs
  have hone : 1 ≤ t.seq.att := hpos (by decide)
  have htwo : t.seq.att ≤ readAttempts := by simpa using hatt
  constructor
  · intro u hu
    cases et.symm.trans hu
    exact ⟨hkeeps.outside, hkeeps.tx, hkeeps.reports⟩
  · intro h
    refine ⟨t, et, hasm h.asm, hbudget, htwo, ?_, ?_⟩
    · obtain ⟨-, hcall, -⟩ | ⟨hrun, -⟩ := hend
      · exact fun hne => absurd hcall hne
      · exact fun _ => hrun
    · intro id' hid'
      obtain ⟨-, hcall, -⟩ | ⟨-, hcall, -⟩ := hend
      · cases hcall.symm.trans hid'
      · cases hcall.symm.trans hid'
        exact ⟨hone, hid⟩

theorem State.withNext_inv {s : State} (next : List RxAnswer) (h : s.Inv) :
    (s.withLine { s.line with next := next }).Inv := h.of_sameControl ⟨rfl, rfl, rfl, rfl⟩

/-- What an event makes of `s` without the answer that the event is. -/
theorem Receives.of_withNext {s : State} {next : List RxAnswer} {x : Except Fault State}
    (h : Receives (s.withLine { s.line with next := next }) x) : Receives s x where
  keeps t ht := (s.keeps_receive s.asm s.line.held next).trans (h.keeps t ht)
  inv hs := h.inv (State.withNext_inv next hs)

theorem State.deliver_receives (s : State) : Receives s s.deliver := by
  have hnothing : Receives s (.ok s) :=
    ⟨fun t ht => by cases ht; exact State.Keeps.refl s, fun h => ⟨s, rfl, h⟩⟩
  by_cases hs : s.asm.st = .idle
  · rw [State.deliver_idle hs]
    exact hnothing
  · cases hn : s.line.next with
    | cons x next =>
      cases x with
      | byte b =>
        rw [State.deliver_chosen_byte hs hn]
        exact (State.rxByte_receives b _).of_withNext
      | noData =>
        rw [State.deliver_chosen_noData hs hn]
        exact (State.rxNodata_receives _).of_withNext
    | nil =>
      cases hh : s.line.held with
      | cons b held =>
        rw [State.deliver_unread_byte hs hn hh]
        exact s.rxByte_receives b
      | nil =>
        rw [State.deliver_no_answer (answers_eq_nil.mpr ⟨hh, hn⟩)]
        exact hnothing

/-! ### The nine effects -/

/-- Everything operation `i` can do from `s`. -/
inductive Effect (s : State) : Instr → Host.Outcome State Fault Refusal → Prop
  /-- It is refused. -/
  | refuse {i : Instr} (r : Refusal) : Effect s i (.refused r)
  /-- It returns a result, and nothing else changes. -/
  | give {i : Instr} (r : Result) : Effect s i (.next (s.give r))
  /-- An event of ENC writes ENC. -/
  | encode {form : EncodeForm} (e : Enc) : Effect s (.encode form) (.next (s.withEnc e))
  /-- The mapper drives its outputs, and draws a free value where it reports an error. -/
  | map {i : Instr} (m : MapOut) (n : Nat) (r : Result) :
      Effect s i (.next { s.withMap m with fresh := n, result := r })
  /-- A byte or its absence is received, or a decode is run. -/
  | receive {i : Instr} {x : Except Fault State} (h : Receives s x) : Effect s i (outcome x)
  /-- A sequence writes one command. -/
  | send {i : Instr} (cmd : List Byte) : Effect s i (.next ((s.send cmd).give .done))
  /-- The transport opens. -/
  | opened (path : Path) :
      Effect s (.seqOpen path)
        (.next (((s.withLine (s.line.askOpen path).2).withSeq { s.seq with life := .operating }).give .done))
  /-- The transport does not open. -/
  | notOpened (path : Path) : Effect s (.seqOpen path) (.next ((s.withLine (s.line.askOpen path).2).fail .connection))
  /-- The handle is released. -/
  | closed :
      Effect s .seqClose (.next (((s.withLine s.line.release).withSeq { s.seq with life := .closed }).give .done))

/-- A sequence that needs the client is refused, or does what it does for a ready client (U8, U9). -/
theorem effect_asClient {s : State} {i : Instr} {o : Host.Outcome State Fault Refusal} (h : Effect s i o) :
    Effect s i (s.asClient o) := by
  unfold State.asClient
  split_ifs
  · exact .refuse _
  · exact .refuse _
  · exact h

theorem effect_writeAll (s : State) (i : Instr) (a1 a2 a3 a4 a5 a6 time : Half) :
    Effect s i (.next (s.writeAll a1 a2 a3 a4 a5 a6 time)) := by
  unfold State.writeAll
  split
  · exact .give _
  · exact .send _

theorem effect_writeOne (s : State) (i : Instr) (id : Byte) (angle time : Half) :
    Effect s i (.next (s.writeOne id angle time)) := by
  unfold State.writeOne
  split
  · exact .give _
  · exact .send _

theorem effect_encode (form : EncodeForm) (s : State) : Effect s (.encode form) (execEncode form s) := by
  cases form with
  | whole cmd => exact .give _
  | start | byte b | stop =>
    simp only [execEncode]
    split
    · exact .encode _
    · exact .refuse _

theorem effect_rxStart (s : State) : Effect s .rxStart (execRxStart s) := by
  unfold execRxStart
  split
  · exact .receive s.start_receives
  · exact .refuse _

/-- An operation that is the event `rx_byte`, as each of the nine rows is. -/
theorem effect_rxByte {i : Instr} {b : Byte} {s : State} (h : exec i s = outcome (s.rxByte b)) :
    Effect s i (exec i s) := by
  rw [h]
  exact .receive (s.rxByte_receives b)

theorem effect_decode (s : State) : Effect s .decode (execDecode s) := by
  unfold execDecode
  split
  · exact .refuse _
  · obtain ⟨t, et, hkeeps, hran, hseq, -⟩ := s.invoke_ran
    rw [et]
    exact .receive (State.wait_resume_receives hkeeps hran hseq (by simp))

theorem effect_toPosition (id : Byte) (angle : Half) (s : State) :
    Effect s (.toPosition id angle) (execToPosition id angle s) := by
  unfold execToPosition
  split
  · exact .map _ _ _
  · exact .map _ _ _

theorem effect_toAngle (id : Byte) (pos : Half) (s : State) : Effect s (.toAngle id pos) (execToAngle id pos s) := by
  unfold execToAngle
  split
  · exact .map _ _ _
  · exact .map _ _ _

theorem effect_seqOpen (path : Path) (s : State) : Effect s (.seqOpen path) (execSeqOpen path s) := by
  have hopened := Effect.opened (s := s) path
  have hnotOpened := Effect.notOpened (s := s) path
  unfold execSeqOpen
  split_ifs
  · exact .refuse _
  · exact .refuse _
  · split
    · next l hl => rwa [hl] at hopened
    · next l hl => rwa [hl] at hnotOpened

theorem effect_seqWriteOne (id : Byte) (angle time : Half) (s : State) :
    Effect s (.seqWriteOne id angle time) (execSeqWriteOne id angle time s) := by
  refine effect_asClient ?_
  split_ifs
  · exact effect_writeAll ..
  · exact .give _
  · exact effect_writeOne ..

theorem effect_seqPing (id : Int) (s : State) : Effect s (.seqPing id) (execSeqPing id s) := by
  refine effect_asClient ?_
  split_ifs
  · exact .give _
  · exact .refuse _
  · obtain ⟨t, et, hkeeps, hran, hseq, -⟩ := s.exchange_ran (fmtPing (idByte id))
    rw [et]
    exact .receive (State.wait_resume_receives hkeeps hran hseq (by simp))

theorem effect_seqReadAngle (id : Int) (s : State) : Effect s (.seqReadAngle id) (execSeqReadAngle id s) := by
  refine effect_asClient ?_
  split_ifs with hid hs
  · exact .give _
  · exact .refuse _
  · have hbyte : 1 ≤ (idByte id).toNat ∧ (idByte id).toNat ≤ nServos := by
      rw [nServos] at hid ⊢
      rw [idByte_toNat id (by omega) (by omega)]
      omega
    exact .receive (State.readAngle_receives (not_not.mp hs) hbyte)

theorem effect_seqClose (s : State) : Effect s .seqClose (execSeqClose s) := by
  unfold execSeqClose
  split_ifs
  · exact .refuse _
  · exact .closed
  · exact .give _

/-- Each operation's meaning is one of the nine effects. -/
theorem exec_effect (i : Instr) (s : State) : Effect s i (exec i s) := by
  cases i with
  | fmtWriteAll | fmtWriteOne1 | fmtWriteOne2 | fmtWriteOne3 | fmtWriteOne4 | fmtWriteOne5 | fmtWriteOne6 | fmtTorque
  | fmtPing | fmtReadPos1 | fmtReadPos2 | fmtReadPos3 | fmtReadPos4 | fmtReadPos5 | fmtReadPos6 | fmtBuzzer
  | chkOut | chkIn => exact .give _
  | encode form => exact effect_encode form s
  | rxFrame len type body => exact .receive (State.rxBytes_receives _ s)
  | rxStart => exact effect_rxStart s
  | rxByteHunt b => exact effect_rxByte (exec_rxByteHunt b s)
  | rxByteId b => exact effect_rxByte (exec_rxByteId b s)
  | rxByteLen b => exact effect_rxByte (exec_rxByteLen b s)
  | rxByteTypeValid b => exact effect_rxByte (exec_rxByteTypeValid b s)
  | rxByteTypeInvalid b => exact effect_rxByte (exec_rxByteTypeInvalid b s)
  | rxByteDataPayload b => exact effect_rxByte (exec_rxByteDataPayload b s)
  | rxByteDataChecksum b => exact effect_rxByte (exec_rxByteDataChecksum b s)
  | rxByteLimit b => exact effect_rxByte rfl
  | rxByteIdle b => exact effect_rxByte (exec_rxByteIdle b s)
  | rxNodata => exact .receive s.rxNodata_receives
  | decode => exact effect_decode s
  | toPosition id angle => exact effect_toPosition id angle s
  | toAngle id pos => exact effect_toAngle id pos s
  | seqOpen path => exact effect_seqOpen path s
  | seqWriteAll a1 a2 a3 a4 a5 a6 time => exact effect_asClient (effect_writeAll ..)
  | seqWriteOne id angle time => exact effect_seqWriteOne id angle time s
  | seqSetTorque enabled => exact effect_asClient (.send _)
  | seqPing id => exact effect_seqPing id s
  | seqReadAngle id => exact effect_seqReadAngle id s
  | seqClose => exact effect_seqClose s

end Sys2Proof.Machine
end

section
/-! PROOF. The invariant of R19 and of the model's bookkeeping: reset meets it, no operation and no step from it faults,
and every next state meets it again (O2, O3, O4). The other values after reset (O1). -/

namespace Sys2Proof.Machine

/-- An outcome that the invariant allows: no fault, and no next state outside the invariant. -/
def Sound : Host.Outcome State Fault Refusal → Prop
  | .next t => t.Inv
  | .fault _ => False
  | .refused _ => True

theorem Sound.inv {o : Host.Outcome State Fault Refusal} {t : State} (h : Sound o) (ht : o = .next t) : t.Inv := by
  subst ht
  exact h

theorem Sound.noFault {o : Host.Outcome State Fault Refusal} (h : Sound o) : NoFault o := by
  rintro e rfl
  exact h

theorem Receives.sound {s : State} {x : Except Fault State} (h : Receives s x) (hs : s.Inv) : Sound (outcome x) := by
  obtain ⟨t, rfl, ht⟩ := h.inv hs
  exact ht

/-- Only receiving touches what the invariant speaks of. -/
theorem Effect.sound {s : State} {i : Instr} {o : Host.Outcome State Fault Refusal} (h : Effect s i o) (hs : s.Inv) :
    Sound o := by
  cases h with
  | refuse r => exact trivial
  | receive hx => exact hx.sound hs
  | give | encode | map | send | opened | notOpened | closed => exact hs.of_sameControl ⟨rfl, rfl, rfl, rfl⟩

/-- One step is a delivery by the transport, the oldest request's operation, or a refusal. -/
theorem step_cases (s : State) :
    step s = outcome s.deliver ∨ (∃ i rest, step s = exec i { s with inbox := rest }) ∨ ∃ r, step s = .refused r := by
  cases hin : s.inbox with
  | nil => exact .inl (step_of_no_request hin)
  | cons r rest =>
    cases hr : r.instr with
    | error e => exact .inr (.inr ⟨_, step_of_undecodable hin hr⟩)
    | ok i =>
      cases hw : i.wellFormed with
      | true => exact .inr (.inl ⟨i, rest, step_of_wellFormed hin hr hw⟩)
      | false => exact .inr (.inr ⟨_, step_of_illFormed hin hr hw⟩)

theorem step_sound {s : State} (h : s.Inv) : Sound (step s) := by
  obtain hd | ⟨i, rest, he⟩ | ⟨r, hr⟩ := step_cases s
  · rw [hd]
    exact s.deliver_receives.sound h
  · rw [he]
    exact (exec_effect i _).sound (h.of_sameControl ⟨rfl, rfl, rfl, rfl⟩)
  · rw [hr]
    exact trivial

/-- Settles O3: a step's outcome is sound, by the effects of the operations. -/
theorem stepKeepsTheInvariant : Obligations.StepKeepsTheInvariant :=
  fun _ _ hs ht => (step_sound hs).inv ht

/-- Settles O4: a step's outcome is sound, by the effects of the operations. -/
theorem stepFromTheInvariantNeverFaults : Obligations.StepFromTheInvariantNeverFaults :=
  fun _ hs => (step_sound hs).noFault

/-- Settles O1: each register and the parameters read off the state after reset. -/
theorem resetGivesTheStatedValuesAndTheDefaults : Obligations.ResetGivesTheStatedValuesAndTheDefaults :=
  ⟨rfl, rfl, rfl, rfl, rfl⟩

/-- Settles O2: after reset ST is IDLE, RES R_NONE, no call waits, and PCNT and ATT are 0. -/
theorem resetMeetsTheInvariant : Obligations.ResetMeetsTheInvariant where
  asm := by constructor <;> simp [State.reset, Asm.reset]
  budget _ _ _ hrun := absurd rfl hrun
  att_le := Nat.zero_le _
  waiting hcall := absurd rfl hcall
  cycle _ hcall := by cases hcall

end Sys2Proof.Machine
end

section
/-! PROOF. What the operations leave alone: ENC by all but ENCODE, and by ENCODE all but ENC and the result (O6); LIFE by
all but SEQ_OPEN and SEQ_CLOSE (O7). -/

namespace Sys2Proof.Machine

theorem Receives.keeps_of_next {s t : State} {x : Except Fault State} (h : Receives s x) (ht : outcome x = .next t) :
    s.Keeps t := h.keeps t (outcome_next_iff.mp ht)

/-- R11: only ENCODE writes ENC. -/
theorem exec_enc {i : Instr} {s t : State} (h : exec i s = .next t) (hi : ∀ form, i ≠ .encode form) :
    t.enc = s.enc := by
  generalize ho : exec i s = o at h
  cases ho ▸ exec_effect i s with
  | refuse r => cases h
  | encode e => exact absurd rfl (hi _)
  | receive hx =>
    obtain ⟨⟨henc, -⟩, -, -⟩ := hx.keeps_of_next h
    exact henc
  | give | map | send | opened | notOpened | closed => cases h; rfl

/-- R54(c): ENCODE writes the result and ENC alone. -/
theorem execEncode_frame {form : EncodeForm} {s t : State} (h : execEncode form s = .next t) :
    ∃ e r, t = (s.withEnc e).give r := by
  cases form with
  | whole cmd =>
    cases h
    exact ⟨s.enc, _, rfl⟩
  | start | byte b | stop =>
    simp only [execEncode] at h
    split at h
    · cases h
      exact ⟨_, s.result, rfl⟩
    · cases h

/-- Settles O6: the effects that are not ENCODE's keep ENC, and ENCODE writes ENC and the result alone. -/
theorem encoderAndAssemblerShareNothing : Obligations.EncoderAndAssemblerShareNothing := by
  refine fun i s t h => ⟨exec_enc h, ?_⟩
  rintro form rfl
  obtain ⟨e, r, rfl⟩ := execEncode_frame h
  exact ⟨rfl, rfl, rfl, rfl⟩

/-- Settles O7: every effect but opening and closing keeps LIFE. -/
theorem onlyOpenAndCloseChangeLife : Obligations.OnlyOpenAndCloseChangeLife := by
  intro i s t h hlife
  generalize ho : exec i s = o at h
  cases ho ▸ exec_effect i s with
  | opened path | notOpened path => exact .inl ⟨path, rfl⟩
  | closed => exact .inr rfl
  | refuse r => cases h
  | receive hx =>
    obtain ⟨⟨-, -, -, -, -, hkept, -⟩, -, -⟩ := hx.keeps_of_next h
    exact absurd hkept hlife
  | give | encode | map | send => cases h; exact absurd rfl hlife

end Sys2Proof.Machine
end

section
/-! PROOF. R26, R117: what a decode invocation does depends on the transport's answers and on RESCAN_ID_BYTE and
OVERALL_LIMIT alone, not on what the registers held before. `Agree` relates two assemblers that have met the same answers;
every step rule keeps it, and from it O40. -/

namespace Sys2Proof.Machine

open Sys2Proof.Claims

/-- Two assemblers in the same state, with the same RES and NCONS, and the same in every register that is read there: RLEN
in TYPE, a frame's registers in DATA and after R_OK, REM and SUM in DATA. -/
structure Asm.Agree (a c : Asm) : Prop where
  st : c.st = a.st
  res : c.res = a.res
  ncons : c.ncons = a.ncons
  rlen : a.st = .typ → c.rlen = a.rlen
  frame : a.st = .data ∨ a.res = .rOk →
    c.rlen = a.rlen ∧ c.rtype = a.rtype ∧ c.pcnt = a.pcnt ∧ c.payload = a.payload
  check : a.st = .data → c.rem = a.rem ∧ c.sum = a.sum

/-! ### Rules that keep two assemblers in agreement -/

section
variable {a c : Asm}

/-- RX_START: whatever the registers held, two started assemblers agree. -/
theorem Asm.agree_start (a c : Asm) : a.start.Agree c.start := by
  constructor <;> simp

/-- A move to a state that reads no register. -/
theorem Asm.Agree.moved (h : a.Agree c) {x : ScanState} (htyp : x ≠ .typ) (hdata : x ≠ .data) :
    Asm.Agree { a with st := x } { c with st := x } :=
  ⟨rfl, h.res, h.ncons, fun e => absurd e htyp, fun e => h.frame (.inr (e.resolve_left hdata)), fun e => absurd e hdata⟩

/-- The end of an invocation; only in DATA may it accept. -/
theorem Asm.Agree.finish (h : a.Agree c) {r : RxResult} (hr : r = .rOk → a.st = .data) :
    (a.finish r).Agree (c.finish r) where
  st := rfl
  res := rfl
  ncons := h.ncons
  rlen e := by cases e
  frame e := h.frame (.inl (hr (e.resolve_left (by simp))))
  check e := by cases e

theorem Asm.Agree.noData (h : a.Agree c) : a.noData.Agree c.noData := by
  unfold Asm.noData
  rw [h.st]
  split
  · exact h
  · exact h.finish (by simp)

theorem Asm.Agree.huntRule (h : a.Agree c) (b : Byte) : (a.huntRule b).Agree (c.huntRule b) :=
  h.moved (by split <;> simp) (by split <;> simp)

theorem Asm.Agree.idRule (h : a.Agree c) {p q : Params} (hpq : p.rescanIdByte = q.rescanIdByte) (b : Byte) :
    (a.idRule p b).Agree (c.idRule q b) := by
  unfold Asm.idRule
  rw [hpq]
  exact h.moved (by split_ifs <;> simp) (by split_ifs <;> simp)

theorem Asm.Agree.lenRule (h : a.Agree c) (b : Byte) : (a.lenRule b).Agree (c.lenRule b) where
  st := rfl
  res := h.res
  ncons := h.ncons
  rlen _ := rfl
  frame e := by
    obtain ⟨-, hframe⟩ := h.frame (.inr (e.resolve_left (by simp [Asm.lenRule])))
    exact ⟨rfl, hframe⟩
  check e := by cases e

theorem Asm.Agree.typeInvalidRule (h : a.Agree c) (b : Byte) : (a.typeInvalidRule b).Agree (c.typeInvalidRule b) where
  st := rfl
  res := rfl
  ncons := h.ncons
  rlen e := by cases e
  frame e := by obtain e | e := e <;> cases e
  check e := by cases e

theorem Asm.Agree.typeValidRule (h : a.Agree c) (hst : a.st = .typ) (b : Byte) :
    (a.typeValidRule b).Agree (c.typeValidRule b) where
  st := rfl
  res := h.res
  ncons := h.ncons
  rlen e := by cases e
  frame _ := ⟨h.rlen hst, rfl, rfl, by simp [Asm.payload, Asm.typeValidRule]⟩
  check _ := by simp [Asm.typeValidRule, h.rlen hst]

theorem Asm.Agree.checksumRule (h : a.Agree c) (hst : a.st = .data) (b : Byte) :
    (a.checksumRule b).Agree (c.checksumRule b) := by
  obtain ⟨-, hsum⟩ := h.check hst
  unfold Asm.checksumRule
  by_cases hb : b = a.sum
  · rw [if_pos hb, if_pos (hb.trans hsum.symm)]
    exact h.finish fun _ => hst
  · rw [if_neg hb, if_neg fun e => hb (e.trans hsum)]
    exact h.moved (x := .hunt) (by simp) (by simp)

/-- A payload byte that PBUF has room for (R107). -/
theorem Asm.payloadRule_of_lt (b : Byte) (a : Asm) (h : a.pcnt.toNat < 252) :
    a.payloadRule b = .ok { a with pbuf := a.pbuf.set a.pcnt.toNat b h, pcnt := a.pcnt + 1#8, sum := addByte a.sum b
                                   rem := a.rem - 1#8 } := by
  simp only [Asm.payloadRule, Asm.storePayload_of_lt b a h]

theorem Asm.payloadRule_of_ge (b : Byte) (a : Asm) (h : 252 ≤ a.pcnt.toNat) : a.payloadRule b = .error .pbufIndex := by
  simp only [Asm.payloadRule, Asm.storePayload_of_ge b a h]

end

section
variable {a c a' c' : Asm} {p q : Params} {b : Byte}

theorem Asm.Agree.payloadRule (h : a.Agree c) (hst : a.st = .data) (ha : a.payloadRule b = .ok a')
    (hc : c.payloadRule b = .ok c') : a'.Agree c' := by
  obtain ⟨hrem, hsum⟩ := h.check hst
  obtain ⟨hrlen, hrtype, hpcnt, hpayload⟩ := h.frame (.inl hst)
  by_cases hroom : a.pcnt.toNat < 252
  · have hroom' : c.pcnt.toNat < 252 := by rwa [hpcnt]
    rw [Asm.payloadRule_of_lt b a hroom] at ha
    rw [Asm.payloadRule_of_lt b c hroom'] at hc
    cases ha
    cases hc
    refine ⟨h.st, h.res, h.ncons, fun e => ?_, fun _ => ⟨hrlen, hrtype, congrArg (· + 1#8) hpcnt, ?_⟩,
      fun _ => ⟨?_, ?_⟩⟩
    · cases hst.symm.trans e
    · have hset := Asm.payload_set a b hroom
      have hset' := Asm.payload_set c b hroom'
      exact hset'.trans ((congrArg (· ++ [b]) hpayload).trans hset.symm)
    · exact congrArg (· - 1#8) hrem
    · exact congrArg (addByte · b) hsum
  · rw [Asm.payloadRule_of_ge b a (by omega)] at ha
    cases ha

/-- R102 to R108 keep the agreement. -/
theorem Asm.Agree.stateRule (h : a.Agree c) (hpq : p.rescanIdByte = q.rescanIdByte)
    (ha : Asm.stateRule p b a = .ok a') (hc : Asm.stateRule q b c = .ok c') : a'.Agree c' := by
  unfold Asm.stateRule at ha hc
  rw [h.st] at hc
  cases hst : a.st with
  | idle =>
    simp only [hst] at ha hc
    cases ha; cases hc
    exact h
  | hunt =>
    simp only [hst] at ha hc
    cases ha; cases hc
    exact h.huntRule b
  | id =>
    simp only [hst] at ha hc
    cases ha; cases hc
    exact h.idRule hpq b
  | len =>
    simp only [hst] at ha hc
    cases ha; cases hc
    exact h.lenRule b
  | typ =>
    simp only [hst, h.rlen hst] at ha hc
    cases ha; cases hc
    split
    · exact h.typeInvalidRule b
    · exact h.typeValidRule hst b
  | data =>
    obtain ⟨hrem, -⟩ := h.check hst
    simp only [hst, hrem] at ha hc
    split_ifs at ha hc
    · cases ha; cases hc
      exact h.checksumRule hst b
    · exact h.payloadRule hst ha hc

theorem Asm.Agree.count (h : a.Agree c) (hlim : p.overallLimit = q.overallLimit) : (a.count p).Agree (c.count q) := by
  unfold Asm.count
  rw [hlim]
  split
  · exact h
  · exact ⟨h.st, h.res, congrArg (· + 1) h.ncons, h.rlen, h.frame, h.check⟩

theorem Asm.Agree.budget (h : a.Agree c) (hlim : p.overallLimit = q.overallLimit) :
    (a.budget p).Agree (c.budget q) := by
  unfold Asm.budget
  rw [hlim]
  split
  · exact h
  · rw [h.st, h.ncons]
    split
    · exact h.finish (by simp)
    · exact h

/-- R102 to R111: a byte keeps the agreement. -/
theorem Asm.Agree.byte (h : a.Agree c) (hpq : p.rescanIdByte = q.rescanIdByte) (hlim : p.overallLimit = q.overallLimit)
    (ha : a.byte p b = .ok a') (hc : c.byte q b = .ok c') : a'.Agree c' := by
  unfold Asm.byte Asm.budgeted at ha hc
  rw [h.st] at hc
  by_cases hst : a.st = .idle
  · simp only [hst, if_true] at ha hc
    cases ha; cases hc
    exact h
  · rw [if_neg hst] at ha hc
    split at ha
    · cases ha
    · split at hc
      · cases hc
      · next a1 ha1 _ c1 hc1 =>
        cases ha; cases hc
        exact ((h.count hlim).stateRule hpq ha1 hc1).budget hlim

theorem Asm.Agree.answer (h : a.Agree c) (hpq : p.rescanIdByte = q.rescanIdByte)
    (hlim : p.overallLimit = q.overallLimit) {x : RxAnswer} (ha : a.answer p x = .ok a') (hc : c.answer q x = .ok c') :
    a'.Agree c' := by
  cases x with
  | byte b => exact h.byte hpq hlim ha hc
  | noData =>
    cases ha; cases hc
    exact h.noData

/-- R117: the loop over the same answers ends at the same answer, in agreement. -/
theorem Asm.Agree.run (h : a.Agree c) (hpq : p.rescanIdByte = q.rescanIdByte) (hlim : p.overallLimit = q.overallLimit)
    {xs rest rest' : List RxAnswer} (ha : Asm.run p (fun x => x) xs a = .ok (a', rest))
    (hc : Asm.run q (fun x => x) xs c = .ok (c', rest')) : a'.Agree c' ∧ rest' = rest := by
  induction xs generalizing a c with
  | nil =>
    cases ha; cases hc
    exact ⟨h, rfl⟩
  | cons x xs ih =>
    rw [Asm.run] at ha hc
    rw [h.st] at hc
    split at ha
    case isTrue hst =>
      rw [if_pos hst] at hc
      cases ha; cases hc
      exact ⟨h, rfl⟩
    case isFalse hst =>
      rw [if_neg hst] at hc
      split at ha
      · cases ha
      · split at hc
        · cases hc
        · next a1 ha1 _ c1 hc1 => exact ih (h.answer hpq hlim ha1 hc1) ha hc

/-- What DECODE returns is among what two assemblers agree on. -/
theorem Asm.Agree.decoded (h : a.Agree c) : c.decoded = a.decoded := by
  unfold Asm.decoded
  rw [h.res]
  split
  case isTrue hok =>
    obtain ⟨hrlen, hrtype, -, hpayload⟩ := h.frame (.inr hok)
    rw [hrlen, hrtype, hpayload]
  case isFalse => rfl

end

/-! ### DECODE -/

/-- DECODE in IDLE is the loop over the transport's answers: what it returns or that it waits, and what is left. -/
theorem exec_decode_ran {s : State} (hs : s.asm.st = .idle) :
    ∃ t used rest, exec .decode s = .next t ∧ answers s.line = used ++ rest
      ∧ Asm.run s.par (fun x => x) (answers s.line) s.asm.start = .ok (t.asm, rest)
      ∧ t.line = answered used.length s.line ∧ t.result = if t.asm.st = .idle then t.asm.decoded else .pending := by
  obtain ⟨a, used, rest, -, hinvoke, hrun, hanswers, -⟩ := s.invoke_following
  have hexec : exec .decode s
      = outcome ((((s.withLine (answered used.length s.line)).withAsm a).wait .decode).resume) := by
    simp [exec, execDecode, hs, hinvoke]
  by_cases hend : a.st = .idle
  · exact ⟨(((s.withLine (answered used.length s.line)).withAsm a).wait .decode).ret a.decoded, used, rest,
      by simp [hexec, State.resume, hend], hanswers, hrun, rfl, by simp [hend]⟩
  · exact ⟨((s.withLine (answered used.length s.line)).withAsm a).wait .decode, used, rest,
      by simp [hexec, State.resume, hend], hanswers, hrun, rfl, by simp [hend]⟩

/-- Settles O40: the two loops run over the same answers, in agreement from RX_START on. -/
theorem decodeDependsOnAnswersAndParametersAlone : Obligations.DecodeDependsOnAnswersAndParametersAlone := by
  intro s1 s2 t1 t2 hs1 hs2 hrescan hlim hheld hnext ht1 ht2
  obtain ⟨u1, used1, rest1, hexec1, hsplit1, hrun1, hline1, hresult1⟩ := exec_decode_ran hs1
  obtain ⟨u2, used2, rest2, hexec2, hsplit2, hrun2, hline2, hresult2⟩ := exec_decode_ran hs2
  cases hexec1.symm.trans ht1
  cases hexec2.symm.trans ht2
  have hanswers : answers s2.line = answers s1.line := by simp only [answers, hheld, hnext]
  rw [hanswers] at hrun2 hsplit2
  obtain ⟨hagree, rfl⟩ := (Asm.agree_start s1.asm s2.asm).run hrescan hlim hrun1 hrun2
  obtain rfl : used1 = used2 := List.append_cancel_right (hsplit1.symm.trans hsplit2)
  refine ⟨?_, hagree.st.symm, hagree.res.symm, ?_, ?_⟩
  · rw [hresult1, hresult2, hagree.st, hagree.decoded]
  · simp only [hline1, hline2, answered, hheld, hnext]
  · simp only [hline1, hline2, answered, hnext]

end Sys2Proof.Machine
end

section
/-! PROOF. The output signals of R23 and the status codes: what `pbuf_rd` shows after R_OK, and from it O34. -/

namespace Sys2Proof.Machine

open Sys2Proof.Claims

/-- After R_OK an entry of the payload is shown as it is (R16, R23). -/
theorem State.pbufRd_of_ok {s : State} (hok : s.asm.res = .rOk) {i : Nat} (h : i < 252) (hi : i < s.asm.pcnt.toNat) :
    s.pbufRd i = s.asm.pbuf[i] := by
  simp [State.pbufRd, hok, hi, h]

/-- After R_OK the payload is what `pbuf_rd` shows, entry by entry. -/
theorem State.payloadOf_eq_pbufRd {s : State} (hok : s.asm.res = .rOk) (hle : s.asm.pcnt.toNat ≤ 252) :
    payloadOf s.asm = (List.range s.asm.pcnt.toNat).map fun i => s.pbufRd i := by
  refine List.ext_getElem (by simp [payloadOf, hle]) fun i hi _ => ?_
  have hlt : i < s.asm.pcnt.toNat := by simp [payloadOf] at hi; omega
  simp [payloadOf, State.pbufRd_of_ok hok (Nat.lt_of_lt_of_le hlt hle) hlt]

/-- Settles O34: the signals by their definitions, the payload entry by entry, the codes and causes by evaluation. -/
theorem outputSignalsShowTheRegisters : Obligations.OutputSignalsShowTheRegisters := by
  refine ⟨fun s => ⟨by simp [State.busy], rfl, rfl, rfl, rfl, fun hok => ⟨?rlen, ?rtype, ?pcnt, ?entry, ?payload⟩⟩,
    ⟨rfl, rfl, rfl, rfl, rfl⟩, rfl, rfl, rfl, fun _ _ => rfl, rfl⟩
  case rlen => exact if_pos hok
  case rtype => exact if_pos hok
  case pcnt => exact if_pos hok
  case entry => exact fun i h hi => State.pbufRd_of_ok hok h hi
  case payload => exact State.payloadOf_eq_pbufRd hok

end Sys2Proof.Machine
end

section
/-! PROOF. The event `rx_byte` and the transport's sending side: RXFRAME is one event per byte (O33), every step only
appends to the TX stream and the reports (O5), and what is no sequence sends nothing (O8). -/

namespace Sys2Proof.Machine

open Sys2Proof.Claims

/-! ### Rows and frames as events -/

/-- Bytes that come in one after another are as many events `rx_byte`. -/
theorem outcome_rxBytes (bs : List Byte) (s : State) : outcome (s.rxBytes bs) = byteEvents bs s := by
  induction bs generalizing s with
  | nil => rfl
  | cons b bs ih =>
    have hevent : exec (.rxByteLimit b) s = outcome (s.rxByte b) := rfl
    rw [State.rxBytes, byteEvents, hevent]
    cases s.rxByte b with
    | error e => rfl
    | ok t => exact ih t

/-- Settles O33: each row's own rule is the rule of the state it names, and a frame is a list of bytes that come in. -/
theorem rowsAndFramesAreByteEvents : Obligations.RowsAndFramesAreByteEvents :=
  ⟨fun b s => ⟨exec_rxByteIdle b s, exec_rxByteHunt b s, exec_rxByteId b s, exec_rxByteLen b s,
      exec_rxByteTypeValid b s, exec_rxByteTypeInvalid b s, exec_rxByteDataPayload b s, exec_rxByteDataChecksum b s⟩,
    fun len type body s => outcome_rxBytes (header :: devIdRx :: len :: type :: body) s⟩

/-! ### The TX stream and the reports only grow -/

/-- The TX stream and the reports of `s` go on in `t`, under the same parameters. -/
structure State.Grows (s t : State) : Prop where
  tx : s.line.tx <+: t.line.tx
  reports : s.line.reports <+: t.line.reports
  par : t.par = s.par

theorem State.Grows.of_eq {s t : State} (htx : t.line.tx = s.line.tx) (hreports : t.line.reports = s.line.reports)
    (hpar : t.par = s.par) : s.Grows t :=
  ⟨htx ▸ List.prefix_rfl, hreports ▸ List.prefix_rfl, hpar⟩

theorem State.Keeps.grows {s t : State} (h : s.Keeps t) : s.Grows t := by
  obtain ⟨⟨-, -, hpar, -⟩, htx, hreports⟩ := h
  exact ⟨htx, hreports, hpar⟩

theorem State.send_grows (cmd : List Byte) (s : State) : s.Grows (s.send cmd) := by
  obtain ⟨-, -, -, -, -, htx, hreports⟩ := s.line.txWrite_frame (encodeFrameBytes cmd)
  exact ⟨htx, hreports, rfl⟩

/-- Only a received event that resumes a call and a sequence's command write, and both append. -/
theorem Effect.grows {s t : State} {i : Instr} {o : Host.Outcome State Fault Refusal} (h : Effect s i o)
    (ht : o = .next t) : s.Grows t := by
  cases h with
  | refuse r => cases ht
  | receive hx => exact (hx.keeps_of_next ht).grows
  | send cmd =>
    cases ht
    obtain ⟨htx, hreports, hpar⟩ := s.send_grows cmd
    exact ⟨htx, hreports, hpar⟩
  | opened path | notOpened path =>
    cases ht
    obtain ⟨-, -, htx, -, -, hreports⟩ := s.line.askOpen_frame path
    exact .of_eq htx hreports rfl
  | give | encode | map | closed =>
    cases ht
    exact .of_eq rfl rfl rfl

/-- R40, R43: a step appends to the TX stream and the reports, or leaves them. -/
theorem step_grows {s t : State} (h : step s = .next t) : s.Grows t := by
  obtain hd | ⟨i, rest, he⟩ | ⟨r, hr⟩ := step_cases s
  · exact (s.deliver_receives.keeps_of_next (hd.symm.trans h)).grows
  · obtain ⟨htx, hreports, hpar⟩ := (exec_effect i _).grows (he.symm.trans h)
    exact ⟨htx, hreports, hpar⟩
  · cases hr.symm.trans h

/-- Settles O5: by the effects of the operations, each of which only appends. -/
theorem stepOnlyAppendsAndKeepsParameters : Obligations.StepOnlyAppendsAndKeepsParameters := by
  intro s t h
  obtain ⟨htx, hreports, hpar⟩ := step_grows h
  exact ⟨htx, hreports, hpar⟩

/-! ### Nothing is sent outside the sequences -/

/-- No next state of the outcome has another sending side than `s`. -/
def SendsNothing (s : State) (o : Host.Outcome State Fault Refusal) : Prop :=
  ∀ t, o = .next t → SameSending s.line t.line

theorem sameSending_refl (l : Line) : SameSending l l := ⟨rfl, rfl, rfl⟩

theorem sameSending_trans {l l' l'' : Line} (h : SameSending l l') (h' : SameSending l' l'') : SameSending l l'' := by
  obtain ⟨htx, hnext, hreports⟩ := h
  obtain ⟨htx', hnext', hreports'⟩ := h'
  exact ⟨htx'.trans htx, hnext'.trans hnext, hreports'.trans hreports⟩

theorem sendsNothing_next {s t : State} (h : SameSending s.line t.line) : SendsNothing s (.next t) := by
  rintro u ⟨⟩
  exact h

theorem sendsNothing_refused (s : State) (r : Refusal) : SendsNothing s (.refused r) := by
  rintro t ⟨⟩

/-- With no call waiting, `rx_byte` begins no call and sends nothing. -/
theorem State.rxByte_sameSending {b : Byte} {s t : State} (hc : s.call = .none) (h : s.rxByte b = .ok t) :
    t.call = .none ∧ SameSending s.line t.line := by
  rw [State.rxByte] at h
  split at h
  · cases h
    exact ⟨hc, rfl, rfl, rfl⟩
  · rw [State.takeByte_eq] at h
    split at h
    · cases h
    · next a _ =>
      have hresume := ((s.withLine (lineAfter b s)).withAsm a).resume_none hc
      cases hresume.symm.trans h
      exact ⟨hc, rfl, rfl, rfl⟩

theorem State.rxBytes_sameSending {bs : List Byte} {s t : State} (hc : s.call = .none) (h : s.rxBytes bs = .ok t) :
    SameSending s.line t.line := by
  induction bs generalizing s with
  | nil =>
    cases h
    exact sameSending_refl _
  | cons b bs ih =>
    rw [State.rxBytes] at h
    split at h
    · cases h
    · next u hu =>
      obtain ⟨hcall, hsend⟩ := State.rxByte_sameSending hc hu
      exact sameSending_trans hsend (ih hcall h)

theorem sendsNothing_rxBytes {s : State} (bs : List Byte) (hc : s.call = .none) :
    SendsNothing s (outcome (s.rxBytes bs)) :=
  fun _ ht => State.rxBytes_sameSending hc (outcome_next_iff.mp ht)

/-- An operation that is the event `rx_byte`, as each of the nine rows is. -/
theorem sendsNothing_rxByte {o : Host.Outcome State Fault Refusal} {b : Byte} {s : State} (hc : s.call = .none)
    (h : o = outcome (s.rxByte b)) : SendsNothing s o := by
  subst h
  intro t ht
  obtain ⟨-, hsend⟩ := State.rxByte_sameSending hc (outcome_next_iff.mp ht)
  exact hsend

theorem sendsNothing_rxNodata {s : State} (hc : s.call = .none) : SendsNothing s (exec .rxNodata s) := by
  by_cases hs : s.asm.st = .idle
  · have hidle : exec .rxNodata s = .next s := congrArg outcome (if_pos hs)
    rw [hidle]
    exact sendsNothing_next (sameSending_refl _)
  · rw [exec_rxNodata_no_call hs hc]
    exact sendsNothing_next (sameSending_refl _)

theorem sendsNothing_encode (form : EncodeForm) (s : State) : SendsNothing s (execEncode form s) := by
  intro t h
  obtain ⟨e, r, rfl⟩ := execEncode_frame h
  exact sameSending_refl _

theorem sendsNothing_rxStart (s : State) : SendsNothing s (execRxStart s) := by
  unfold execRxStart
  split
  · exact sendsNothing_next (sameSending_refl _)
  · exact sendsNothing_refused _ _

/-- DECODE takes answers to `RxNext` alone. -/
theorem sendsNothing_decode (s : State) : SendsNothing s (exec .decode s) := by
  by_cases hs : s.asm.st = .idle
  · obtain ⟨t, used, -, hexec, -, -, hline, -⟩ := exec_decode_ran hs
    rw [hexec]
    refine sendsNothing_next ?_
    rw [hline]
    exact ⟨rfl, rfl, rfl⟩
  · have hrefused : exec .decode s = .refused .decodeRunning := if_pos hs
    rw [hrefused]
    exact sendsNothing_refused _ _

theorem sendsNothing_toPosition (id : Byte) (angle : Half) (s : State) :
    SendsNothing s (execToPosition id angle s) := by
  unfold execToPosition
  split <;> exact sendsNothing_next (sameSending_refl _)

theorem sendsNothing_toAngle (id : Byte) (pos : Half) (s : State) : SendsNothing s (execToAngle id pos s) := by
  unfold execToAngle
  split <;> exact sendsNothing_next (sameSending_refl _)

/-- R44: with no call waiting, an operation that is no sequence sends nothing. -/
theorem exec_sendsNothing {i : Instr} {s : State} (hi : isSequence i = false) (hc : s.call = .none) :
    SendsNothing s (exec i s) := by
  cases i with
  | fmtWriteAll | fmtWriteOne1 | fmtWriteOne2 | fmtWriteOne3 | fmtWriteOne4 | fmtWriteOne5 | fmtWriteOne6 | fmtTorque
  | fmtPing | fmtReadPos1 | fmtReadPos2 | fmtReadPos3 | fmtReadPos4 | fmtReadPos5 | fmtReadPos6 | fmtBuzzer
  | chkOut | chkIn => exact sendsNothing_next (sameSending_refl _)
  | encode form => exact sendsNothing_encode form s
  | rxFrame len type body => exact sendsNothing_rxBytes _ hc
  | rxStart => exact sendsNothing_rxStart s
  | rxByteHunt b => exact sendsNothing_rxByte hc (exec_rxByteHunt b s)
  | rxByteId b => exact sendsNothing_rxByte hc (exec_rxByteId b s)
  | rxByteLen b => exact sendsNothing_rxByte hc (exec_rxByteLen b s)
  | rxByteTypeValid b => exact sendsNothing_rxByte hc (exec_rxByteTypeValid b s)
  | rxByteTypeInvalid b => exact sendsNothing_rxByte hc (exec_rxByteTypeInvalid b s)
  | rxByteDataPayload b => exact sendsNothing_rxByte hc (exec_rxByteDataPayload b s)
  | rxByteDataChecksum b => exact sendsNothing_rxByte hc (exec_rxByteDataChecksum b s)
  | rxByteLimit b => exact sendsNothing_rxByte (b := b) hc rfl
  | rxByteIdle b => exact sendsNothing_rxByte hc (exec_rxByteIdle b s)
  | rxNodata => exact sendsNothing_rxNodata hc
  | decode => exact sendsNothing_decode s
  | toPosition id angle => exact sendsNothing_toPosition id angle s
  | toAngle id pos => exact sendsNothing_toAngle id pos s
  | seqOpen | seqWriteAll | seqWriteOne | seqSetTorque | seqPing | seqReadAngle | seqClose => cases hi

/-- Settles O8: by cases on the operation; the events send nothing where no call waits for them. -/
theorem onlySequencesWriteToTheTransport : Obligations.OnlySequencesWriteToTheTransport :=
  fun _ _ t h hi hc => exec_sendsNothing hi hc t h

end Sys2Proof.Machine
end

section
/-! PROOF. The decoder and the encoder (R61, R63, R69) are inverse: `encode_of_decodeCommand` and
`decodeCommand_of_encode` say so of a command's LEN, CMD and payload, and each stage of the decoder has one lemma that
says what it accepts. From these O10, O11, O12 and, with the layout of a command, O16. -/

namespace Sys2Proof.Machine

open Sys2Proof.Claims

/-! ### The bytes of a command -/

/-- R62, R67: a command row's bytes are `FF FC LEN CMD payload`, and LEN counts itself, CMD, the payload and the
checksum. -/
theorem encode_command_layout {i : Instr} {bs : List Byte} (h : encode i = some bs)
    (hi : ∀ l t body, i ≠ .rxFrame l t body) :
    ∃ len cmd payload, bs = header :: devIdTx :: len :: cmd :: payload ∧ len.toNat = payload.length + minLen := by
  cases i with
  | fmtWriteAll | fmtWriteOne1 | fmtWriteOne2 | fmtWriteOne3 | fmtWriteOne4 | fmtWriteOne5 | fmtWriteOne6 | fmtTorque
  | fmtPing | fmtReadPos1 | fmtReadPos2 | fmtReadPos3 | fmtReadPos4 | fmtReadPos5 | fmtReadPos6 | fmtBuzzer =>
    cases h
    exact ⟨_, _, _, rfl, rfl⟩
  | rxFrame l t body => exact absurd rfl (hi l t body)
  | _ => cases h

/-- The device id of an incoming frame is not a command's (R61, R63). -/
theorem ne_rxFrame_of_encode {i : Instr} {cmd : List Byte} (h : encode i = some (header :: devIdTx :: cmd)) :
    ∀ l t body, i ≠ .rxFrame l t body := by
  rintro l t body rfl
  cases h

/-- R61: a command's frame is its bytes with the checksum after them. -/
theorem encodeFrame_of_ne_rxFrame {i : Instr} {bs : List Byte} (h : encode i = some bs)
    (hi : ∀ l t body, i ≠ .rxFrame l t body) : encodeFrame i = some (bs ++ [chkOut bs]) := by
  have hmap : encodeFrame i = (encode i).map fun s => s ++ [chkOut s] := by
    cases i with
    | rxFrame l t body => exact absurd rfl (hi l t body)
    | _ => rfl
  rw [hmap, h, Option.map_some]

/-- The table constrains no operand of a command row. -/
theorem wellFormed_of_encode_command {i : Instr} {bs : List Byte} (h : encode i = some bs)
    (hi : ∀ l t body, i ≠ .rxFrame l t body) : i.wellFormed = true := by
  cases i with
  | rxFrame l t body => exact absurd rfl (hi l t body)
  | chkIn => cases h
  | _ => rfl

theorem wellFormed_rxFrame_iff {len type : Byte} {body : List Byte} :
    (Instr.rxFrame len type body).wellFormed = true ↔ body.length = len.toNat - lenOverhead := by
  simp [Instr.wellFormed]

/-! ### What each stage of the decoder accepts -/

/-- The command the decoder reads is laid out as the bytes it was read from. -/
theorem encode_of_decodeCommand {len cmd : Byte} {payload : List Byte} {i : Instr}
    (h : decodeCommand len cmd payload = some i) : encode i = some (header :: devIdTx :: len :: cmd :: payload) := by
  unfold decodeCommand at h
  split at h
  next hall =>
    obtain ⟨rfl, rfl⟩ := hall
    split at h <;> cases h
    simp [encode, bytes16_be16]
  split at h
  next hone =>
    subst hone
    split at h
    · dsimp only at h
      split_ifs at h with hcmd hcmd hcmd hcmd hcmd hcmd <;> cases h <;> simp [encode, bytes16_be16, hcmd]
    · cases h
  split at h
  next hbyte =>
    subst hbyte
    split at h
    · split_ifs at h with hcmd hcmd hcmd <;> cases h <;> simp [encode, hcmd]
    · cases h
  split at h
  next hread =>
    subst hread
    split at h
    · split_ifs at h with hcmd hcmd hcmd hcmd hcmd hcmd <;> cases h <;> simp [encode, hcmd]
    · cases h
  cases h

/-- The decoder reads a command back from its LEN, its CMD and its payload. -/
theorem decodeCommand_of_encode {len cmd : Byte} {payload : List Byte} {i : Instr}
    (h : encode i = some (header :: devIdTx :: len :: cmd :: payload)) : decodeCommand len cmd payload = some i := by
  cases i with
  | fmtWriteAll p1 p2 p3 p4 p5 p6 t =>
    cases h
    simp [decodeCommand, bytes16, be16_hi8_lo8]
  | fmtWriteOne1 p t | fmtWriteOne2 p t | fmtWriteOne3 p t | fmtWriteOne4 p t | fmtWriteOne5 p t | fmtWriteOne6 p t =>
    cases h
    simp [decodeCommand, bytes16, be16_hi8_lo8, lenWriteAll, lenWriteOne, cmdWriteOneBase]
  | fmtTorque | fmtPing | fmtReadPos1 | fmtReadPos2 | fmtReadPos3 | fmtReadPos4 | fmtReadPos5 | fmtReadPos6
  | fmtBuzzer =>
    cases h
    rfl
  | _ => cases h

/-- R61, R62: after `FF FC LEN CMD` come the payload LEN announces and then nothing or the right checksum byte. -/
theorem decodeTx_eq_ok_iff {len cmd : Byte} {rest : List Byte} {i : Instr} :
    decodeTx len cmd rest = .ok i ↔
      ∃ payload, payload.length = len.toNat - minLen
        ∧ encode i = some (header :: devIdTx :: len :: cmd :: payload)
        ∧ (rest = payload ∨ rest = payload ++ [chkOut (header :: devIdTx :: len :: cmd :: payload)]) := by
  constructor
  · intro h
    dsimp only [decodeTx] at h
    split_ifs at h with hshort
    have hlen : (rest.take (len.toNat - minLen)).length = len.toNat - minLen := List.length_take_of_le (by omega)
    have hrest := List.take_append_drop (len.toNat - minLen) rest
    split at h
    · cases h
    next j hj =>
      split at h
      next hdrop =>
        cases h
        exact ⟨_, hlen, encode_of_decodeCommand hj, .inl (by rw [← hrest, hdrop]; simp)⟩
      next c hdrop =>
        split_ifs at h with hc
        cases h
        exact ⟨_, hlen, encode_of_decodeCommand hj, .inr (by rw [← hc, ← hdrop, hrest])⟩
      · cases h
  · rintro ⟨payload, hlen, henc, rfl | rfl⟩ <;> simp [decodeTx, ← hlen, decodeCommand_of_encode henc]

/-- R71, R73: after `FF FB LEN TYPE` come exactly `LEN - 2` bytes, none where LEN < 3. -/
theorem decodeRx_eq_ok_iff {len type : Byte} {rest : List Byte} {i : Instr} :
    decodeRx len type rest = .ok i ↔ i = .rxFrame len type rest ∧ i.wellFormed = true := by
  constructor
  · intro h
    dsimp only [decodeRx] at h
    split_ifs at h with hshort hlong
    cases h
    exact ⟨rfl, wellFormed_rxFrame_iff.mpr (by omega)⟩
  · rintro ⟨rfl, hw⟩
    have hlen := wellFormed_rxFrame_iff.mp hw
    simp [decodeRx, hlen]

theorem decode_tx (len cmd : Byte) (rest : List Byte) :
    Sys2Proof.decode (header :: devIdTx :: len :: cmd :: rest) = decodeTx len cmd rest := rfl

theorem decode_rx (len type : Byte) (rest : List Byte) :
    Sys2Proof.decode (header :: devIdRx :: len :: type :: rest) = decodeRx len type rest := rfl

/-- R60, R61, R63: only bytes that begin `FF FC` or `FF FB` spell an operation. -/
theorem decode_ok_cases {bs : List Byte} {i : Instr} (h : Sys2Proof.decode bs = .ok i) :
    (∃ len cmd rest, bs = header :: devIdTx :: len :: cmd :: rest ∧ decodeTx len cmd rest = .ok i)
    ∨ (∃ len type rest, bs = header :: devIdRx :: len :: type :: rest ∧ decodeRx len type rest = .ok i) := by
  unfold Sys2Proof.decode at h
  split at h
  · split_ifs at h with hheader htx hrx
    · exact .inl ⟨_, _, _, by rw [not_not.mp hheader, htx], h⟩
    · exact .inr ⟨_, _, _, by rw [not_not.mp hheader, hrx], h⟩
  · cases h

/-! ### Decode of encode -/

/-- A command is read back from its bytes, without and with the checksum byte (log entry 10). -/
theorem decode_command {i : Instr} {bs : List Byte} (h : encode i = some bs)
    (hi : ∀ l t body, i ≠ .rxFrame l t body) :
    Sys2Proof.decode bs = .ok i ∧ Sys2Proof.decode (bs ++ [chkOut bs]) = .ok i := by
  obtain ⟨len, cmd, payload, rfl, hlen⟩ := encode_command_layout h hi
  have hpayload : payload.length = len.toNat - minLen := by omega
  exact ⟨(decode_tx ..).trans (decodeTx_eq_ok_iff.mpr ⟨payload, hpayload, h, .inl rfl⟩),
    (decode_tx ..).trans (decodeTx_eq_ok_iff.mpr ⟨payload, hpayload, h, .inr rfl⟩)⟩

/-- An incoming frame with as many bytes as it announces is read back from them. -/
theorem decode_rxFrame {len type : Byte} {body : List Byte} (hw : (Instr.rxFrame len type body).wellFormed = true) :
    Sys2Proof.decode (header :: devIdRx :: len :: type :: body) = .ok (.rxFrame len type body) :=
  (decode_rx ..).trans (decodeRx_eq_ok_iff.mpr ⟨rfl, hw⟩)

/-- An operation is an incoming frame or is none. -/
theorem rxFrame_or_ne (i : Instr) :
    (∃ len type body, i = .rxFrame len type body) ∨ ∀ l t body, i ≠ .rxFrame l t body := by
  by_cases h : ∀ l t body, i ≠ .rxFrame l t body
  · exact .inr h
  · push Not at h
    exact .inl h

theorem decode_of_encode {i : Instr} {bs : List Byte} (hw : i.wellFormed = true) (h : encode i = some bs) :
    Sys2Proof.decode bs = .ok i := by
  obtain ⟨len, type, body, rfl⟩ | hi := rxFrame_or_ne i
  · cases h
    exact decode_rxFrame hw
  · exact (decode_command h hi).1

/-- Settles O11: an incoming frame by its announced length, a command by the inverse of its layout. -/
theorem decodeReadsBackWhatEncodeWrites : Obligations.DecodeReadsBackWhatEncodeWrites := by
  intro i bs f hw hbs hf
  refine ⟨decode_of_encode hw hbs, ?_⟩
  obtain ⟨len, type, body, rfl⟩ | hi := rxFrame_or_ne i
  · exact decode_of_encode hw hf
  · obtain rfl : bs ++ [chkOut bs] = f := Option.some.inj ((encodeFrame_of_ne_rxFrame hbs hi).symm.trans hf)
    exact (decode_command hbs hi).2

/-- Settles O12: what each stage of the decoder accepts is laid out by the encoder. -/
theorem decodeAcceptsOnlyEncodings : Obligations.DecodeAcceptsOnlyEncodings := by
  intro bs i h
  obtain ⟨len, cmd, rest, rfl, htx⟩ | ⟨len, type, rest, rfl, hrx⟩ := decode_ok_cases h
  · obtain ⟨payload, -, henc, hrest⟩ := decodeTx_eq_ok_iff.mp htx
    have hi := ne_rxFrame_of_encode henc
    refine ⟨wellFormed_of_encode_command henc hi, ?_⟩
    obtain rfl | rfl := hrest
    · exact .inl henc
    · exact .inr (encodeFrame_of_ne_rxFrame henc hi)
  · obtain ⟨rfl, hw⟩ := decodeRx_eq_ok_iff.mp hrx
    exact ⟨hw, .inl rfl⟩

/-! ### What a formatter answers -/

/-- R150: a command row's meaning is to answer its own encoding. -/
theorem exec_of_encode_command {i : Instr} {bs : List Byte} (s : State) (h : encode i = some bs)
    (hi : ∀ l t body, i ≠ .rxFrame l t body) : exec i s = formatted bs s := by
  cases i with
  | fmtWriteAll | fmtWriteOne1 | fmtWriteOne2 | fmtWriteOne3 | fmtWriteOne4 | fmtWriteOne5 | fmtWriteOne6 | fmtTorque
  | fmtPing | fmtReadPos1 | fmtReadPos2 | fmtReadPos3 | fmtReadPos4 | fmtReadPos5 | fmtReadPos6 | fmtBuzzer =>
    cases h
    rfl
  | rxFrame l t body => exact absurd rfl (hi l t body)
  | _ => cases h

/-- R93: the checksum that frames a command is the plain sum of LEN, CMD and the payload. -/
theorem framed_command (len cmd : Byte) (payload : List Byte) :
    framed (header :: devIdTx :: len :: cmd :: payload) = (header :: devIdTx :: len :: cmd :: payload)
      ++ [BitVec.ofNat 8 ((len.toNat + cmd.toNat + byteSum payload) % 256)] := by
  rw [← encodeFrameBytes_eq_framed, encodeFrameBytes, chkOut_header, ofNat_mod_byte, sumBytes_cons, sumBytes_cons,
    sumBytes_eq_byteSum, Nat.add_assoc]

/-- Settles O16: by the layout of a command row and the checksum of such a layout. -/
theorem formattersAnswerSelfDescribingFrames : Obligations.FormattersAnswerSelfDescribingFrames := by
  intro i bs s h hi
  have hexec := exec_of_encode_command s h hi
  obtain ⟨len, cmd, payload, rfl, hlen⟩ := encode_command_layout h hi
  exact ⟨hexec, len, cmd, payload, rfl, hlen, framed_command len cmd payload⟩

/-! ### Words of the table -/

/-- A table row's number that is laid out as a well-formed operation is read as that operation. -/
theorem decodeTableWord_of_encode {nbits w : Nat} {i : Instr} (hw : i.wellFormed = true)
    (h : encode i = some (tableBytes nbits w)) : decodeTableWord nbits w = some i := by
  rw [decodeTableWord, decode_of_encode hw h]

/-- Settles O10: each word is the encoding of its row, and the checksum of `FMT_PING(7)` is 43 and not 44. -/
theorem tableWordsDecodeToTheirRows : Obligations.TableWordsDecodeToTheirRows := by
  have hping := decode_command (i := .fmtPing 7#8) (bs := [0xFF#8, 0xFC#8, 0x04#8, 0x38#8, 0x07#8]) rfl nofun
  exact ⟨decodeTableWord_of_encode rfl (by decide), decodeTableWord_of_encode rfl (by decide),
    decodeTableWord_of_encode rfl (by decide), decodeTableWord_of_encode rfl (by decide),
    decodeTableWord_of_encode rfl (by decide), hping.2, by decide⟩

end Sys2Proof.Machine
end

section
/-! PROOF. The checksums (R90, R91, R93, R94, R100): O17 to O20. Both are an 8-bit register that starts at a seed and
adds one byte after another, and every statement about them is one about the plain sum. -/

namespace Sys2Proof.Machine

open Sys2Proof.Claims

/-! ### The plain sum -/

theorem sumBytes_perm {bs cs : List Byte} (h : bs.Perm cs) : sumBytes bs = sumBytes cs := by
  rw [sumBytes_eq_byteSum, sumBytes_eq_byteSum]
  exact (h.map _).sum_eq

/-- R91: an 8-bit register that drops carries holds the plain sum mod 256. -/
theorem foldl_add_ofNat (bs : List Byte) (seed : Nat) :
    bs.foldl (fun sum b => sum + b) (BitVec.ofNat 8 seed) = BitVec.ofNat 8 (seed + sumBytes bs) := by
  induction bs generalizing seed with
  | nil => rfl
  | cons b bs ih =>
    have hb : BitVec.ofNat 8 seed + b = BitVec.ofNat 8 (seed + b.toNat) := by
      rw [BitVec.ofNat_add, BitVec.ofNat_toNat, BitVec.setWidth_eq]
    rw [List.foldl_cons, hb, ih, sumBytes_cons, Nat.add_assoc]

theorem chkOut_eq_foldl (bs : List Byte) : chkOut bs = bs.foldl (fun sum b => sum + b) 5#8 :=
  (foldl_add_ofNat bs chkSeedTx).symm

theorem chkIn_eq_foldl (len type : Byte) (bs : List Byte) :
    chkIn len type bs = bs.foldl (fun sum b => sum + b) (len + type) := by
  have hseed : len + type = BitVec.ofNat 8 (len.toNat + type.toNat) := by
    rw [← ofNat_mod_byte]
    exact addByte_eq len type
  rw [hseed, foldl_add_ofNat, chkIn]

/-! ### The statements -/

/-- R90 in the terms of the claims. -/
theorem chkOut_eq_byteSum (bs : List Byte) : chkOut bs = BitVec.ofNat 8 ((5 + byteSum bs) % 256) := by
  rw [ofNat_mod_byte, ← sumBytes_eq_byteSum, chkOut, chkSeedTx]

/-- Settles O17: both operations answer their function and write the result alone. -/
theorem checksumOperationsAnswerTheSums : Obligations.ChecksumOperationsAnswerTheSums := by
  intro bs p len type s
  rw [← chkOut_eq_byteSum, ← chkIn_eq_incomingChecksum]
  exact ⟨rfl, rfl⟩

/-- Settles O18: the plain sum ignores the order, and the register holds it mod 256. -/
theorem checksumIgnoresOrderAndGrowsByteByByte : Obligations.ChecksumIgnoresOrderAndGrowsByteByByte := by
  refine ⟨fun bs cs h => ?_, chkOut_eq_foldl, chkIn_eq_foldl⟩
  have hsum := sumBytes_perm h
  exact ⟨by rw [chkOut, chkOut, hsum], fun l t => by rw [chkIn, chkIn, hsum]⟩

/-- R93: the incoming header and the seed do not cancel; mod 256 they leave -1, as 255. -/
theorem chkOut_incoming_header (s : List Byte) :
    chkOut (header :: devIdRx :: s) = BitVec.ofNat 8 (sumBytes s + 255) := by
  have hseed : (header.toNat + devIdRx.toNat + chkSeedTx) % 256 = 255 := by decide
  rw [chkOut, ofNat_byte_eq]
  simp only [sumBytes_cons]
  omega

/-- Settles O19: the seed cancels the outgoing header, and all but one of the incoming one. -/
theorem outgoingHeaderCancelsTheSeed : Obligations.OutgoingHeaderCancelsTheSeed := by
  intro l t p
  refine ⟨?sameAsIncoming, fun r => ⟨?outgoing, ?incoming⟩⟩
  case sameAsIncoming =>
    refine (chkOut_header (l :: t :: p)).trans ?_
    rw [sumBytes_cons, sumBytes_cons, ← Nat.add_assoc, chkIn]
  case outgoing =>
    rw [ofNat_mod_byte, ← sumBytes_eq_byteSum]
    exact chkOut_header r
  case incoming =>
    rw [ofNat_mod_byte, ← sumBytes_eq_byteSum]
    exact chkOut_incoming_header r

/-- Settles O20: two bytes with the same sum mod 256 before and behind the same bytes are the same byte. -/
theorem oneChangedByteIsDetected : Obligations.OneChangedByteIsDetected := by
  intro u v b c hne hsame
  refine hne (BitVec.eq_of_toNat_eq ?_)
  have hsum := congrArg BitVec.toNat hsame
  simp only [chkOut_toNat, sumBytes_append, sumBytes_cons] at hsum
  have hb := b.isLt
  have hc := c.isLt
  omega

end Sys2Proof.Machine
end

section
/-! PROOF. Unit ENC (R92): what each form of ENCODE does in its place and out of it (O21), and the run of enc_start, the
enc_bytes and enc_end (O22). -/

namespace Sys2Proof.Machine

open Sys2Proof.Claims

/-! ### One form of ENCODE -/

theorem exec_encode_whole (cmd : List Byte) (s : State) :
    exec (.encode (.whole cmd)) s = .next (s.give (.bytes (framed cmd))) := by
  rw [← encodeFrameBytes_eq_framed]
  rfl

theorem exec_encode_start {s : State} (h : s.enc.tst = .idle) :
    exec (.encode .start) s = .next (s.withEnc s.enc.start) := if_pos h

theorem exec_encode_byte {s : State} (h : s.enc.tst = .busy) (b : Byte) :
    exec (.encode (.byte b)) s = .next (s.withEnc (s.enc.byte b)) := if_pos h

theorem exec_encode_stop {s : State} (h : s.enc.tst = .busy) :
    exec (.encode .stop) s = .next (s.withEnc s.enc.stop) := if_pos h

/-- U1: out of the order start, bytes, end an event is refused. -/
theorem exec_encode_start_busy {s : State} (h : s.enc.tst = .busy) : exec (.encode .start) s = .refused .encoderOrder :=
  if_neg (by simp [h])

theorem exec_encode_byte_idle {s : State} (h : s.enc.tst = .idle) (b : Byte) :
    exec (.encode (.byte b)) s = .refused .encoderOrder := if_neg (by simp [h])

theorem exec_encode_stop_idle {s : State} (h : s.enc.tst = .idle) : exec (.encode .stop) s = .refused .encoderOrder :=
  if_neg (by simp [h])

/-- Settles O21: the form of ENCODE in each of TST's two states. -/
theorem encodeAndItsEvents : Obligations.EncodeAndItsEvents := by
  refine fun s => ⟨fun cmd => exec_encode_whole cmd s, exec_encode_start, fun h b => ?byte, exec_encode_stop,
    exec_encode_start_busy, fun h => ⟨exec_encode_stop_idle h, exec_encode_byte_idle h⟩⟩
  case byte =>
    rw [exec_encode_byte h, ← addByte_eq, ← h]
    rfl

/-! ### A command, event by event -/

/-- A step whose oldest request is an event of ENCODE, which is always well formed. -/
theorem step_encode {s : State} {form : EncodeForm} {rest : List Request}
    (h : s.inbox = .op (.encode form) :: rest) : step s = exec (.encode form) { s with inbox := rest } :=
  step_of_wellFormed h rfl rfl

theorem State.steps_succ {s t : State} (h : step s = .next t) (n : Nat) : s.steps (n + 1) = t.steps n := by
  rw [State.steps, h]

/-- With TST busy, an enc_byte per byte of `cmd` and enc_end emit `cmd` and the register that has added it. -/
theorem steps_encode_bytes (cmd : List Byte) (rest : List Request) (s : State) (hbusy : s.enc.tst = .busy)
    (hin : s.inbox = (cmd.map fun b => Request.op (.encode (.byte b))) ++ .op (.encode .stop) :: rest) :
    s.steps (cmd.length + 1) = .next { s with
      inbox := rest
      enc := { tst := .idle, tsum := cmd.foldl (fun sum b => sum + b) s.enc.tsum
               out := s.enc.out ++ cmd ++ [cmd.foldl (fun sum b => sum + b) s.enc.tsum] } } := by
  induction cmd generalizing s with
  | nil =>
    have hstop := (step_encode hin).trans (exec_encode_stop (by exact hbusy))
    rw [List.append_nil]
    exact State.steps_succ hstop 0
  | cons b cmd ih =>
    have hbyte := (step_encode hin).trans (exec_encode_byte (by exact hbusy) b)
    rw [List.length_cons, State.steps_succ hbyte, ih, List.append_cons s.enc.out b cmd]
    case hbusy => exact hbusy
    case hin => rfl
    rfl

/-- Settles O22: enc_start, and then the register holds the checksum once the last byte is in. -/
theorem encoderEventsEmitTheEncodedFrame : Obligations.EncoderEventsEmitTheEncodedFrame := by
  intro cmd rest s hidle hin
  have hstart := (step_encode hin).trans (exec_encode_start (by exact hidle))
  rw [State.steps_succ hstart, steps_encode_bytes cmd rest _ rfl rfl, framed, ← chkOut_eq_byteSum, chkOut_eq_foldl]
  rfl

end Sys2Proof.Machine
end

section
/-! PROOF. A frame that comes in whole (R71, R114): what a hunting assembler without a limit makes of its header, of its
payload bytes and of its right checksum, and from these the round trip O41. -/

namespace Sys2Proof.Machine

open Sys2Proof.Claims

variable {a a' : Asm} {par : Params} {len type b : Byte} {p : List Byte}

/-! ### One byte without a limit -/

/-- Without a limit a byte is its state rule, and the loop goes on from there. -/
theorem Asm.run_byte_cons (hlim : par.overallLimit = none) (hst : a.st ≠ .idle)
    (hrule : Asm.stateRule par b a = .ok a') (bs : List Byte) :
    Asm.run par RxAnswer.byte (b :: bs) a = Asm.run par RxAnswer.byte bs a' := by
  simp [Asm.run, hst, Asm.answer, Asm.byte, Asm.budgeted_of_none hlim, hrule]

/-! ### The header -/

/-- An assembler that has taken FF FB, LEN and TYPE, with LEN valid (R105). -/
def Asm.atPayload (len type : Byte) (a : Asm) : Asm := ({ a with rlen := len } : Asm).typeValidRule type

/-- R102 to R105: a hunting assembler takes the header of a frame with a valid LEN. -/
theorem Asm.run_header (hlim : par.overallLimit = none) (hst : a.st = .hunt) (h3 : 3 ≤ len.toNat) (bs : List Byte) :
    Asm.run par RxAnswer.byte (header :: devIdRx :: len :: type :: bs) a
      = Asm.run par RxAnswer.byte bs (a.atPayload len type) := by
  have hvalid : ¬ len.toNat < minLen := Nat.not_lt.mpr h3
  have hhunt : Asm.stateRule par header a = .ok { a with st := .id } := by
    simp [Asm.stateRule, hst, Asm.huntRule]
  have hid : Asm.stateRule par devIdRx { a with st := .id } = .ok { a with st := .len } := by
    simp [Asm.stateRule, Asm.idRule]
  have hlen : Asm.stateRule par len { a with st := .len } = .ok { a with rlen := len, st := .typ } := rfl
  have htype : Asm.stateRule par type { a with rlen := len, st := .typ } = .ok (a.atPayload len type) := by
    simp [Asm.stateRule, hvalid, Asm.atPayload, Asm.typeValidRule]
  rw [Asm.run_byte_cons hlim (by simp [hst]) hhunt, Asm.run_byte_cons hlim (by simp) hid,
    Asm.run_byte_cons hlim (by simp) hlen, Asm.run_byte_cons hlim (by simp) htype]

/-! ### The payload -/

/-- What the payload bytes `bs` make of an assembler in DATA (R107). -/
structure Asm.Takes (bs : List Byte) (a a' : Asm) : Prop where
  st : a'.st = .data
  rlen : a'.rlen = a.rlen
  rtype : a'.rtype = a.rtype
  res : a'.res = a.res
  rem : a'.rem.toNat + bs.length = a.rem.toNat
  pcnt : a'.pcnt.toNat = a.pcnt.toNat + bs.length
  sum : a'.sum = bs.foldl (fun sum b => sum + b) a.sum
  payload : a'.payload = a.payload ++ bs

theorem Asm.Takes.nil (hst : a.st = .data) : Asm.Takes [] a a :=
  ⟨hst, rfl, rfl, rfl, rfl, rfl, rfl, (List.append_nil _).symm⟩

theorem Asm.Takes.cons {a'' : Asm} {bs : List Byte} (h : Asm.Takes [b] a a') (h' : Asm.Takes bs a' a'') :
    Asm.Takes (b :: bs) a a'' where
  st := h'.st
  rlen := h'.rlen.trans h.rlen
  rtype := h'.rtype.trans h.rtype
  res := h'.res.trans h.res
  rem := by rw [← h.rem, ← h'.rem]; simp only [List.length_cons, List.length_nil]; omega
  pcnt := by rw [h'.pcnt, h.pcnt]; simp only [List.length_cons, List.length_nil]; omega
  sum := by rw [h'.sum, h.sum, List.foldl_cons, List.foldl_cons, List.foldl_nil]
  payload := by rw [h'.payload, h.payload, List.append_assoc]; rfl

/-- R107: with room in PBUF and more than the checksum to come, a byte is taken as payload. -/
theorem Asm.stateRule_payload (par : Params) (b : Byte) (hst : a.st = .data) (hrem : 1 < a.rem.toNat)
    (hroom : a.pcnt.toNat < 252) : ∃ a', Asm.stateRule par b a = .ok a' ∧ Asm.Takes [b] a a' := by
  have h0 : a.rem ≠ 0#8 := fun h => by simp [h] at hrem
  have h1 : a.rem ≠ 1#8 := fun h => by simp [h] at hrem
  have hrule : Asm.stateRule par b a = a.payloadRule b := by simp [Asm.stateRule, hst, h0, h1]
  refine ⟨_, hrule.trans (Asm.payloadRule_of_lt b a hroom), hst, rfl, rfl, rfl, ?rem, ?pcnt, rfl,
    Asm.payload_set a b hroom⟩
  case rem =>
    show (a.rem - 1#8).toNat + 1 = a.rem.toNat
    rw [BitVec.toNat_sub, BitVec.toNat_ofNat]
    omega
  case pcnt =>
    show (a.pcnt + 1#8).toNat = a.pcnt.toNat + 1
    rw [BitVec.toNat_add, BitVec.toNat_ofNat]
    omega

/-- R107, byte after byte: fewer bytes than REM that PBUF has room for are all taken as payload. -/
theorem Asm.run_payload (hlim : par.overallLimit = none) (p : List Byte) (hst : a.st = .data)
    (hrem : p.length < a.rem.toNat) (hroom : a.pcnt.toNat + p.length ≤ 252) (bs : List Byte) :
    ∃ a', Asm.run par RxAnswer.byte (p ++ bs) a = Asm.run par RxAnswer.byte bs a' ∧ Asm.Takes p a a' := by
  induction p generalizing a with
  | nil => exact ⟨a, rfl, .nil hst⟩
  | cons b p ih =>
    rw [List.length_cons] at hrem hroom
    obtain ⟨a1, hrule, htakes⟩ := Asm.stateRule_payload par b hst (by omega) (by omega)
    have hrem1 := htakes.rem
    have hpcnt1 := htakes.pcnt
    rw [List.length_singleton] at hrem1 hpcnt1
    obtain ⟨a2, hrun, htakes'⟩ := ih htakes.st (by omega) (by omega)
    refine ⟨a2, ?_, htakes.cons htakes'⟩
    rw [List.cons_append, Asm.run_byte_cons hlim (by simp [hst]) hrule, hrun]

/-- R102 to R107: a hunting assembler takes a frame up to its checksum byte, which is then due and known. -/
theorem Asm.run_frame_body (hlim : par.overallLimit = none) (hst : a.st = .hunt) (hlen : len.toNat = p.length + 3)
    (bs : List Byte) :
    ∃ a', Asm.run par RxAnswer.byte (header :: devIdRx :: len :: type :: (p ++ bs)) a
        = Asm.run par RxAnswer.byte bs a'
      ∧ Asm.Takes p (a.atPayload len type) a' ∧ a'.rem = 1#8 ∧ a'.sum = incomingChecksum len type p
      ∧ a'.payload = p := by
  have hlt := len.isLt
  have hrem : (a.atPayload len type).rem.toNat = len.toNat - 2 := by
    show (len - 2#8).toNat = _
    rw [BitVec.toNat_sub, BitVec.toNat_ofNat]
    omega
  have hpcnt : (a.atPayload len type).pcnt.toNat = 0 := rfl
  obtain ⟨a', hrun, htakes⟩ := Asm.run_payload (a := a.atPayload len type) hlim p rfl (by omega) (by omega) bs
  refine ⟨a', (Asm.run_header hlim hst (by omega) _).trans hrun, htakes, ?rem, ?sum, htakes.payload⟩
  case rem =>
    have := htakes.rem
    exact BitVec.eq_of_toNat_eq (by rw [BitVec.toNat_ofNat]; omega)
  case sum => exact htakes.sum.trans ((chkIn_eq_foldl len type p).symm.trans (chkIn_eq_incomingChecksum len type p))

/-! ### A whole frame -/

/-- An ended assembler that holds the accepted frame (R16, R17, R114). -/
structure Asm.Holds (len type : Byte) (p : List Byte) (a : Asm) : Prop where
  st : a.st = .idle
  res : a.res = .rOk
  rlen : a.rlen = len
  rtype : a.rtype = type
  pcnt : a.pcnt.toNat = p.length
  payload : a.payload = p

theorem Asm.Holds.decoded (h : a.Holds len type p) : a.decoded = .frame len type p := by
  simp [Asm.decoded, h.res, h.rlen, h.rtype, h.payload]

/-- R114: a hunting assembler without a limit accepts a frame with the right checksum. -/
theorem Asm.run_incomingFrame (hlim : par.overallLimit = none) (hst : a.st = .hunt) (hlen : len.toNat = p.length + 3) :
    ∃ a', Asm.run par RxAnswer.byte (incomingFrame len type p) a = .ok (a', []) ∧ a'.Holds len type p := by
  obtain ⟨a', hrun, htakes, hrem, hsum, hpayload⟩ :=
    Asm.run_frame_body hlim hst hlen (type := type) [incomingChecksum len type p]
  have hrule : Asm.stateRule par (incomingChecksum len type p) a' = .ok (a'.finish .rOk) := by
    simp [Asm.stateRule, htakes.st, hrem, Asm.checksumRule, hsum]
  refine ⟨a'.finish .rOk, ?run, rfl, rfl, htakes.rlen, htakes.rtype, ?pcnt, hpayload⟩
  case run => exact hrun.trans (Asm.run_byte_cons hlim (by simp [htakes.st]) hrule [])
  case pcnt => exact htakes.pcnt.trans (Nat.zero_add _)

/-- Bytes that end an invocation end it before the transport's further answers. -/
theorem Asm.run_bytes_then {bs : List Byte} (h : Asm.run par RxAnswer.byte bs a = .ok (a', [])) (hend : a'.st = .idle)
    (rest : List RxAnswer) : Asm.run par (fun x => x) (bs.map RxAnswer.byte ++ rest) a = .ok (a', rest) := by
  simp only [Asm.run_append, Asm.run_map, h, List.map_nil]
  exact Asm.run_idle _ _ _ _ hend

/-- DECODE in IDLE where `bs` are the bytes that end its invocation: they are consumed, and nothing behind them. -/
theorem exec_decode_of_run {s : State} {bs : List Byte} {rest : List RxAnswer} (hs : s.asm.st = .idle)
    (hanswers : answers s.line = bs.map RxAnswer.byte ++ rest)
    (hrun : Asm.run s.par RxAnswer.byte bs s.asm.start = .ok (a, [])) (hend : a.st = .idle) :
    ∃ t, exec .decode s = .next t ∧ t.asm = a ∧ t.result = a.decoded ∧ t.line = answered bs.length s.line
      ∧ answers t.line = rest := by
  obtain ⟨t, used, rest', hexec, hsplit, hran, hline, hresult⟩ := exec_decode_ran hs
  rw [hanswers, Asm.run_bytes_then hrun hend] at hran
  obtain ⟨hasm, rfl⟩ := Prod.ext_iff.mp (Except.ok.inj hran)
  obtain rfl : t.asm = a := hasm.symm
  obtain rfl : bs.map RxAnswer.byte = used := List.append_cancel_right (hanswers.symm.trans hsplit)
  rw [List.length_map] at hline
  refine ⟨t, hexec, rfl, by rw [hresult, if_pos hend], hline, ?_⟩
  rw [hline, answers_answered, hanswers, List.drop_left' (List.length_map _)]

/-- R95: an encoded command under the incoming device id is the incoming frame of its LEN, CMD and payload. -/
theorem framed_set_devIdRx (len cmd : Byte) (p : List Byte) :
    (framed (0xFF#8 :: 0xFC#8 :: len :: cmd :: p)).set 1 0xFB#8 = incomingFrame len cmd p :=
  congrArg (fun bs => bs.set 1 0xFB#8) (framed_command len cmd p)

/-- Settles O41: the encoded command under the incoming device id is a frame, and the frame is accepted. -/
theorem encodedCommandDecodesUnderTheIncomingId : Obligations.EncodedCommandDecodesUnderTheIncomingId := by
  intro s t u len cmd p f rest hlen henc hf hidle hlim hanswers
  cases (exec_encode_whole _ s).symm.trans henc
  cases hf
  have hlength : (framed (0xFF#8 :: 0xFC#8 :: len :: cmd :: p)).length = (incomingFrame len cmd p).length := by
    rw [← framed_set_devIdRx, List.length_set]
  rw [framed_set_devIdRx] at hanswers
  obtain ⟨a, hrun, hholds⟩ := Asm.run_incomingFrame (a := u.asm.start) (type := cmd) hlim rfl hlen
  obtain ⟨v, hexec, rfl, hresult, hline, hrest⟩ := exec_decode_of_run hidle hanswers hrun hholds.st
  rw [← hlength] at hline
  exact ⟨v, hexec, hresult.trans hholds.decoded, hholds.res, hholds.rlen, hholds.rtype, hholds.payload, hline,
    hrest⟩

end Sys2Proof.Machine
end

section
/-! PROOF. The single events of unit ASM (R101 to R111): RX_START and RX_NODATA (O23), a row's rule without a limit (O24
to O30), the byte budget (O31), and an idle assembler (O32). -/

namespace Sys2Proof.Machine

open Sys2Proof.Claims

variable {s : State} {a : Asm} {b : Byte}

/-! ### An event, and then the call that waits for it -/

/-- `rx_byte(b)` where ST is not IDLE: the assembler's rule, the byte handed over, and then the waiting call. -/
theorem exec_rxByteLimit_eq (hs : s.asm.st ≠ .idle) (ha : Asm.byte s.par b s.asm = .ok a) :
    exec (.rxByteLimit b) s = outcome ((s.withLine (lineAfter b s)).withAsm a).resume := by
  have hrule : s.asm.budgeted s.par (Asm.stateRule s.par b) = .ok a := by simpa [Asm.byte, hs] using ha
  have htake : s.rxByte b = ((s.withLine (lineAfter b s)).withAsm a).resume := by
    simp only [State.rxByte, hs, if_false, State.takeByte_eq, hrule]
  exact congrArg outcome htake

/-- A byte after which the invocation runs on changes ASM and is handed over, whether a call waits or not. -/
theorem exec_rxByteLimit_running (hs : s.asm.st ≠ .idle) (ha : Asm.byte s.par b s.asm = .ok a) (hrun : a.st ≠ .idle) :
    exec (.rxByteLimit b) s = .next { s with asm := a, line := lineAfter b s } := by
  rw [exec_rxByteLimit_eq hs ha, State.resume_running _ hrun]
  rfl

/-- NoData where ST is not IDLE: the invocation ends with R_TIMEOUT, and then the waiting call. -/
theorem exec_rxNodata_eq (hs : s.asm.st ≠ .idle) :
    exec .rxNodata s = outcome (s.withAsm (s.asm.finish .rTimeout)).resume := by
  have hend : s.rxNodata = (s.withAsm (s.asm.finish .rTimeout)).resume := by
    simp only [State.rxNodata, Asm.noData, hs, if_false]
  exact congrArg outcome hend

/-- Settles O23: RX_START in IDLE and elsewhere, and NoData with no call waiting. -/
theorem rxStartBeginsAndNoDataEndsAnInvocation : Obligations.RxStartBeginsAndNoDataEndsAnInvocation :=
  fun _ => ⟨fun hidle => if_pos hidle, fun hrun => if_neg hrun, exec_rxNodata_no_call⟩

/-! ### A byte and the rule of its state -/

/-- Without a limit a byte to a running assembler is its state rule alone. -/
theorem Asm.byte_of_stateRule {p : Params} {c : Asm} (hlim : p.overallLimit = none) (hs : c.st ≠ .idle)
    (hrule : Asm.stateRule p b c = .ok a) : c.byte p b = .ok a := by
  rw [Asm.byte, if_neg hs, Asm.budgeted_of_none hlim, hrule]

/-- Without a limit, a rule after which the invocation runs on is all that its event does. -/
theorem rxByte_of_stateRule (hs : s.asm.st ≠ .idle) (hlim : s.par.overallLimit = none)
    (hrule : Asm.stateRule s.par b s.asm = .ok a) (hrun : a.st ≠ .idle) :
    outcome (s.rxByte b) = .next { s with asm := a, line := lineAfter b s } :=
  exec_rxByteLimit_running hs (Asm.byte_of_stateRule hlim hs hrule) hrun

/-- Without a limit and without a waiting call, a rule is all that its event does also where it ends the invocation. -/
theorem rxByte_of_stateRule_no_call (hs : s.asm.st ≠ .idle) (hlim : s.par.overallLimit = none) (hc : s.call = .none)
    (hrule : Asm.stateRule s.par b s.asm = .ok a) :
    outcome (s.rxByte b) = .next { s with asm := a, line := lineAfter b s } :=
  exec_rxByteLimit_no_call hs hc (Asm.byte_of_stateRule hlim hs hrule)

/-- Settles O24: R102 leads from HUNT to HUNT or ID, so that the invocation runs on. -/
theorem rxByteInHuntScansForTheHeader : Obligations.RxByteInHuntScansForTheHeader := by
  intro b s hst hlim
  have hrule : Asm.stateRule s.par b s.asm = .ok (s.asm.huntRule b) := by simp only [Asm.stateRule, hst]
  have hrun : (s.asm.huntRule b).st ≠ .idle := by unfold Asm.huntRule; split <;> simp
  rw [exec_rxByteHunt, rxByte_of_stateRule (by simp [hst]) hlim hrule hrun]
  rfl

/-- Settles O25: R103 leads from ID to LEN, ID or HUNT, so that the invocation runs on. -/
theorem rxByteInIdChecksTheDeviceId : Obligations.RxByteInIdChecksTheDeviceId := by
  intro b s hst hlim
  have hrule : Asm.stateRule s.par b s.asm = .ok (s.asm.idRule s.par b) := by simp only [Asm.stateRule, hst]
  have hrun : (s.asm.idRule s.par b).st ≠ .idle := by unfold Asm.idRule; split_ifs <;> simp
  rw [exec_rxByteId, rxByte_of_stateRule (by simp [hst]) hlim hrule hrun]
  rfl

/-- Settles O26: the rule of LEN is R104. -/
theorem rxByteInLenStoresTheLength : Obligations.RxByteInLenStoresTheLength := by
  intro b s hst hlim
  have hrule : Asm.stateRule s.par b s.asm = .ok (s.asm.lenRule b) := by simp only [Asm.stateRule, hst]
  rw [exec_rxByteLen, rxByte_of_stateRule (by simp [hst]) hlim hrule (by simp [Asm.lenRule])]
  rfl

/-- With a length of 3 or more, R105 in the natural numbers of its own formula. -/
theorem Asm.typeValidRule_eq (b : Byte) (h3 : 3 ≤ a.rlen.toNat) :
    a.typeValidRule b = { a with
      rtype := b
      rem := BitVec.ofNat 8 (a.rlen.toNat - 2)
      sum := BitVec.ofNat 8 ((a.rlen.toNat + b.toNat) % 256)
      pcnt := 0#8
      st := .data } := by
  have hrem : a.rlen - 2#8 = BitVec.ofNat 8 (a.rlen.toNat - 2) := by bv_omega
  rw [← hrem, ← addByte_eq]
  rfl

/-- Settles O27: with RLEN at least 3 the rule of TYPE is R105. -/
theorem rxByteInTypeStartsTheData : Obligations.RxByteInTypeStartsTheData := by
  intro b s hst h3 hlim
  have hrule : Asm.stateRule s.par b s.asm = .ok (s.asm.typeValidRule b) := by
    simp only [Asm.stateRule, hst, minLen, Nat.not_lt.mpr h3, if_false]
  rw [exec_rxByteTypeValid, rxByte_of_stateRule (by simp [hst]) hlim hrule (by simp [Asm.typeValidRule]),
    Asm.typeValidRule_eq b h3]

/-- Settles O28: with RLEN below 3 the rule of TYPE is R106, which ends the invocation. -/
theorem rxByteInTypeFailsOnAShortLength : Obligations.RxByteInTypeFailsOnAShortLength := by
  intro b s hst hshort hlim hc
  have hrule : Asm.stateRule s.par b s.asm = .ok (s.asm.typeInvalidRule b) := by
    simp only [Asm.stateRule, hst, minLen, hshort, if_true]
  rw [exec_rxByteTypeInvalid, rxByte_of_stateRule_no_call (by simp [hst]) hlim hc hrule]
  rfl

/-- With room in PBUF and REM above 1, R107 in the natural numbers of its own formula. -/
theorem Asm.stateRule_payload_eq (p : Params) (b : Byte) (hst : a.st = .data) (hrem : 1 < a.rem.toNat)
    (hroom : a.pcnt.toNat < 252) :
    Asm.stateRule p b a = .ok { a with
      pbuf := a.pbuf.set a.pcnt.toNat b hroom
      pcnt := BitVec.ofNat 8 (a.pcnt.toNat + 1)
      sum := BitVec.ofNat 8 ((a.sum.toNat + b.toNat) % 256)
      rem := BitVec.ofNat 8 (a.rem.toNat - 1) } := by
  have h0 : a.rem ≠ 0#8 := fun h => by simp [h] at hrem
  have h1 : a.rem ≠ 1#8 := fun h => by simp [h] at hrem
  have hpcnt : a.pcnt + 1#8 = BitVec.ofNat 8 (a.pcnt.toNat + 1) := by bv_omega
  have hdown : a.rem - 1#8 = BitVec.ofNat 8 (a.rem.toNat - 1) := by bv_omega
  simp only [Asm.stateRule, hst, h0, h1, if_false, Asm.payloadRule_of_lt b a hroom, hpcnt, hdown, addByte_eq]

/-- Settles O29: with REM above 1 the rule of DATA is R107. -/
theorem rxByteInDataStoresThePayload : Obligations.RxByteInDataStoresThePayload := by
  intro b s hroom hst hrem hlim
  have hrule := Asm.stateRule_payload_eq s.par b hst hrem hroom
  rw [exec_rxByteDataPayload, rxByte_of_stateRule (by simp [hst]) hlim hrule (by simp [hst])]

/-- Settles O30: with REM = 1 the rule of DATA is R108, in both its branches. -/
theorem rxByteInDataChecksTheChecksum : Obligations.RxByteInDataChecksTheChecksum := by
  intro b s hst hrem hlim hc
  have hrule : Asm.stateRule s.par b s.asm = .ok (s.asm.checksumRule b) := by
    simp [Asm.stateRule, hst, hrem]
  rw [exec_rxByteDataChecksum, rxByte_of_stateRule_no_call (by simp [hst]) hlim hc hrule]
  rfl

/-! ### The byte budget (R110) -/

/-- R102 to R108: an assembler that meets R19 has a rule for every byte, and no rule counts it. -/
theorem Asm.Inv.stateRule_count (h : a.Inv) (hs : a.st ≠ .idle) (p : Params) (b : Byte) :
    ∃ a', Asm.stateRule p b (a.count p) = .ok a' ∧ a'.ncons = (a.count p).ncons := by
  obtain ⟨bs, hf⟩ := h.following hs
  obtain ⟨hcount, hst, -⟩ := Asm.count_following (p := p) hf
  obtain ⟨a', hrule, -, hncons, -⟩ := Asm.stateRule_following p b (a.count p) bs hcount (by rwa [hst])
  exact ⟨a', hrule, hncons⟩

/-- R110: a byte to a running assembler is counted, then its state rule applies, then the budget is tested. -/
theorem Asm.byte_of_count {p : Params} {a' : Asm} (hs : a.st ≠ .idle)
    (hrule : Asm.stateRule p b (a.count p) = .ok a') : a.byte p b = .ok (a'.budget p) := by
  rw [Asm.byte, if_neg hs, Asm.budgeted, hrule]

/-- Settles O31: the count, the rule and the budget test, for a set limit and for none. -/
theorem rxByteIsCountedAgainstTheLimit : Obligations.RxByteIsCountedAgainstTheLimit := by
  intro b s hinv hs hc
  obtain ⟨a, hrule, hncons⟩ := hinv.stateRule_count hs s.par b
  have hexec := exec_rxByteLimit_no_call hs hc (Asm.byte_of_count hs hrule)
  refine ⟨fun n hn => ?limit, fun hnone => ?noLimit⟩
  case limit =>
    have hcount : s.asm.count s.par = { s.asm with ncons := s.asm.ncons + 1 } := by simp only [Asm.count, hn]
    have hbudget : a.budget s.par =
        if a.st ≠ .idle ∧ a.ncons = n then { a with res := .rLimit, st := .idle } else a := by
      simp only [Asm.budget, hn]
      rfl
    rw [hcount] at hrule hncons
    rw [hbudget] at hexec
    exact ⟨a, hrule, hncons, hexec⟩
  case noLimit =>
    rw [Asm.count_of_none _ _ hnone] at hrule
    rw [Asm.budget_of_none _ _ hnone] at hexec
    exact ⟨a, hrule, hexec⟩

/-! ### An idle assembler (R111) -/

theorem State.rxByte_idle (b : Byte) (hs : s.asm.st = .idle) : s.rxByte b = .ok (s.withLine (s.line.arrive b)) :=
  if_pos hs

theorem State.rxNodata_idle (hs : s.asm.st = .idle) : s.rxNodata = .ok s := if_pos hs

/-- Settles O32: every row is the event, which an idle assembler leaves in the transport. -/
theorem idleAssemblerConsumesNothing : Obligations.IdleAssemblerConsumesNothing := by
  intro b s hs
  have hwaits : outcome (s.rxByte b) = .next { s with line := { s.line with held := s.line.held ++ [b] } } :=
    congrArg outcome (State.rxByte_idle b hs)
  exact ⟨(exec_rxByteIdle b s).trans hwaits, (exec_rxByteHunt b s).trans hwaits, (exec_rxByteId b s).trans hwaits,
    (exec_rxByteLen b s).trans hwaits, (exec_rxByteTypeValid b s).trans hwaits,
    (exec_rxByteTypeInvalid b s).trans hwaits, (exec_rxByteDataPayload b s).trans hwaits,
    (exec_rxByteDataChecksum b s).trans hwaits, hwaits, congrArg outcome (State.rxNodata_idle hs),
    fun len type body => congrArg outcome (State.rxBytes_idle (header :: devIdRx :: len :: type :: body) s hs)⟩

end Sys2Proof.Machine
end

section
/-! PROOF. A call that waits in RxNext (R112, R174, R176; log entry 8): what it does once its invocation has ended, an
equation per call, and from these O44. -/

namespace Sys2Proof.Machine

open Sys2Proof.Claims

variable {s : State} {a : Asm} {l : Line} {id : Byte}

/-! ### The ended invocation of each call -/

/-- What DECODE returns, in the terms of the claims. -/
theorem Asm.decoded_eq (a : Asm) :
    a.decoded = if a.res = .rOk then .frame a.rlen a.rtype (payloadOf a) else .decodeErr a.res := rfl

/-- What SEQ_PING returns, in the terms of the claims. -/
theorem pingResult_eq (a : Asm) : pingResult a = .code (if a.res = .rOk then (payloadOf a).headD 0#8 else 0#8) := by
  have hpayload : a.payload = payloadOf a := rfl
  unfold pingResult
  split
  · rw [hpayload]
    cases payloadOf a <;> rfl
  · rfl

theorem State.resume_decode (hend : s.asm.st = .idle) (hc : s.call = .decode) :
    s.resume = .ok (s.ret s.asm.decoded) := by
  simp [State.resume, hend, hc]

theorem State.resume_ping (hend : s.asm.st = .idle) (hc : s.call = .ping) :
    s.resume = .ok (s.ret (pingResult s.asm)) := by
  simp [State.resume, hend, hc]

theorem State.resume_readAngle_ok (hend : s.asm.st = .idle) (hc : s.call = .readAngle id) (hok : s.asm.res = .rOk) :
    s.resume = .ok (s.ret (reportResult s.par id s.asm)) := by
  simp [State.resume, hend, hc, hok]

/-- A failed cycle of SEQ_READ_ANGLE leads to the cycles that are left (R176). -/
theorem State.resume_readAngle_failed (hend : s.asm.st = .idle) (hc : s.call = .readAngle id)
    (hfail : s.asm.res ≠ .rOk) :
    s.resume = s.readCycles id (readAttempts - s.seq.att) := by
  simp [State.resume, hend, hc, hfail]

/-- After the second failed cycle SEQ_READ_ANGLE returns the sentinel. -/
theorem State.resume_readAngle_last (hend : s.asm.st = .idle) (hc : s.call = .readAngle id) (hfail : s.asm.res ≠ .rOk)
    (hatt : s.seq.att = 2) : s.resume = .ok (s.ret (.degrees (-1))) := by
  rw [State.resume_readAngle_failed hend hc hfail, hatt]
  rfl

/-- After the first failed cycle SEQ_READ_ANGLE runs its second. -/
theorem State.resume_readAngle_second (hend : a.st = .idle) (hc : s.call = .readAngle id) (hfail : a.res ≠ .rOk)
    (hatt : s.seq.att = 1) : SecondCycle id s l a (outcome ((s.withLine l).withAsm a).resume) := by
  have hresume : ((s.withLine l).withAsm a).resume = ((s.withLine l).withAsm a).readCycles id 1 := by
    rw [State.resume_readAngle_failed (s := (s.withLine l).withAsm a) hend hc hfail]
    exact congrArg (fun n => ((s.withLine l).withAsm a).readCycles id (readAttempts - n)) hatt
  have hstate : (s.withLine l).withAsm a
      = { s with asm := a, line := l, seq := { s.seq with att := 1 }, call := s.call } := by
    rw [← hatt]
    rfl
  rw [hresume, hstate]
  exact State.readCycles_second id s l a s.call

/-! ### A second cycle without answers -/

/-- An exchange with a transport that has no answer to RxNext or TxWrite: the command is taken whole (log entry 5), and
the started assembler waits. -/
theorem exchanged_of_silent {cmd : List Byte} {p : Params} {l' : Line} {a' : Asm} (h : Exchanged cmd p l a l' a')
    (hanswers : answers l = []) (htx : l.txNext = []) : l' = { l with tx := l.tx ++ framed cmd } ∧ a' = a.start := by
  obtain ⟨w, used, rest, ⟨hwhole, -⟩, hu, hl', -, hrun, -⟩ := h
  obtain ⟨hheld, hnext⟩ := answers_eq_nil.mp hanswers
  have hflush : (if p.flushBeforeCommand then { l with held := [] } else l) = l := by
    rw [← hheld]
    exact ite_self l
  rw [hflush] at hwhole
  obtain rfl := hwhole htx
  have hsilent : answers { l with tx := l.tx ++ framed cmd } = [] := answers_eq_nil.mpr ⟨hheld, hnext⟩
  rw [hsilent] at hu hrun
  obtain ⟨rfl, -⟩ := List.append_eq_nil_iff.mp hu.symm
  obtain ⟨rfl, -⟩ := Prod.ext_iff.mp (Except.ok.inj hrun)
  refine ⟨hl'.trans ?_, rfl⟩
  simp [answered, hheld, hnext, leftUnread]

/-- A second cycle of SEQ_READ_ANGLE with such a transport waits, its command written. -/
theorem secondCycle_of_silent {o : Host.Outcome State Fault Refusal} (h : SecondCycle id s l a o)
    (hanswers : answers l = []) (htx : l.txNext = []) :
    o = .next { s with
      asm := a.start
      line := { l with tx := l.tx ++ framed (readCommand id) }
      seq := { s.seq with att := 2 }
      call := .readAngle id
      result := .pending } := by
  obtain ⟨l2, a2, hexchanged, hwaits, -⟩ := h
  obtain ⟨rfl, rfl⟩ := exchanged_of_silent hexchanged hanswers htx
  exact hwaits (by simp)

/-! ### The event that ends the invocation -/

/-- An event that ends a call's invocation with a result makes the call return it. -/
theorem outcome_resume_ret {t : State} {r : Result} (h : t.resume = .ok (t.ret r)) :
    outcome t.resume = .next { t with call := .none, result := r } := by
  rw [h]
  rfl

/-- A byte that ends the invocation of a waiting call. -/
theorem exec_rxByteLimit_ends {b : Byte} {r : Result} (hs : s.asm.st ≠ .idle) (ha : Asm.byte s.par b s.asm = .ok a)
    (hresume : ((s.withLine (lineAfter b s)).withAsm a).resume = .ok (((s.withLine (lineAfter b s)).withAsm a).ret r)) :
    exec (.rxByteLimit b) s = .next { s with asm := a, line := lineAfter b s, call := .none, result := r } :=
  (exec_rxByteLimit_eq hs ha).trans (outcome_resume_ret hresume)

/-- NoData where a call waits. -/
theorem exec_rxNodata_ends {r : Result} (hs : s.asm.st ≠ .idle)
    (hresume : (s.withAsm (s.asm.finish .rTimeout)).resume = .ok ((s.withAsm (s.asm.finish .rTimeout)).ret r)) :
    exec .rxNodata s = .next { s with
      asm := { s.asm with res := .rTimeout, st := .idle }, call := .none, result := r } :=
  (exec_rxNodata_eq hs).trans (outcome_resume_ret hresume)

/-- NoData in SEQ_READ_ANGLE's first cycle leads to its second. -/
theorem exec_rxNodata_second (hs : s.asm.st ≠ .idle) (hc : s.call = .readAngle id) (hatt : s.seq.att = 1) :
    SecondCycle id s s.line { s.asm with res := .rTimeout, st := .idle } (exec .rxNodata s) := by
  rw [exec_rxNodata_eq hs]
  exact State.resume_readAngle_second (l := s.line) (a := s.asm.finish .rTimeout) rfl hc (by simp) hatt

/-- Settles O44: the byte that leaves the invocation running, then each call at its end, by a byte and by NoData. -/
theorem waitingCallsGoOnWithTheEvent : Obligations.WaitingCallsGoOnWithTheEvent := by
  intro s hs
  refine ⟨fun b a ha => ⟨exec_rxByteLimit_running hs ha, fun hend hc => ?decode, fun hend hc => ?ping,
      fun id hend hc hok => ?readAngle, fun id hend hc hfail hatt => ?second, fun id hend hc hfail hatt => ?last⟩,
    fun hc => ?decodeNoData, fun hc => ?pingNoData, fun id => exec_rxNodata_second hs, fun id hc hatt => ?lastNoData,
    fun id hc hatt hanswers htx => ?silent⟩
  case decode =>
    rw [← Asm.decoded_eq]
    exact exec_rxByteLimit_ends hs ha (State.resume_decode hend hc)
  case ping =>
    rw [← pingResult_eq]
    exact exec_rxByteLimit_ends hs ha (State.resume_ping hend hc)
  case readAngle =>
    rw [← reportResult_eq]
    exact exec_rxByteLimit_ends hs ha (State.resume_readAngle_ok hend hc hok)
  case second =>
    rw [exec_rxByteLimit_eq hs ha]
    exact State.resume_readAngle_second hend hc hfail hatt
  case last => exact exec_rxByteLimit_ends hs ha (State.resume_readAngle_last hend hc hfail hatt)
  case decodeNoData => exact exec_rxNodata_ends hs (State.resume_decode rfl hc)
  case pingNoData => exact exec_rxNodata_ends hs (State.resume_ping rfl hc)
  case lastNoData => exact exec_rxNodata_ends hs (State.resume_readAngle_last rfl hc (by simp) hatt)
  case silent =>
    rw [secondCycle_of_silent (exec_rxNodata_second hs hc hatt) hanswers htx, ← hc]
    rfl

end Sys2Proof.Machine
end

section
/-! PROOF. One decode invocation. `exec_decode_eq` gives DECODE's whole next state from the loop over the transport's
answers (O36, O37), `Asm.Following` what stood in the bytes it consumed (O38), and the runs over noise, a stray FF and a
frame what it makes of them (O35, O39, O42, O43). -/

namespace Sys2Proof.Machine

open Sys2Proof.Claims

variable {s : State} {a : Asm} {par : Params} {len type c : Byte} {p bs : List Byte} {used rest : List RxAnswer}

/-! ### DECODE as its loop -/

/-- R112: DECODE in IDLE leaves what the loop over the transport's answers leaves, and returns or waits. -/
theorem exec_decode_eq (hs : s.asm.st = .idle) (hu : answers s.line = used ++ rest)
    (hrun : Asm.run s.par (fun x => x) (answers s.line) s.asm.start = .ok (a, rest)) :
    exec .decode s = .next { s with
      asm := a
      line := answered used.length s.line
      call := if a.st = .idle then .none else .decode
      result := if a.st = .idle then a.decoded else .pending } := by
  have hinvoke : s.invoke = .ok ((s.withLine (answered used.length s.line)).withAsm a) := by
    simp only [State.invoke, Line.feed_of_run hu hrun]
  have hexec : exec .decode s
      = outcome ((((s.withLine (answered used.length s.line)).withAsm a).wait .decode).resume) := by
    simp only [exec, execDecode, hs, ne_eq, not_true_eq_false, if_false, hinvoke]
  rw [hexec]
  by_cases hend : a.st = .idle
  · rw [State.resume_decode hend rfl, if_pos hend, if_pos hend]
    rfl
  · rw [State.resume_running _ hend, if_neg hend, if_neg hend]
    rfl

/-- What DECODE gives back of the answers is what its loop has left. -/
theorem answers_answered_used {l : Line} (hu : answers l = used ++ rest) : answers (answered used.length l) = rest := by
  rw [answers_answered, hu, List.drop_left]

/-- Settles O36: the loop's result, in `exec_decode_eq`, with DECODE's result spelled out. -/
theorem decodeRunsTheTransportsAnswers : Obligations.DecodeRunsTheTransportsAnswers := by
  intro s a used rest hs hu hrun
  refine ⟨(Asm.run_rest hrun).resolve_right, answers_answered_used hu, ?_⟩
  rw [exec_decode_eq hs hu hrun, Asm.decoded_eq, ite_not]
  rfl

/-- Settles O37: the loop never faults, and its assembler has ended with a cause or used every answer up. -/
theorem decodeAlwaysReturnsOrWaits : Obligations.DecodeAlwaysReturnsOrWaits := by
  intro s hs
  obtain ⟨a, used, rest, h, -, hrun, hu, hleft, hf, hrest, -⟩ := s.invoke_following
  refine ⟨_, used, exec_decode_eq hs hu hrun, hu.trans (congrArg (used ++ ·) hleft.symm), rfl,
    ⟨rfl, rfl, rfl, rfl, rfl, rfl, rfl, rfl, rfl⟩, ⟨rfl, rfl, rfl⟩, rfl, ?_⟩
  by_cases hend : a.st = .idle
  · exact .inl ⟨hend, hf.ended hend, if_pos hend, if_pos hend⟩
  · exact .inr ⟨hend, hf.running hend, if_neg hend, if_neg hend, hleft.trans (hrest hend)⟩

/-- The frame DECODE returns is the one an accepting assembler holds. -/
theorem Asm.decoded_eq_frame_iff : a.decoded = .frame len type p ↔
    a.res = .rOk ∧ a.rlen = len ∧ a.rtype = type ∧ a.payload = p := by
  unfold Asm.decoded
  split <;> simp [*]

/-- Settles O38: what DECODE returns has been accepted, and an accepted frame ends the bytes consumed. -/
theorem acceptedFramesWereReceived : Obligations.AcceptedFramesWereReceived := by
  intro s t len type p hs hexec hresult
  obtain ⟨a, used, rest, h, -, hrun, hu, hleft, hf, -, -, hused, -⟩ := s.invoke_following
  cases (exec_decode_eq hs hu hrun).symm.trans hexec
  have hend : a.st = .idle := by
    by_contra hne
    simp [hne] at hresult
  simp only [hend, if_true, Asm.decoded_eq_frame_iff] at hresult
  obtain ⟨hok, rfl, rfl, rfl⟩ := hresult
  obtain ⟨-, h3, hpcnt, before, hbytes⟩ := hf.accepted hok
  have hlt := a.rlen.isLt
  refine ⟨h3, (Asm.payload_length_of_le (by omega)).trans hpcnt, before, ?_⟩
  obtain hbyte | ⟨-, htimeout, -⟩ := hused
  · rw [hu, hleft, hbyte, hbytes]
  · simp [hok] at htimeout

/-! ### Noise (R115) -/

/-- A byte other than FF leaves a hunting assembler as it is (R102). -/
theorem Asm.stateRule_hunt_noise {b : Byte} (par : Params) (hst : a.st = .hunt) (hb : b ≠ 0xFF#8) :
    Asm.stateRule par b a = .ok a := by
  have hstay : a.huntRule b = { a with st := .hunt } := by simp [Asm.huntRule, header, hb]
  simp only [Asm.stateRule, hst, hstay]
  rw [← hst]

/-- R115: a hunting assembler without a limit takes noise without FF and goes on as it was. -/
theorem Asm.run_noise (hlim : par.overallLimit = none) (hst : a.st = .hunt) {noise : List Byte}
    (hnoise : ∀ b ∈ noise, b ≠ 0xFF#8) (bs : List Byte) :
    Asm.run par RxAnswer.byte (noise ++ bs) a = Asm.run par RxAnswer.byte bs a := by
  induction noise with
  | nil => rfl
  | cons b noise ih =>
    obtain ⟨hb, hnoise'⟩ := List.forall_mem_cons.mp hnoise
    rw [List.cons_append, Asm.run_byte_cons hlim (by simp [hst]) (Asm.stateRule_hunt_noise par hst hb), ih hnoise']

/-- Bytes that an invocation takes without an end are all consumed, and DECODE waits. -/
theorem exec_decode_pending (hs : s.asm.st = .idle) (hanswers : answers s.line = bs.map RxAnswer.byte)
    (hrun : Asm.run s.par RxAnswer.byte bs s.asm.start = .ok (a, [])) (hwait : a.st ≠ .idle) :
    ∃ t, exec .decode s = .next t ∧ t.asm = a ∧ t.result = .pending ∧ answers t.line = [] := by
  have hu : answers s.line = bs.map RxAnswer.byte ++ [] := by rw [hanswers, List.append_nil]
  have hloop : Asm.run s.par (fun x => x) (answers s.line) s.asm.start = .ok (a, []) := by
    simp only [hanswers, Asm.run_map, hrun, List.map_nil]
  exact ⟨_, exec_decode_eq hs hu hloop, rfl, if_neg hwait, answers_answered_used hu⟩

/-- A right frame's length is its payload's and five more. -/
theorem incomingFrame_length (len type : Byte) (p : List Byte) : (incomingFrame len type p).length = p.length + 5 := by
  simp [incomingFrame]

/-- The frame's payload where PBUF holds it. -/
theorem Asm.Holds.pbuf_take (h : a.Holds len type p) : a.pbuf.toList.take p.length = p := by
  rw [← h.pcnt]
  exact h.payload

/-- Settles O39: the noise leaves the assembler hunting, the frame is accepted, and DECODE returns it. -/
theorem frameBehindCleanNoiseIsDecoded : Obligations.FrameBehindCleanNoiseIsDecoded := by
  intro s noise p rest len type hs hlim hnoise h3 hp hanswers
  have hlen : len.toNat = p.length + 3 := by omega
  obtain ⟨a, hframe, hholds⟩ := Asm.run_incomingFrame (a := s.asm.start) (type := type) hlim rfl hlen
  have hrun := (Asm.run_noise hlim rfl hnoise (incomingFrame len type p)).trans hframe
  have hloop := Asm.run_bytes_then hrun hholds.st rest
  have hlength : ((noise ++ incomingFrame len type p).map RxAnswer.byte).length = noise.length + p.length + 5 := by
    rw [List.length_map, List.length_append, incomingFrame_length, Nat.add_assoc]
  rw [← hanswers] at hloop
  have hexec := exec_decode_eq hs hanswers hloop
  have hleft := answers_answered_used hanswers
  rw [hlength] at hexec hleft
  rw [if_pos hholds.st, if_pos hholds.st, hholds.decoded] at hexec
  exact ⟨a, hexec, hleft, hholds.st, hholds.res, hholds.rlen, hholds.rtype, hholds.pcnt,
    hholds.pbuf_take⟩

/-- Settles O42: zeros are noise; with a limit, a loop still running has consumed fewer answers than it. -/
theorem onlyALimitBoundsAnInvocation : Obligations.OnlyALimitBoundsAnInvocation := by
  refine ⟨fun s n hs hlim hanswers => ?noLimit, fun s t n hs hn hpos hexec => ?limit⟩
  case noLimit =>
    have hzeros : ∀ b ∈ List.replicate n 0#8, b ≠ 0xFF#8 := fun b hb => by simp [List.eq_of_mem_replicate hb]
    have hrun := Asm.run_noise (a := s.asm.start) hlim rfl hzeros []
    rw [List.append_nil] at hrun
    obtain ⟨t, hexec, hasm, hresult, hleft⟩ :=
      exec_decode_pending hs (by rw [hanswers, List.map_replicate]) hrun (by simp)
    exact ⟨t, hexec, hresult, by rw [hasm, Asm.start_st], hleft⟩
  case limit =>
    obtain ⟨a, used, rest, h, -, hrun, hu, hleft, -, hrest, -, -, hbound⟩ := s.invoke_following
    cases (exec_decode_eq hs hu hrun).symm.trans hexec
    obtain ⟨hle, hrunning⟩ := hbound n hn hpos
    refine ⟨⟨used, hu.trans (congrArg (used ++ ·) hleft.symm), hle⟩, fun hmany => ?_⟩
    by_contra hne
    obtain ⟨hcount, hlt⟩ := hrunning hne
    rw [hu, hrest hne, List.append_nil] at hmany
    omega

/-! ### A stray FF (R103) -/

theorem Asm.stateRule_hunt_header (par : Params) (hst : a.st = .hunt) :
    Asm.stateRule par header a = .ok { a with st := .id } := by
  simp [Asm.stateRule, hst, Asm.huntRule]

/-- R103 with RESCAN_ID_BYTE: behind a first FF a second one leaves a hunting assembler where the first led it. -/
theorem Asm.run_stray_header_rescan (hlim : par.overallLimit = none) (hst : a.st = .hunt)
    (hrescan : par.rescanIdByte = true) (bs : List Byte) :
    Asm.run par RxAnswer.byte (header :: header :: bs) a = Asm.run par RxAnswer.byte (header :: bs) a := by
  have hid : Asm.stateRule par header { a with st := .id } = .ok { a with st := .id } := by
    simp [Asm.stateRule, Asm.idRule, hrescan, header, devIdRx]
  rw [Asm.run_byte_cons hlim (by simp [hst]) (Asm.stateRule_hunt_header par hst), Asm.run_byte_cons hlim (by simp) hid,
    Asm.run_byte_cons hlim (by simp [hst]) (Asm.stateRule_hunt_header par hst)]

/-- R103 without RESCAN_ID_BYTE: the second FF is lost as a header, and the assembler hunts on. -/
theorem Asm.run_stray_header_lost (hlim : par.overallLimit = none) (hst : a.st = .hunt)
    (hrescan : par.rescanIdByte = false) (bs : List Byte) :
    Asm.run par RxAnswer.byte (header :: header :: bs) a = Asm.run par RxAnswer.byte bs a := by
  have hid : Asm.stateRule par header { a with st := .id } = .ok a := by
    simp [Asm.stateRule, Asm.idRule, hrescan, header, devIdRx, ← hst]
  rw [Asm.run_byte_cons hlim (by simp [hst]) (Asm.stateRule_hunt_header par hst), Asm.run_byte_cons hlim (by simp) hid]

/-- Settles O43: with the second FF lost the rest of the frame is noise; kept, the frame is accepted. -/
theorem strayHeaderCostsTheNextFrame : Obligations.StrayHeaderCostsTheNextFrame := by
  intro s len type p hs hlim h3 hp hanswers hclean
  cases hrescan : s.par.rescanIdByte with
  | false =>
    have hnoise : ∀ b ∈ devIdRx :: (len :: type :: p ++ [incomingChecksum len type p]), b ≠ 0xFF#8 :=
      List.forall_mem_cons.mpr ⟨by decide, hclean⟩
    have hquiet := Asm.run_noise (a := s.asm.start) hlim rfl hnoise []
    rw [List.append_nil] at hquiet
    have hrun := (Asm.run_stray_header_lost hlim rfl hrescan _).trans hquiet
    obtain ⟨t, hexec, hasm, hresult, hleft⟩ := exec_decode_pending hs hanswers hrun (by simp)
    exact ⟨t, hexec, hleft, fun _ => ⟨hresult, by rw [hasm, Asm.start_st]⟩, by simp⟩
  | true =>
    have hlen : len.toNat = p.length + 3 := by omega
    obtain ⟨a, hframe, hholds⟩ := Asm.run_incomingFrame (a := s.asm.start) (type := type) hlim rfl hlen
    have hrun := (Asm.run_stray_header_rescan hlim rfl hrescan _).trans hframe
    obtain ⟨t, hexec, -, hresult, -, hleft⟩ :=
      exec_decode_of_run hs (hanswers.trans (List.append_nil _).symm) hrun hholds.st
    exact ⟨t, hexec, hleft, by simp, fun _ => hresult.trans hholds.decoded⟩

/-! ### A frame as an operation (R71) -/

/-- With no call waiting, a frame whose bytes are all taken leaves the assembler its loop leaves. -/
theorem exec_rxFrame_of_run (hc : s.call = .none)
    (hrun : Asm.run s.par RxAnswer.byte (header :: devIdRx :: len :: type :: bs) s.asm = .ok (a, [])) :
    exec (.rxFrame len type bs) s = .next { s with
      asm := a
      line := { s.line with
        held := leftUnread ((header :: devIdRx :: len :: type :: bs).map RxAnswer.byte) s.line.held } } := by
  have hbytes := State.rxBytes_of_run hc (List.append_nil _).symm hrun
  rw [List.append_nil] at hbytes
  exact congrArg outcome hbytes

/-- R108: with a wrong checksum byte a hunting assembler without a limit is back at hunting, RES as it was. -/
theorem Asm.run_wrong_checksum (hlim : par.overallLimit = none) (hst : a.st = .hunt) (hlen : len.toNat = p.length + 3)
    (hc : c ≠ incomingChecksum len type p) :
    ∃ a', Asm.run par RxAnswer.byte (header :: devIdRx :: len :: type :: (p ++ [c])) a = .ok (a', [])
      ∧ a'.st = .hunt ∧ a'.res = a.res := by
  obtain ⟨a', hrun, htakes, hrem, hsum, -⟩ := Asm.run_frame_body hlim hst hlen (type := type) [c]
  have hrule : Asm.stateRule par c a' = .ok { a' with st := .hunt } := by
    simp [Asm.stateRule, htakes.st, hrem, Asm.checksumRule, hsum, hc]
  exact ⟨{ a' with st := .hunt }, hrun.trans (Asm.run_byte_cons hlim (by simp [htakes.st]) hrule []), rfl, htakes.res⟩

/-- R106: a LEN below 3 ends the invocation of a hunting assembler at the type byte. -/
theorem Asm.run_short_length (hlim : par.overallLimit = none) (hst : a.st = .hunt) (hshort : len.toNat < 3) :
    Asm.run par RxAnswer.byte [header, devIdRx, len, type] a
      = .ok ({ a with rlen := len, rtype := type, res := .rBadLen, st := .idle }, []) := by
  have hid : Asm.stateRule par devIdRx { a with st := .id } = .ok { a with st := .len } := by
    simp [Asm.stateRule, Asm.idRule]
  have hlen : Asm.stateRule par len { a with st := .len } = .ok { a with rlen := len, st := .typ } := rfl
  have htype : Asm.stateRule par type { a with rlen := len, st := .typ }
      = .ok { a with rlen := len, rtype := type, res := .rBadLen, st := .idle } := by
    simp [Asm.stateRule, minLen, hshort, Asm.typeInvalidRule, Asm.finish]
  rw [Asm.run_byte_cons hlim (by simp [hst]) (Asm.stateRule_hunt_header par hst), Asm.run_byte_cons hlim (by simp) hid,
    Asm.run_byte_cons hlim (by simp) hlen, Asm.run_byte_cons hlim (by simp) htype]
  rfl

/-- Settles O35: the loop over a frame's bytes, with the right checksum, with a wrong one, and with a short length. -/
theorem huntingAssemblerJudgesTheFrame : Obligations.HuntingAssemblerJudgesTheFrame := by
  intro len type c p s hst hlim hc
  refine ⟨fun h3 hp => ⟨?right, fun hne => ?wrong⟩, fun hshort => ?short⟩
  case right =>
    have hlen : len.toNat = p.length + 3 := by omega
    obtain ⟨a, hrun, hholds⟩ := Asm.run_incomingFrame (type := type) hlim hst hlen
    exact ⟨a, exec_rxFrame_of_run hc hrun, hholds.st, hholds.res, hholds.rlen, hholds.rtype, hholds.pcnt,
    hholds.pbuf_take⟩
  case wrong =>
    have hlen : len.toNat = p.length + 3 := by omega
    obtain ⟨a, hrun, hend⟩ := Asm.run_wrong_checksum hlim hst hlen hne
    exact ⟨a, exec_rxFrame_of_run hc hrun, hend⟩
  case short => exact exec_rxFrame_of_run hc (Asm.run_short_length hlim hst hshort)

end Sys2Proof.Machine
end

section
/-! PROOF. The mapper (42_angle_mapper.md). `rangeTable_cases` says which rows there are, `toPosition_eq_ok_iff`
and `toAngle_eq_ok_iff` what the two directions answer in terms of the row. Linear arithmetic on the rows, with the
distance bounds of `round_T`, then gives O45, O46 and O48 to O51. -/

namespace Sys2Proof.Machine

open Sys2Proof.Claims

variable {id : Byte} {r : Range} {t : RoundTies} {a : Int} {angle p : Half} {s : State}

/-! ### The rows (R130) -/

theorem rangeTable_outside (hid : id.toNat < 1 ∨ 6 < id.toNat) : rangeTable id = none :=
  if_pos hid

theorem rangeTable_s5 (hid : id.toNat = 5) : rangeTable id = some rangeS5 := by
  obtain rfl : id = 5#8 := BitVec.eq_of_toNat_eq hid
  rfl

theorem rangeTable_unreflected (hid : id.toNat = 1 ∨ id.toNat = 6) : rangeTable id = some (rangeStd false) := by
  obtain rfl | rfl : id = 1#8 ∨ id = 6#8 := hid.imp BitVec.eq_of_toNat_eq BitVec.eq_of_toNat_eq
  · rfl
  · rfl

theorem rangeTable_reflected (hid : id.toNat = 2 ∨ id.toNat = 3 ∨ id.toNat = 4) :
    rangeTable id = some (rangeStd true) := by
  obtain rfl | rfl | rfl : id = 2#8 ∨ id = 3#8 ∨ id = 4#8 :=
    hid.imp BitVec.eq_of_toNat_eq (Or.imp BitVec.eq_of_toNat_eq BitVec.eq_of_toNat_eq)
  · rfl
  · rfl
  · rfl

/-- Every row of the table is the one of servo 5, or for the other ids the standard one, reflected or not. -/
theorem rangeTable_cases (hr : rangeTable id = some r) :
    (1 ≤ id.toNat ∧ id.toNat ≤ 6 ∧ id.toNat ≠ 5 ∧ ∃ i, r = rangeStd i) ∨ (id.toNat = 5 ∧ r = rangeS5) := by
  by_cases hout : id.toNat < 1 ∨ 6 < id.toNat
  · rw [rangeTable_outside hout] at hr
    cases hr
  by_cases h5 : id.toNat = 5
  · exact .inr ⟨h5, Option.some.inj (hr.symm.trans (rangeTable_s5 h5))⟩
  · obtain h | h : (id.toNat = 1 ∨ id.toNat = 6) ∨ (id.toNat = 2 ∨ id.toNat = 3 ∨ id.toNat = 4) := by omega
    · exact .inl ⟨by omega, by omega, h5, false, Option.some.inj (hr.symm.trans (rangeTable_unreflected h))⟩
    · exact .inl ⟨by omega, by omega, h5, true, Option.some.inj (hr.symm.trans (rangeTable_reflected h))⟩

theorem exists_rangeTable (h1 : 1 ≤ id.toNat) (h6 : id.toNat ≤ 6) : ∃ r, rangeTable id = some r := by
  rw [rangeTable, if_neg (by simp only [nServos]; omega)]
  split_ifs
  · exact ⟨_, rfl⟩
  · exact ⟨_, rfl⟩

/-! ### Range, map and inverse map of a row -/

/-- `a` degrees lie in the row's range. -/
def Range.Holds (r : Range) (a : Int) : Prop := r.inMin ≤ a ∧ a ≤ r.inMax

/-- The rounded inverse map of R133, before its range check and the reflection. -/
def Range.inverse (t : RoundTies) (r : Range) (pos : Nat) : Int :=
  roundTies t (((pos : Int) - r.outMin) * ((r.inMax : Int) - r.inMin)) ((r.outMax : Int) - r.outMin) + r.inMin

@[simp] theorem holds_rangeStd (i : Bool) : (rangeStd i).Holds a ↔ 0 ≤ a ∧ a ≤ 180 := Iff.rfl
@[simp] theorem holds_rangeS5 : rangeS5.Holds a ↔ 0 ≤ a ∧ a ≤ 270 := Iff.rfl

@[simp] theorem linear_rangeStd (i : Bool) (n : Nat) : linear (rangeStd i) n = n * 2200 / 180 + 900 := by
  simp [linear, rangeStd, degMaxStd, posMinStd, posMaxStd]

@[simp] theorem linear_rangeS5 (n : Nat) : linear rangeS5 n = n * 3320 / 270 + 380 := by
  simp [linear, rangeS5, degMaxS5, posMinS5, posMaxS5]

@[simp] theorem reflect_rangeStd_false : reflect (rangeStd false) a = a := rfl
@[simp] theorem reflect_rangeStd_true : reflect (rangeStd true) a = 180 - a := rfl
@[simp] theorem reflect_rangeS5 : reflect rangeS5 a = a := rfl

@[simp] theorem inverse_rangeStd (i : Bool) (pos : Nat) :
    (rangeStd i).inverse t pos = roundTies t (((pos : Int) - 900) * 180) 2200 := by
  simp [Range.inverse, rangeStd, degMaxStd, posMinStd, posMaxStd]

@[simp] theorem inverse_rangeS5 (pos : Nat) :
    rangeS5.inverse t pos = roundTies t (((pos : Int) - 380) * 270) 3320 := by
  simp [Range.inverse, rangeS5, degMaxS5, posMinS5, posMaxS5]

theorem holds_iff_inRange (hr : rangeTable id = some r) : r.Holds angle.toInt ↔ InRange id.toNat angle := by
  unfold InRange
  obtain ⟨-, -, hid, i, rfl⟩ | ⟨hid, rfl⟩ := rangeTable_cases hr
  · rw [if_neg hid, holds_rangeStd]
  · rw [if_pos hid, holds_rangeS5]

/-! ### What the two directions answer (R132, R133) -/

theorem toPosition_of_no_row (hr : rangeTable id = none) : toPosition id angle = .error .errId := by
  simp [toPosition, hr]

theorem toPosition_of_row (hr : rangeTable id = some r) : toPosition id angle =
    if angle.toInt < r.inMin ∨ (r.inMax : Int) < angle.toInt then .error .errRange
    else .ok (BitVec.ofNat 16 (linear r (reflect r angle.toInt).toNat)) := by
  rw [toPosition, hr]

theorem toPosition_of_holds (hr : rangeTable id = some r) (ha : r.Holds angle.toInt) :
    toPosition id angle = .ok (BitVec.ofNat 16 (linear r (reflect r angle.toInt).toNat)) := by
  unfold Range.Holds at ha
  rw [toPosition_of_row hr, if_neg (by omega)]

theorem toPosition_of_not_holds (hr : rangeTable id = some r) (ha : ¬ r.Holds angle.toInt) :
    toPosition id angle = .error .errRange := by
  unfold Range.Holds at ha
  rw [toPosition_of_row hr, if_pos (by omega)]

/-- TO_POSITION gives a position for an angle in the range of the id's row, and only there. -/
theorem toPosition_eq_ok_iff : toPosition id angle = .ok p ↔
    ∃ r, rangeTable id = some r ∧ r.Holds angle.toInt
      ∧ p = BitVec.ofNat 16 (linear r (reflect r angle.toInt).toNat) := by
  constructor
  · intro h
    cases hr : rangeTable id with
    | none => simp [toPosition_of_no_row hr] at h
    | some r =>
      by_cases ha : r.Holds angle.toInt
      · exact ⟨r, rfl, ha, Except.ok.inj (h.symm.trans (toPosition_of_holds hr ha))⟩
      · simp [toPosition_of_not_holds hr ha] at h
  · rintro ⟨r, hr, ha, rfl⟩
    exact toPosition_of_holds hr ha

variable {pos : Half}

theorem toAngle_of_no_row (hr : rangeTable id = none) : toAngle t id pos = .error .errId := by
  simp [toAngle, hr]

theorem toAngle_of_row (hr : rangeTable id = some r) : toAngle t id pos =
    if r.inverse t pos.toNat < r.inMin ∨ (r.inMax : Int) < r.inverse t pos.toNat then .error .errRange
    else .ok (BitVec.ofInt 16 (reflect r (r.inverse t pos.toNat))) := by
  rw [toAngle, hr]
  rfl

theorem toAngle_of_holds (hr : rangeTable id = some r) (ha : r.Holds (r.inverse t pos.toNat)) :
    toAngle t id pos = .ok (BitVec.ofInt 16 (reflect r (r.inverse t pos.toNat))) := by
  unfold Range.Holds at ha
  rw [toAngle_of_row hr, if_neg (by omega)]

theorem toAngle_of_not_holds (hr : rangeTable id = some r) (ha : ¬ r.Holds (r.inverse t pos.toNat)) :
    toAngle t id pos = .error .errRange := by
  unfold Range.Holds at ha
  rw [toAngle_of_row hr, if_pos (by omega)]

/-- TO_ANGLE gives an angle where the rounded inverse lies in the range of the id's row, and only there. -/
theorem toAngle_eq_ok_iff {out : Half} : toAngle t id pos = .ok out ↔
    ∃ r, rangeTable id = some r ∧ r.Holds (r.inverse t pos.toNat)
      ∧ out = BitVec.ofInt 16 (reflect r (r.inverse t pos.toNat)) := by
  constructor
  · intro h
    cases hr : rangeTable id with
    | none => simp [toAngle_of_no_row hr] at h
    | some r =>
      by_cases ha : r.Holds (r.inverse t pos.toNat)
      · exact ⟨r, rfl, ha, Except.ok.inj (h.symm.trans (toAngle_of_holds hr ha))⟩
      · simp [toAngle_of_not_holds hr ha] at h
  · rintro ⟨r, hr, ha, rfl⟩
    exact toAngle_of_holds hr ha

/-! ### What the two operations make of the state -/

theorem exec_toPosition_ok (h : toPosition id angle = .ok p) :
    exec (.toPosition id angle) s = .next { s with
      map := { s.map with err := .none, posOut := p }, result := .position p } := by
  change execToPosition id angle s = _
  rw [execToPosition, h]
  rfl

theorem exec_toPosition_error {e : MapErr} (h : toPosition id angle = .error e) :
    ∃ v n, exec (.toPosition id angle) s = .next { s with
      map := { s.map with err := e, posOut := v }, fresh := n, result := .mapErr e } := by
  change ∃ v n, execToPosition id angle s = _
  rw [execToPosition, h]
  exact ⟨_, _, rfl⟩

theorem exec_toAngle_ok {out : Half} (h : toAngle s.par.roundTies id pos = .ok out) :
    exec (.toAngle id pos) s = .next { s with
      map := { s.map with err := .none, angleOut := out }, result := .angle out } := by
  change execToAngle id pos s = _
  rw [execToAngle, h]
  rfl

theorem exec_toAngle_error {e : MapErr} (h : toAngle s.par.roundTies id pos = .error e) :
    ∃ v n, exec (.toAngle id pos) s = .next { s with
      map := { s.map with err := e, angleOut := v }, fresh := n, result := .mapErr e } := by
  change ∃ v n, execToAngle id pos s = _
  rw [execToAngle, h]
  exact ⟨_, _, rfl⟩

/-- Inside the row's range TO_POSITION answers the row's map of the reflected angle. -/
theorem exec_toPosition_of_row {n : Nat} (hr : rangeTable id = some r) (ha : r.Holds angle.toInt)
    (hn : linear r (reflect r angle.toInt).toNat = n) :
    exec (.toPosition id angle) s = .next { s with
      map := { s.map with err := .none, posOut := BitVec.ofNat 16 n }, result := .position (BitVec.ofNat 16 n) } :=
  hn ▸ exec_toPosition_ok (toPosition_of_holds hr ha)

/-- Settles O45: the id's row decides, and in it the range of the angle. -/
theorem toPositionMapsOrRefuses : Obligations.ToPositionMapsOrRefuses := by
  intro id angle s
  refine ⟨fun hid => ?noRow, fun hid h0 h180 => ?unreflected, fun hid h0 h180 => ?reflected, fun hid h0 h270 => ?s5,
    fun h1 h6 hout => ?range⟩
  case noRow => exact exec_toPosition_error (toPosition_of_no_row (rangeTable_outside hid))
  case unreflected => exact exec_toPosition_of_row (rangeTable_unreflected hid) ⟨h0, h180⟩ (linear_rangeStd _ _)
  case reflected => exact exec_toPosition_of_row (rangeTable_reflected hid) ⟨h0, h180⟩ (linear_rangeStd _ _)
  case s5 => exact exec_toPosition_of_row (rangeTable_s5 hid) ⟨h0, h270⟩ (linear_rangeS5 _)
  case range =>
    obtain ⟨r, hr⟩ := exists_rangeTable h1 h6
    have hnot : ¬ InRange id.toNat angle := by unfold InRange; omega
    exact exec_toPosition_error (toPosition_of_not_holds hr (mt (holds_iff_inRange hr).mp hnot))

/-- In a state's tie rule, TO_ANGLE answers the reflected inverse inside the row's range and ERR_RANGE outside it. -/
theorem exec_toAngle_of_row (hr : rangeTable id = some r) (ha : r.inverse s.par.roundTies pos.toNat = a) :
    (r.Holds a → exec (.toAngle id pos) s = .next { s with
      map := { s.map with err := .none, angleOut := BitVec.ofInt 16 (reflect r a) }
      result := .angle (BitVec.ofInt 16 (reflect r a)) })
    ∧ (¬ r.Holds a → ∃ v n, exec (.toAngle id pos) s = .next { s with
      map := { s.map with err := .errRange, angleOut := v }, fresh := n, result := .mapErr .errRange }) := by
  subst ha
  exact ⟨fun h => exec_toAngle_ok (toAngle_of_holds hr h), fun h => exec_toAngle_error (toAngle_of_not_holds hr h)⟩

/-- Settles O46: the id's row decides, and in it the range of the rounded inverse. -/
theorem toAngleMapsOrRefuses : Obligations.ToAngleMapsOrRefuses := by
  intro id pos s
  refine ⟨fun hid => ?noRow, fun hid => ?unreflected, fun hid => ?reflected, fun hid => ?s5⟩
  case noRow => exact exec_toAngle_error (toAngle_of_no_row (rangeTable_outside hid))
  case unreflected =>
    obtain ⟨hin, hout⟩ := exec_toAngle_of_row (s := s) (rangeTable_unreflected hid) (inverse_rangeStd false pos.toNat)
    exact ⟨hin, fun h => hout (by rw [holds_rangeStd]; omega)⟩
  case reflected =>
    obtain ⟨hin, hout⟩ := exec_toAngle_of_row (s := s) (rangeTable_reflected hid) (inverse_rangeStd true pos.toNat)
    exact ⟨hin, fun h => hout (by rw [holds_rangeStd]; omega)⟩
  case s5 =>
    obtain ⟨hin, hout⟩ := exec_toAngle_of_row (s := s) (rangeTable_s5 hid) (inverse_rangeS5 pos.toNat)
    exact ⟨hin, fun h => hout (by rw [holds_rangeS5]; omega)⟩

/-! ### Arithmetic of the rows -/

/-- R8: whatever the tie rule, the rounded quotient is at most one half away. -/
theorem roundTies_nearest (t : RoundTies) (n : Int) {q : Int} (hq : 0 < q) :
    -q ≤ 2 * (n - roundTies t n q * q) ∧ 2 * (n - roundTies t n q * q) ≤ q := by
  cases t with
  | halfUp => exact (roundTies_halfUp_nearest n hq).imp_right Int.le_of_lt
  | halfDown => exact (roundTies_halfDown_nearest n hq).imp_left Int.le_of_lt
  | halfEven =>
    obtain ⟨hlow, hhigh, -⟩ := roundTies_halfEven_nearest n hq
    exact ⟨hlow, hhigh⟩

/-- R137, ids other than 5: no position next to the window's ends gives an exact half, so the tie rule is no matter. -/
theorem holds_inverse_rangeStd_iff (t : RoundTies) (i : Bool) (n : Nat) :
    (rangeStd i).Holds ((rangeStd i).inverse t n) ↔ 894 ≤ n ∧ n ≤ 3106 := by
  have hnear := roundTies_nearest t (((n : Int) - 900) * 180) (q := 2200) (by omega)
  simp only [holds_rangeStd, inverse_rangeStd]
  omega

/-- R137, id 5. -/
theorem holds_inverse_rangeS5_iff (t : RoundTies) (n : Nat) :
    rangeS5.Holds (rangeS5.inverse t n) ↔ 374 ≤ n ∧ n ≤ 3706 := by
  have hnear := roundTies_nearest t (((n : Int) - 380) * 270) (q := 3320) (by omega)
  simp only [holds_rangeS5, inverse_rangeS5]
  omega

/-- R130: the range of every row lies in 0 to 270. -/
theorem Range.Holds.bounds (ha : r.Holds a) (hr : rangeTable id = some r) : 0 ≤ a ∧ a ≤ 270 := by
  obtain ⟨-, -, -, i, rfl⟩ | ⟨-, rfl⟩ := rangeTable_cases hr
  · rw [holds_rangeStd] at ha; omega
  · exact ha

/-- The reflection maps a row's range onto itself. -/
theorem Range.Holds.reflect (ha : r.Holds a) (hr : rangeTable id = some r) : r.Holds (reflect r a) := by
  obtain ⟨-, -, -, _ | _, rfl⟩ | ⟨-, rfl⟩ := rangeTable_cases hr
  · exact ha
  · rw [holds_rangeStd] at ha ⊢; rw [reflect_rangeStd_true]; omega
  · exact ha

theorem reflect_reflect (r : Range) (a : Int) : reflect r (reflect r a) = a := by
  unfold reflect
  split_ifs
  · omega
  · rfl

/-- R134(e): the map of every row stays in 380 to 3700. -/
theorem Range.Holds.linear_bounds (ha : r.Holds a) (hr : rangeTable id = some r) :
    380 ≤ linear r a.toNat ∧ linear r a.toNat ≤ 3700 := by
  obtain ⟨-, -, -, i, rfl⟩ | ⟨-, rfl⟩ := rangeTable_cases hr
  · rw [holds_rangeStd] at ha; rw [linear_rangeStd]; omega
  · rw [holds_rangeS5] at ha; rw [linear_rangeS5]; omega

/-- A position is not cut by its 16 bits. -/
theorem Range.Holds.toNat_position (ha : r.Holds a) (hr : rangeTable id = some r) :
    (BitVec.ofNat 16 (linear r a.toNat)).toNat = linear r a.toNat := by
  obtain ⟨-, hmax⟩ := ha.linear_bounds hr
  exact Nat.mod_eq_of_lt (by omega)

/-- An angle is not cut by its 16 bits. -/
theorem Range.Holds.toInt_ofInt (ha : r.Holds a) (hr : rangeTable id = some r) :
    (BitVec.ofInt 16 a).toInt = a := by
  obtain ⟨h0, h270⟩ := ha.bounds hr
  exact BitVec.toInt_ofInt_eq_self (by decide) (by omega) (by omega)

/-- R136: the truncation lowers the position by less than one unit, so the inverse rounds back to the angle. -/
theorem Range.Holds.inverse_linear (ha : r.Holds a) (hr : rangeTable id = some r) (t : RoundTies) :
    r.inverse t (linear r a.toNat) = a := by
  obtain ⟨-, -, -, i, rfl⟩ | ⟨-, rfl⟩ := rangeTable_cases hr
  · have hnear := roundTies_nearest t (((linear (rangeStd i) a.toNat : Nat) - 900 : Int) * 180) (q := 2200) (by omega)
    rw [holds_rangeStd] at ha
    rw [inverse_rangeStd]
    rw [linear_rangeStd] at hnear ⊢
    omega
  · have hnear := roundTies_nearest t (((linear rangeS5 a.toNat : Nat) - 380 : Int) * 270) (q := 3320) (by omega)
    rw [holds_rangeS5] at ha
    rw [inverse_rangeS5]
    rw [linear_rangeS5] at hnear ⊢
    omega

/-- R136: the position of the rounded angle is within 7 units; an exact half that goes up is within 6. -/
theorem linear_inverse_rangeStd_near (i : Bool) (n : Nat) (ha : (rangeStd i).Holds ((rangeStd i).inverse t n)) :
    let back := linear (rangeStd i) ((rangeStd i).inverse t n).toNat
    let bound := if t = .halfUp then 6 else 7
    n ≤ back + bound ∧ back ≤ n + bound := by
  have hnear := roundTies_nearest t (((n : Int) - 900) * 180) (q := 2200) (by omega)
  have hup := roundTies_halfUp_nearest (((n : Int) - 900) * 180) (q := 2200) (by omega)
  simp only [holds_rangeStd, inverse_rangeStd, linear_rangeStd] at ha ⊢
  split_ifs with ht
  · subst ht; omega
  · omega

theorem linear_inverse_rangeS5_near (n : Nat) (ha : rangeS5.Holds (rangeS5.inverse t n)) :
    let back := linear rangeS5 (rangeS5.inverse t n).toNat
    n ≤ back + 7 ∧ back ≤ n + 7 := by
  have hnear := roundTies_nearest t (((n : Int) - 380) * 270) (q := 3320) (by omega)
  simp only [holds_rangeS5, inverse_rangeS5, linear_rangeS5] at ha ⊢
  omega

/-! ### Round trips and windows (R136, R137) -/

theorem toAngle_toPosition (hr : rangeTable id = some r) (ha : r.Holds angle.toInt) (t : RoundTies) :
    ∃ p, toPosition id angle = .ok p ∧ toAngle t id p = .ok angle := by
  have hrefl := ha.reflect hr
  refine ⟨_, toPosition_of_holds hr ha, toAngle_eq_ok_iff.mpr ⟨r, hr, ?_⟩⟩
  rw [hrefl.toNat_position hr, hrefl.inverse_linear hr, reflect_reflect, BitVec.ofInt_toInt]
  exact ⟨hrefl, rfl⟩

/-- TO_POSITION of the angle TO_ANGLE gives is the row's map of the rounded inverse: the two reflections cancel. -/
theorem toPosition_toAngle (hr : rangeTable id = some r) (ha : r.Holds (r.inverse t pos.toNat)) :
    ∃ p, toPosition id (BitVec.ofInt 16 (reflect r (r.inverse t pos.toNat))) = .ok p
      ∧ p.toNat = linear r (r.inverse t pos.toNat).toNat := by
  have hrefl := ha.reflect hr
  have hangle := hrefl.toInt_ofInt hr
  refine ⟨_, toPosition_of_holds hr (hangle.symm ▸ hrefl), ?_⟩
  rw [hangle, reflect_reflect, ha.toNat_position hr]

/-- Settles O48: the exact recovery, and by rows the distance of the position that comes back. -/
theorem mapperRoundTrips : Obligations.MapperRoundTrips := by
  refine ⟨fun t id angle h1 h6 hin => ?exact, fun t id pos out h => ?near⟩
  case exact =>
    obtain ⟨r, hr⟩ := exists_rangeTable h1 h6
    exact toAngle_toPosition hr ((holds_iff_inRange hr).mpr hin) t
  case near =>
    intro bound
    obtain ⟨r, hr, ha, rfl⟩ := toAngle_eq_ok_iff.mp h
    obtain ⟨p, hp, hback⟩ := toPosition_toAngle hr ha
    refine ⟨p, hp, ?_⟩
    rw [hback]
    obtain ⟨-, -, hid, i, rfl⟩ | ⟨hid, rfl⟩ := rangeTable_cases hr
    · have hbound : bound = if t = .halfUp then 6 else 7 := by simp [bound, hid]
      exact hbound ▸ linear_inverse_rangeStd_near i pos.toNat ha
    · have hbound : bound = 7 := by simp [bound, hid]
      exact hbound ▸ linear_inverse_rangeS5_near pos.toNat ha

/-- Settles O49: by rows, the positions whose rounded inverse lies in the row's range. -/
theorem acceptedPositionWindows : Obligations.AcceptedPositionWindows := by
  intro t id pos
  simp only [List.mem_cons, List.not_mem_nil, or_false]
  constructor
  · rintro ⟨out, h⟩
    obtain ⟨r, hr, ha, -⟩ := toAngle_eq_ok_iff.mp h
    obtain ⟨h1, h6, hid, i, rfl⟩ | ⟨hid, rfl⟩ := rangeTable_cases hr
    · exact .inl ⟨by omega, (holds_inverse_rangeStd_iff t i _).mp ha⟩
    · exact .inr ⟨hid, (holds_inverse_rangeS5_iff t _).mp ha⟩
  · intro h
    obtain ⟨r, hr⟩ := exists_rangeTable (id := id) (by omega) (by omega)
    refine ⟨_, toAngle_of_holds hr ?_⟩
    obtain ⟨-, -, hid, i, rfl⟩ | ⟨hid, rfl⟩ := rangeTable_cases hr
    · exact (holds_inverse_rangeStd_iff t i _).mpr (by omega)
    · exact (holds_inverse_rangeS5_iff t _).mpr (by omega)

/-! ### Reflection (R138) -/

/-- R134(c): the subtraction `180 - angle` is exact in 16 bits. -/
theorem toInt_reflected (h0 : 0 ≤ angle.toInt) (h180 : angle.toInt ≤ 180) :
    (180#16 - angle).toInt = 180 - angle.toInt := by
  have h : (180#16 : Half).toInt = 180 := rfl
  rw [BitVec.toInt_sub, h]
  exact Int.bmod_eq_of_le (by omega) (by omega)

theorem toPosition_eq_of_rangeTable_eq {id' : Byte} (h : rangeTable id = rangeTable id') (angle : Half) :
    toPosition id angle = toPosition id' angle := by
  simp only [toPosition, h]

theorem toAngle_eq_of_rangeTable_eq {id' : Byte} (h : rangeTable id = rangeTable id') (t : RoundTies) (pos : Half) :
    toAngle t id pos = toAngle t id' pos := by
  simp only [toAngle, h]

theorem toPosition_reflected (hid : id.toNat = 2 ∨ id.toNat = 3 ∨ id.toNat = 4) (h0 : 0 ≤ angle.toInt)
    (h180 : angle.toInt ≤ 180) : toPosition id angle = toPosition 1#8 (180#16 - angle) := by
  have hrefl := toInt_reflected h0 h180
  have hholds : (rangeStd false).Holds (180#16 - angle).toInt := by rw [holds_rangeStd]; omega
  rw [toPosition_of_holds (rangeTable_reflected hid) ⟨h0, h180⟩,
    toPosition_of_holds (rangeTable_unreflected (.inl rfl)) hholds, reflect_rangeStd_true, reflect_rangeStd_false, hrefl]
  rfl

theorem toAngle_reflected {out : Half} (hid : id.toNat = 2 ∨ id.toNat = 3 ∨ id.toNat = 4)
    (h : toAngle t 1#8 pos = .ok out) : toAngle t id pos = .ok (180#16 - out) := by
  obtain ⟨r, hr, ha, rfl⟩ := toAngle_eq_ok_iff.mp h
  have hrow := rangeTable_unreflected (id := 1#8) (.inl rfl)
  obtain rfl := Option.some.inj (hrow.symm.trans hr)
  have hrow' := rangeTable_reflected hid
  have ha' : (rangeStd true).Holds ((rangeStd true).inverse t pos.toNat) := ha
  have hout := ha.toInt_ofInt hrow
  rw [toAngle_of_holds hrow' ha']
  refine congrArg Except.ok (BitVec.eq_of_toInt_eq ?_)
  rw [(ha'.reflect hrow').toInt_ofInt hrow', reflect_rangeStd_false,
    toInt_reflected (hout.symm ▸ ha.1) (hout.symm ▸ ha.2), hout]
  rfl

/-- Settles O50: one table for servos 1 to 4 and 6, read from its other end by 2, 3 and 4. -/
theorem mountInversionReflects : Obligations.MountInversionReflects := by
  intro t angle pos
  have hrow : rangeTable 6#8 = rangeTable 1#8 := rfl
  refine ⟨fun id hid => ⟨toPosition_reflected hid, fun out => toAngle_reflected hid⟩,
    toPosition_eq_of_rangeTable_eq hrow angle, toAngle_eq_of_rangeTable_eq hrow t pos, fun p h => ?position,
    fun out h => ?angle⟩
  case position =>
    obtain ⟨r, hr, ha, rfl⟩ := toPosition_eq_ok_iff.mp h
    obtain rfl := Option.some.inj ((rangeTable_s5 rfl).symm.trans hr)
    exact (ha.reflect hr).toNat_position hr
  case angle =>
    obtain ⟨r, hr, ha, rfl⟩ := toAngle_eq_ok_iff.mp h
    obtain rfl := Option.some.inj ((rangeTable_s5 rfl).symm.trans hr)
    rw [(ha.reflect hr).toInt_ofInt hr, reflect_rangeS5, inverse_rangeS5]

/-! ### The tables (R20, R135) -/

theorem tabStd_step (n : Nat) : tabStd (n + 1) - tabStd n = 12 ∨ tabStd (n + 1) - tabStd n = 13 := by
  simp only [tabStd, posMaxStd, posMinStd, degMaxStd]
  omega

theorem tabS5_step (n : Nat) : tabS5 (n + 1) - tabS5 n = 12 ∨ tabS5 (n + 1) - tabS5 n = 13 := by
  simp only [tabS5, posMaxS5, posMinS5, degMaxS5]
  omega

/-- Settles O51: the row's map is its table, and the two ranges bound the results. -/
theorem mapperLooksUpIncreasingTables : Obligations.MapperLooksUpIncreasingTables := by
  refine ⟨fun id angle p h => ?lookup, fun n => ⟨tabStd_step n, tabS5_step n⟩, fun t id pos out h => ?angles⟩
  case lookup =>
    obtain ⟨r, hr, ha, rfl⟩ := toPosition_eq_ok_iff.mp h
    have hrefl := ha.reflect hr
    rw [hrefl.toNat_position hr]
    obtain ⟨hmin, hmax⟩ := hrefl.linear_bounds hr
    refine ⟨hmin, hmax, fun hid => ?_, fun hid => ?_, fun hid => ?_⟩
    · obtain rfl := Option.some.inj ((rangeTable_s5 hid).symm.trans hr)
      rfl
    · obtain rfl := Option.some.inj ((rangeTable_unreflected hid).symm.trans hr)
      rfl
    · obtain rfl := Option.some.inj ((rangeTable_reflected hid).symm.trans hr)
      rw [holds_rangeStd] at ha
      have hflip : (180 - angle.toInt).toNat = 180 - angle.toInt.toNat := by omega
      exact congrArg tabStd hflip
  case angles =>
    obtain ⟨r, hr, ha, rfl⟩ := toAngle_eq_ok_iff.mp h
    have hrefl := ha.reflect hr
    rw [hrefl.toInt_ofInt hr]
    exact hrefl.bounds hr

end Sys2Proof.Machine
end

section
/-! PROOF. The formatters (43_command_formatter.md). Each has one lemma that lays its command bytes out as R151 to R156
write them; `formatted_eq_next` says that its row answers these bytes and changes nothing else (R150). From these O13,
O14 and O15. -/

namespace Sys2Proof.Machine

open Sys2Proof.Claims

/-! ### The command bytes (R151 to R156) -/

theorem fmtWriteAll_eq (p1 p2 p3 p4 p5 p6 t : Half) :
    fmtWriteAll p1 p2 p3 p4 p5 p6 t = [0xFF#8, 0xFC#8, 0x11#8, 0x1D#8, hiByte p1, loByte p1, hiByte p2, loByte p2,
      hiByte p3, loByte p3, hiByte p4, loByte p4, hiByte p5, loByte p5, hiByte p6, loByte p6, hiByte t, loByte t] := by
  simp only [fmtWriteAll, bytes16_eq]
  rfl

theorem fmtWriteOne_eq (id : Byte) (p t : Half) :
    fmtWriteOne id p t = [0xFF#8, 0xFC#8, 0x07#8, 0x10#8 + id, hiByte p, loByte p, hiByte t, loByte t] := by
  simp only [fmtWriteOne, bytes16_eq]
  rfl

theorem fmtTorque_eq (v : Byte) : fmtTorque v = [0xFF#8, 0xFC#8, 0x04#8, 0x1A#8, v] := rfl

theorem fmtPing_eq (id : Byte) : fmtPing id = [0xFF#8, 0xFC#8, 0x04#8, 0x38#8, id] := rfl

theorem fmtReadPos_eq (id : Byte) : fmtReadPos id = [0xFF#8, 0xFC#8, 0x03#8, 0x30#8 + id] := rfl

theorem fmtBuzzer_eq (d : Byte) : fmtBuzzer d = [0xFF#8, 0xFC#8, 0x04#8, 0x06#8, d] := rfl

/-! ### The rows of the formatters -/

/-- R150: a formatter whose bytes are `bs` answers `bs` and writes no state. -/
theorem formatted_eq_next {out bs : List Byte} (h : out = bs) (s : State) :
    formatted out s = .next { s with result := .bytes bs } := by
  subst h
  rfl

/-- Settles O13: by the layout of a bulk write. -/
theorem formatWriteAllLaysOutSixPositionsAndTime : Obligations.FormatWriteAllLaysOutSixPositionsAndTime := by
  intro p1 p2 p3 p4 p5 p6 t s
  exact formatted_eq_next (fmtWriteAll_eq p1 p2 p3 p4 p5 p6 t) s

/-- Settles O14: each row is the layout of a single write at its own id. -/
theorem formatWriteOneLaysOutPositionAndTime : Obligations.FormatWriteOneLaysOutPositionAndTime := by
  intro p t s out
  have row (id : Byte) : formatted (fmtWriteOne id p t) s = out (0x10#8 + id) :=
    formatted_eq_next (fmtWriteOne_eq id p t) s
  exact ⟨row 1#8, row 2#8, row 3#8, row 4#8, row 5#8, row 6#8⟩

/-- Settles O15: by the layouts of the short commands, that of a read taken at each of the six ids. -/
theorem formatShortCommands : Obligations.FormatShortCommands := by
  intro v s out
  have readPos (id : Byte) : formatted (fmtReadPos id) s = out [0xFF#8, 0xFC#8, 0x03#8, 0x30#8 + id] :=
    formatted_eq_next (fmtReadPos_eq id) s
  exact ⟨formatted_eq_next (fmtTorque_eq v) s, formatted_eq_next (fmtPing_eq v) s,
    formatted_eq_next (fmtBuzzer_eq v) s, readPos 1#8, readPos 2#8, readPos 3#8, readPos 4#8, readPos 5#8, readPos 6#8⟩

end Sys2Proof.Machine
end

section
/-! PROOF. Layer SEQ, opening, closing and the three writes: what the client's guard does before every sequence, what the
transport's answer to open makes of it, and which command a write hands over. From these O52 to O56. -/

namespace Sys2Proof.Machine

open Sys2Proof.Claims

variable {s : State} {id : Byte} {angle time a1 a2 a3 a4 a5 a6 : Half}

/-! ### The client's guard (R170) -/

theorem State.asClient_of_ready (h : Ready s) (k : Host.Outcome State Fault Refusal) : s.asClient k = k := by
  obtain ⟨hlife, hcall⟩ := h
  simp [State.asClient, hlife, hcall]

/-- U8: while closed the guard refuses. -/
theorem State.asClient_of_closed (h : s.seq.life = .closed) (k : Host.Outcome State Fault Refusal) :
    s.asClient k = .refused .lifeClosed := by
  simp [State.asClient, h]

/-- U9: while another call waits the guard refuses. -/
theorem State.asClient_of_busy (h : s.seq.life = .operating) (hcall : s.call ≠ .none)
    (k : Host.Outcome State Fault Refusal) : s.asClient k = .refused .clientBusy := by
  simp [State.asClient, h, hcall]

/-! ### Opening and closing (R177, R178) -/

theorem Line.askOpen_of_opens {l : Line} (path : Path) (h : l.openNext = [] ∨ ∃ r, l.openNext = true :: r) :
    l.askOpen path = (true, { l with openNext := l.openNext.tail, handle := some path }) := by
  obtain h | ⟨r, h⟩ := h
  · simp [Line.askOpen, h]
  · simp [Line.askOpen, h]

theorem Line.askOpen_of_fails {l : Line} {r : List Bool} (path : Path) (h : l.openNext = false :: r) :
    l.askOpen path = (false, { l with openNext := r }) := by
  simp [Line.askOpen, h]

theorem exec_seqOpen_of_opens {l : Line} {path : Path} (hlife : s.seq.life = .closed) (hcall : s.call = .none)
    (h : s.line.askOpen path = (true, l)) :
    exec (.seqOpen path) s = .next { s with line := l, seq := { s.seq with life := .operating }, result := .done } := by
  simp [exec, execSeqOpen, hlife, hcall, h, State.withLine, State.withSeq, State.give]

theorem exec_seqOpen_of_fails {l : Line} {path : Path} (hlife : s.seq.life = .closed) (hcall : s.call = .none)
    (h : s.line.askOpen path = (false, l)) :
    exec (.seqOpen path) s = .next { s with line := l, result := .err .connection } := by
  simp [exec, execSeqOpen, hlife, hcall, h, State.withLine, State.fail, State.give]

theorem exec_seqClose_of_operating (hlife : s.seq.life = .operating) (hcall : s.call = .none) :
    exec .seqClose s = .next { s with
      line := s.line.release, seq := { s.seq with life := .closed }, result := .done } := by
  simp [exec, execSeqClose, hlife, hcall, State.withLine, State.withSeq, State.give]

/-- Closing while closed (log entry 14). -/
theorem exec_seqClose_of_closed (hlife : s.seq.life = .closed) (hcall : s.call = .none) :
    exec .seqClose s = .next { s with result := .done } := by
  simp [exec, execSeqClose, hlife, hcall, State.give]

/-- Settles O52: each answer of the transport to open, and the close in each LIFE. -/
theorem openFollowsTheTransportAndCloseReleasesOnce : Obligations.OpenFollowsTheTransportAndCloseReleasesOnce :=
  fun s hcall =>
    ⟨fun path hlife =>
      ⟨fun hopens => exec_seqOpen_of_opens hlife hcall (s.line.askOpen_of_opens path hopens),
        fun _ hfails => exec_seqOpen_of_fails hlife hcall (s.line.askOpen_of_fails path hfails)⟩,
      fun hlife => exec_seqClose_of_operating hlife hcall, fun hlife => exec_seqClose_of_closed hlife hcall⟩

/-! ### Use out of order (U2, U8, U9) -/

theorem exec_seqOpen_of_operating (hlife : s.seq.life = .operating) (path : Path) :
    exec (.seqOpen path) s = .refused .lifeOperating := if_pos hlife

theorem exec_seqOpen_of_busy (hlife : s.seq.life = .closed) (hcall : s.call ≠ .none) (path : Path) :
    exec (.seqOpen path) s = .refused .clientBusy := by
  simp [exec, execSeqOpen, hlife, hcall]

theorem exec_seqClose_of_busy (hcall : s.call ≠ .none) : exec .seqClose s = .refused .clientBusy := if_pos hcall

/-- SEQ_PING with a valid id, from a ready client whose assembler runs. -/
theorem exec_seqPing_running {id : Int} (hready : Ready s) (h1 : 1 ≤ id) (h250 : id ≤ 250) (hs : s.asm.st ≠ .idle) :
    exec (.seqPing id) s = .refused .decodeRunning := by
  have hid : ¬ (id < pingIdMin ∨ pingIdMax < id) := by rw [pingIdMin, pingIdMax]; omega
  rw [exec, execSeqPing, State.asClient_of_ready hready, if_neg hid, if_pos hs]

/-- SEQ_READ_ANGLE with a valid id, from a ready client whose assembler runs. -/
theorem exec_seqReadAngle_running {id : Int} (hready : Ready s) (h1 : 1 ≤ id) (h6 : id ≤ 6) (hs : s.asm.st ≠ .idle) :
    exec (.seqReadAngle id) s = .refused .decodeRunning := by
  have hid : ¬ (id < 1 ∨ (nServos : Int) < id) := by rw [nServos]; omega
  rw [exec, execSeqReadAngle, State.asClient_of_ready hready, if_neg hid, if_pos hs]

/-- Settles O53: the guard of the five sequences, the guards of open and close, and the running assembler. -/
theorem useOutOfOrderIsRefused : Obligations.UseOutOfOrderIsRefused := by
  refine fun s => ⟨fun hlife => ?closed, exec_seqOpen_of_operating, fun hlife hcall => ?busy,
    fun hlife hcall => ⟨exec_seqClose_of_busy hcall, exec_seqOpen_of_busy hlife hcall⟩, fun hs => ?running⟩
  case closed =>
    have refused := State.asClient_of_closed hlife
    exact ⟨fun _ _ _ _ _ _ _ => refused _, fun _ _ _ => refused _, fun _ => refused _, fun _ => refused _,
      fun _ => refused _⟩
  case busy =>
    have refused := State.asClient_of_busy hlife hcall
    exact ⟨fun _ _ _ _ _ _ _ => refused _, fun _ _ _ => refused _, fun _ => refused _, fun _ => refused _,
      fun _ => refused _, exec_seqClose_of_busy hcall⟩
  case running =>
    exact ⟨if_pos hs, fun hready => ⟨fun _ h1 h250 => exec_seqPing_running hready h1 h250 hs,
      fun _ h1 h6 => exec_seqReadAngle_running hready h1 h6 hs⟩⟩

/-! ### The position of an angle, in the terms of the claims (R132) -/

/-- The row's map of the reflected angle is the position of R132. -/
theorem positionOf_eq {r : Range} (hr : rangeTable id = some r) (angle : Half) :
    positionOf id.toNat angle = BitVec.ofNat 16 (linear r (reflect r angle.toInt).toNat) := by
  obtain ⟨h1, h6⟩ : 1 ≤ id.toNat ∧ id.toNat ≤ 6 := by
    obtain ⟨h1, h6, -⟩ | ⟨h5, -⟩ := rangeTable_cases hr <;> omega
  obtain h5 | hreflected | hplain : id.toNat = 5 ∨ (id.toNat = 2 ∨ id.toNat = 3 ∨ id.toNat = 4)
      ∨ (id.toNat = 1 ∨ id.toNat = 6) := by omega
  · obtain rfl := Option.some.inj ((rangeTable_s5 h5).symm.trans hr)
    rw [positionOf, if_pos h5, linear_rangeS5, reflect_rangeS5]
  · obtain rfl := Option.some.inj ((rangeTable_reflected hreflected).symm.trans hr)
    rw [positionOf, if_neg (by omega), if_pos hreflected, linear_rangeStd, reflect_rangeStd_true]
  · obtain rfl := Option.some.inj ((rangeTable_unreflected hplain).symm.trans hr)
    rw [positionOf, if_neg (by omega), if_neg (by omega), linear_rangeStd, reflect_rangeStd_false]

theorem toPosition_of_inRange (h1 : 1 ≤ id.toNat) (h6 : id.toNat ≤ 6) (hin : InRange id.toNat angle) :
    toPosition id angle = .ok (positionOf id.toNat angle) := by
  obtain ⟨r, hr⟩ := exists_rangeTable h1 h6
  rw [positionOf_eq hr]
  exact toPosition_of_holds hr ((holds_iff_inRange hr).mpr hin)

theorem toPosition_of_not_inRange (h1 : 1 ≤ id.toNat) (h6 : id.toNat ≤ 6) (hout : ¬ InRange id.toNat angle) :
    toPosition id angle = .error .errRange := by
  obtain ⟨r, hr⟩ := exists_rangeTable h1 h6
  exact toPosition_of_not_holds hr (mt (holds_iff_inRange hr).mp hout)

/-- TO_POSITION gives a position for angles in the servo's range only. -/
theorem inRange_of_toPosition {p : Half} (h : toPosition id angle = .ok p) : InRange id.toNat angle := by
  obtain ⟨r, hr, ha, -⟩ := toPosition_eq_ok_iff.mp h
  exact (holds_iff_inRange hr).mp ha

/-! ### A write (R170, R171 to R173) -/

/-- The frame of a write goes to the transport in one TxWrite, and nothing but the line and the result changes. -/
theorem State.send_give_written (cmd : List Byte) (r : Result) (s : State) :
    ∃ l, Written (framed cmd) s.line l ∧ (s.send cmd).give r = { s with line := l, result := r } := by
  rw [← encodeFrameBytes_eq_framed]
  exact ⟨_, Line.txWrite_written _ _, rfl⟩

/-- All six angles of a bulk write lie in their servos' ranges (R171). -/
def AllInRange (a1 a2 a3 a4 a5 a6 : Half) : Prop :=
  InRange 1 a1 ∧ InRange 2 a2 ∧ InRange 3 a3 ∧ InRange 4 a4 ∧ InRange 5 a5 ∧ InRange 6 a6

theorem writeAllCommand_of_allInRange (h : AllInRange a1 a2 a3 a4 a5 a6) (time : Half) :
    writeAllCommand a1 a2 a3 a4 a5 a6 time = .ok (fmtWriteAll (positionOf 1 a1) (positionOf 2 a2) (positionOf 3 a3)
      (positionOf 4 a4) (positionOf 5 a5) (positionOf 6 a6) time) := by
  obtain ⟨h1, h2, h3, h4, h5, h6⟩ := h
  rw [writeAllCommand, toPosition_of_inRange (id := 1#8) (by decide) (by decide) h1,
    toPosition_of_inRange (id := 2#8) (by decide) (by decide) h2,
    toPosition_of_inRange (id := 3#8) (by decide) (by decide) h3,
    toPosition_of_inRange (id := 4#8) (by decide) (by decide) h4,
    toPosition_of_inRange (id := 5#8) (by decide) (by decide) h5,
    toPosition_of_inRange (id := 6#8) (by decide) (by decide) h6]
  rfl

/-- R192: one angle out of its range and there is no command. -/
theorem writeAllCommand_of_not_allInRange (h : ¬ AllInRange a1 a2 a3 a4 a5 a6) (time : Half) :
    writeAllCommand a1 a2 a3 a4 a5 a6 time = .error .errRange := by
  unfold writeAllCommand
  split
  · next h1 h2 h3 h4 h5 h6 =>
    exact absurd ⟨inRange_of_toPosition h1, inRange_of_toPosition h2, inRange_of_toPosition h3,
      inRange_of_toPosition h4, inRange_of_toPosition h5, inRange_of_toPosition h6⟩ h
  · rfl

/-- Settles O54: with six positions the frame of their bulk write is sent, without them there is nothing to send. -/
theorem writeAllIsAtomic : Obligations.WriteAllIsAtomic := by
  intro a1 a2 a3 a4 a5 a6 time s hready valid frame
  have hexec : exec (.seqWriteAll a1 a2 a3 a4 a5 a6 time) s = .next (s.writeAll a1 a2 a3 a4 a5 a6 time) :=
    State.asClient_of_ready hready _
  refine ⟨fun hvalid => ?written, fun hinvalid => ?refused⟩
  case written =>
    obtain ⟨l, hwritten, hnext⟩ := s.send_give_written (fmtWriteAll (positionOf 1 a1) (positionOf 2 a2)
      (positionOf 3 a3) (positionOf 4 a4) (positionOf 5 a5) (positionOf 6 a6) time) .done
    rw [fmtWriteAll_eq] at hwritten
    refine ⟨l, hwritten, ?_⟩
    rw [hexec, State.writeAll, writeAllCommand_of_allInRange hvalid, ← hnext]
  case refused =>
    rw [hexec, State.writeAll, writeAllCommand_of_not_allInRange hinvalid]
    rfl

/-- SEQ_WRITE_ONE but for id 0: an id without a servo is refused, the others are the single write. -/
theorem exec_seqWriteOne_of_ne_zero (hready : Ready s) (hid : id.toNat ≠ 0) (angle time : Half) :
    exec (.seqWriteOne id angle time) s = .next (if 6 < id.toNat then s.fail .rangeId else s.writeOne id angle time) := by
  have hnotAll : id ≠ idAll := fun h => hid (congrArg BitVec.toNat h)
  rw [exec, execSeqWriteOne, State.asClient_of_ready hready, if_neg hnotAll]
  rfl

/-- Settles O55: the id decides between the bulk write, a refusal and the single write of a position. -/
theorem writeOneOrAll : Obligations.WriteOneOrAll := by
  intro id angle time s hready frame
  refine ⟨fun h0 => ?all, fun hbig => ?noServo, fun h1 h6 => ?servo⟩
  case all =>
    obtain rfl : id = idAll := BitVec.eq_of_toNat_eq h0
    rfl
  case noServo =>
    rw [exec_seqWriteOne_of_ne_zero hready (by omega), if_pos hbig]
    rfl
  case servo =>
    rw [exec_seqWriteOne_of_ne_zero hready (by omega), if_neg (by omega), State.writeOne]
    refine ⟨fun hin => ?written, fun hout => ?refused⟩
    case written =>
      have hcmd : 0x10#8 + id = BitVec.ofNat 8 (0x10 + id.toNat) := by
        rw [BitVec.ofNat_add, BitVec.ofNat_toNat, BitVec.setWidth_eq]
      obtain ⟨l, hwritten, hnext⟩ := s.send_give_written (fmtWriteOne id (positionOf id.toNat angle) time) .done
      rw [fmtWriteOne_eq, hcmd] at hwritten
      refine ⟨l, hwritten, ?_⟩
      rw [toPosition_of_inRange h1 h6 hin, ← hnext]
    case refused =>
      rw [toPosition_of_not_inRange h1 h6 hout]
      rfl

/-- Settles O56: the torque frame of the setting is sent. -/
theorem setTorqueWritesOneFrame : Obligations.SetTorqueWritesOneFrame := by
  intro on s hready
  obtain ⟨l, hwritten, hnext⟩ := s.send_give_written (fmtTorque (if on then s.par.torqueOn else s.par.torqueOff)) .done
  rw [fmtTorque_eq] at hwritten
  refine ⟨l, hwritten, ?_⟩
  rw [← hnext]
  exact State.asClient_of_ready hready _

end Sys2Proof.Machine
end

section
/-! PROOF. Layer SEQ, the two sequences that await a frame: the whole next state of SEQ_PING, and what the first cycle of
SEQ_READ_ANGLE leads to, each from the write-and-await cycle it runs. From these O57 and O58; with the cycle's transport and
assembler known, O59 and O60. -/

namespace Sys2Proof.Machine

open Sys2Proof.Claims

variable {s : State} {a a' b : Asm} {l l' : Line} {id : Int} {cmd : List Byte} {p : Params} {used rest : List RxAnswer}

/-! ### One write-and-await cycle (R170) -/

/-- The cycle of an exchange, with what it leaves alone; an invocation that has ended has a cause. -/
theorem State.exchange_cycle (cmd : List Byte) (s : State) :
    ∃ l a, s.exchange cmd = .ok ((s.withLine l).withAsm a) ∧ Exchanged cmd s.par s.line s.asm l a
      ∧ SameOutside s ((s.withLine l).withAsm a) ∧ (a.st = .idle → a.res ≠ .rNone) := by
  obtain ⟨l, a, hexchange, hcycle⟩ := s.exchange_exchanged cmd
  obtain ⟨t, hexchange', hkeeps, hran, -⟩ := s.exchange_ran cmd
  cases hexchange.symm.trans hexchange'
  exact ⟨l, a, hexchange, hcycle, hkeeps.outside, hran.ended⟩

/-- A cycle whose invocation goes on has used every answer up. -/
theorem answers_of_exchanged_running (h : Exchanged cmd p l a l' a') (hrun : a'.st ≠ .idle) : answers l' = [] := by
  obtain ⟨w, used, rest, -, -, -, hleft, -, hrest⟩ := h
  rw [hleft, hrest hrun]

/-- A cycle whose command is taken whole (log entry 5): the loop over the answers there are behind the discard of the
unread bytes decides the rest. -/
theorem exchanged_of_run (h : Exchanged cmd p l a l' a') (htx : l.txNext = []) {l0 : Line}
    (hl0 : (if p.flushBeforeCommand then { l with held := [] } else l) = l0) (hu : answers l0 = used ++ rest)
    (hrun : Asm.run p (fun x => x) (answers l0) a.start = .ok (b, rest)) :
    l' = { answered used.length l0 with tx := l.tx ++ framed cmd } ∧ a' = b := by
  obtain ⟨w, used', rest', ⟨hwhole, -⟩, hu', hl', -, hrun', -⟩ := h
  have hkept : l0.txNext = l.txNext ∧ l0.tx = l.tx := by
    rw [← hl0]
    split_ifs
    · exact ⟨rfl, rfl⟩
    · exact ⟨rfl, rfl⟩
  obtain ⟨htxNext, htaken⟩ := hkept
  rw [hl0] at hwhole
  obtain rfl := hwhole (htxNext.trans htx)
  obtain ⟨rfl, rfl⟩ := Prod.ext_iff.mp (Except.ok.inj (hrun.symm.trans hrun'))
  obtain rfl : used = used' := List.append_cancel_right (hu.symm.trans hu')
  rw [← htaken]
  exact ⟨hl', rfl⟩

/-- A cycle that is answered NoData: the command is written, and the invocation times out (R109). -/
theorem exchanged_of_noData (h : Exchanged cmd p l a l' a') (htx : l.txNext = []) (hnext : l.next = .noData :: rest) :
    l' = { l with next := rest, held := if p.flushBeforeCommand then [] else l.held, tx := l.tx ++ framed cmd }
      ∧ a' = { a with st := .idle, res := .rTimeout, ncons := 0 } := by
  have hl0 : (if p.flushBeforeCommand then { l with held := [] } else l)
      = { l with held := if p.flushBeforeCommand then [] else l.held } := by
    split_ifs
    · rfl
    · rfl
  generalize (if p.flushBeforeCommand then [] else l.held) = held at hl0 ⊢
  have hanswers : answers { l with held := held } = [.noData] ++ (rest ++ (leftUnread rest held).map .byte) := by
    simp [answers, hnext, leftUnread]
  have hrun : Asm.run p (fun x => x) (answers { l with held := held }) a.start
      = .ok (a.start.finish .rTimeout, rest ++ (leftUnread rest held).map .byte) := by
    rw [hanswers, List.singleton_append, Asm.run, if_neg (by simp)]
    exact Asm.run_idle _ _ _ _ rfl
  obtain ⟨rfl, rfl⟩ := exchanged_of_run h htx hl0 hanswers hrun
  refine ⟨?_, rfl⟩
  simp [answered, hnext, leftUnread]

/-! ### SEQ_PING (R174) -/

theorem exec_seqPing_of_outside (hready : Ready s) (hid : id < 1 ∨ 250 < id) :
    exec (.seqPing id) s = .next { s with result := .err .rangeId } := by
  rw [exec, execSeqPing, State.asClient_of_ready hready, if_pos (show id < pingIdMin ∨ pingIdMax < id from hid)]
  rfl

/-- SEQ_PING's whole next state: what its cycle leaves, and its return or its wait. -/
theorem exec_seqPing_eq (hready : Ready s) (h1 : 1 ≤ id) (h250 : id ≤ 250) (hs : s.asm.st = .idle)
    (hexchange : s.exchange (fmtPing (BitVec.ofNat 8 id.toNat)) = .ok ((s.withLine l).withAsm a)) :
    exec (.seqPing id) s = .next { s with
      asm := a
      line := l
      call := if a.st = .idle then .none else .ping
      result := if a.st = .idle then pingResult a else .pending } := by
  have hid : ¬ (id < pingIdMin ∨ pingIdMax < id) := by rw [pingIdMin, pingIdMax]; omega
  rw [← idByte_eq id (by omega) (by omega)] at hexchange
  have hexec : exec (.seqPing id) s = outcome ((((s.withLine l).withAsm a).wait .ping).resume) := by
    rw [exec, execSeqPing, State.asClient_of_ready hready, if_neg hid, if_neg (not_not.mpr hs), hexchange]
  rw [hexec]
  by_cases hend : a.st = .idle
  · rw [State.resume_ping hend rfl, if_pos hend, if_pos hend]
    rfl
  · rw [State.resume_running _ hend, if_neg hend, if_neg hend]
    rfl

/-- Settles O57: the id's check, and the cycle of a valid id at its end or at its wait. -/
theorem pingAnswersTheFirstPayloadByte : Obligations.PingAnswersTheFirstPayloadByte := by
  intro id s hready
  refine ⟨exec_seqPing_of_outside hready, fun h1 h250 hs => ?_⟩
  obtain ⟨l, a, hexchange, hcycle, hsame, hcause⟩ := s.exchange_cycle (fmtPing (BitVec.ofNat 8 id.toNat))
  have hexec := exec_seqPing_eq hready h1 h250 hs hexchange
  rw [fmtPing_eq] at hcycle
  obtain ⟨-, hcall⟩ := hready
  refine ⟨_, l, a, hexec, hcycle, fun hend => ⟨hcause hend, ?returned⟩,
    fun hrun => ⟨answers_of_exchanged_running hcycle hrun, ?waiting⟩, hsame⟩
  case returned => rw [if_pos hend, if_pos hend, pingResult_eq, ← hcall]
  case waiting => rw [if_neg hrun, if_neg hrun]

/-! ### SEQ_READ_ANGLE (R176) -/

/-- What TO_ANGLE answers lies in 0 to 270, so that a judged frame gives -1 to 270. -/
theorem angleRead_bounds (p : Params) (id type : Byte) (payload : List Byte) :
    -1 ≤ angleRead p id type payload ∧ angleRead p id type payload ≤ 270 := by
  obtain ⟨-, -, hangles⟩ := mapperLooksUpIncreasingTables
  unfold angleRead
  split_ifs
  · decide
  · decide
  · split
    · next out hout =>
      obtain ⟨h0, h270⟩ := hangles _ _ _ _ hout
      exact ⟨by omega, h270⟩
    · decide

/-- Whatever the cycles meet, the degrees they return are -1 to 270. -/
theorem State.readCycles_degrees_bounds {id : Byte} {n : Nat} {s t : State} {d : Int} (h : s.readCycles id n = .ok t)
    (hd : t.result = .degrees d) : -1 ≤ d ∧ d ≤ 270 := by
  induction n generalizing s with
  | zero =>
    cases h
    cases hd
    decide
  | succ n ih =>
    unfold State.readCycles at h
    split at h
    · cases h
    · next u _ =>
      split_ifs at h
      · cases h
        cases hd
      · cases h
        cases (reportResult_eq u.par id u.asm).symm.trans hd
        exact angleRead_bounds _ _ _ _
      · exact ih h

theorem exec_seqReadAngle_of_outside (hready : Ready s) (hid : id < 1 ∨ 6 < id) :
    exec (.seqReadAngle id) s = .next { s with result := .degrees (-1) } := by
  rw [exec, execSeqReadAngle, State.asClient_of_ready hready, if_pos (show id < 1 ∨ (nServos : Int) < id from hid)]
  rfl

/-- A valid id runs two cycles at most, ATT counted from 0. -/
theorem exec_seqReadAngle_eq_readCycles (hready : Ready s) (h1 : 1 ≤ id) (h6 : id ≤ 6) (hs : s.asm.st = .idle) :
    exec (.seqReadAngle id) s
      = outcome ((s.withSeq { s.seq with att := 0 }).readCycles (BitVec.ofNat 8 id.toNat) 2) := by
  have hid : ¬ (id < 1 ∨ (nServos : Int) < id) := by rw [nServos]; omega
  rw [exec, execSeqReadAngle, State.asClient_of_ready hready, if_neg hid, if_neg (not_not.mpr hs),
    idByte_eq id (by omega) (by omega)]
  rfl

section

variable {servo : Byte} {n : Nat} {t : State}

/-- A cycle whose invocation goes on: the call waits (log entry 8). -/
theorem State.readCycles_of_running
    (hexchange : (s.withSeq { s.seq with att := s.seq.att + 1 }).exchange (fmtReadPos servo) = .ok t)
    (hrun : t.asm.st ≠ .idle) : s.readCycles servo (n + 1) = .ok (t.wait (.readAngle servo)) := by
  simp [State.readCycles, hexchange, hrun]

/-- A cycle that decodes a frame: its judgement is returned. -/
theorem State.readCycles_of_accepted
    (hexchange : (s.withSeq { s.seq with att := s.seq.att + 1 }).exchange (fmtReadPos servo) = .ok t)
    (hend : t.asm.st = .idle) (hok : t.asm.res = .rOk) :
    s.readCycles servo (n + 1) = .ok (t.ret (reportResult t.par servo t.asm)) := by
  simp [State.readCycles, hexchange, hend, hok]

/-- A cycle that fails leads to the others. -/
theorem State.readCycles_of_failed
    (hexchange : (s.withSeq { s.seq with att := s.seq.att + 1 }).exchange (fmtReadPos servo) = .ok t)
    (hend : t.asm.st = .idle) (hfail : t.asm.res ≠ .rOk) : s.readCycles servo (n + 1) = t.readCycles servo n := by
  simp [State.readCycles, hexchange, hend, hfail]

end

/-- R176: a valid id runs a first cycle, and what follows from it. -/
theorem exec_seqReadAngle_cycle (hready : Ready s) (h1 : 1 ≤ id) (h6 : id ≤ 6) (hs : s.asm.st = .idle) :
    ∃ l a, Exchanged (readCommand (BitVec.ofNat 8 id.toNat)) s.par s.line s.asm l a
      ∧ (a.st ≠ .idle → exec (.seqReadAngle id) s = .next { s with
          asm := a
          line := l
          seq := { s.seq with att := 1 }
          call := .readAngle (BitVec.ofNat 8 id.toNat)
          result := .pending })
      ∧ (a.st = .idle → a.res = .rOk → exec (.seqReadAngle id) s = .next { s with
          asm := a
          line := l
          seq := { s.seq with att := 1 }
          result := .degrees (angleRead s.par (BitVec.ofNat 8 id.toNat) a.rtype (payloadOf a)) })
      ∧ (a.st = .idle → a.res ≠ .rOk →
          SecondCycle (BitVec.ofNat 8 id.toNat) s l a (exec (.seqReadAngle id) s)) := by
  rw [exec_seqReadAngle_eq_readCycles hready h1 h6 hs]
  generalize BitVec.ofNat 8 id.toNat = servo
  obtain ⟨-, hcall⟩ := hready
  obtain ⟨l, a, hexchange, hcycle⟩ :=
    (s.withSeq { s.seq with att := 1 }).exchange_exchanged (fmtReadPos servo)
  refine ⟨l, a, hcycle, fun hrun => ?waits, fun hend hok => ?judged, fun hend hfail => ?second⟩
  case waits =>
    rw [State.readCycles_of_running hexchange hrun]
    rfl
  case judged =>
    rw [State.readCycles_of_accepted hexchange hend hok, reportResult_eq, hcall]
    rfl
  case second =>
    rw [State.readCycles_of_failed hexchange hend hfail]
    exact State.readCycles_second servo s l a s.call

/-- Settles O58: the cycles, and what all of them keep. -/
theorem readAngleReturnsAnAngleOrTheSentinel : Obligations.ReadAngleReturnsAnAngleOrTheSentinel := by
  intro id s hready
  refine ⟨exec_seqReadAngle_of_outside hready, fun h1 h6 hs => ?_⟩
  have hcycles := exec_seqReadAngle_eq_readCycles hready h1 h6 hs
  obtain ⟨t, hread, hkeeps, -, hatt, hcounted, -, -, hreturn⟩ :=
    (s.withSeq { s.seq with att := 0 }).readCycles_ran (BitVec.ofNat 8 id.toNat) 2 hs
  rw [hread, outcome_ok] at hcycles
  obtain ⟨l, a, hcycle, hwaits, hjudged, hsecond⟩ := exec_seqReadAngle_cycle hready h1 h6 hs
  rw [hcycles] at hwaits hjudged hsecond
  refine ⟨t, hcycles, hkeeps.outside, hcounted (by decide), hatt, ?_, l, a, hcycle,
    fun hrun => Host.Outcome.next.inj (hwaits hrun), fun hend hok => Host.Outcome.next.inj (hjudged hend hok), hsecond⟩
  obtain ⟨hend, hcall, d, hd⟩ | ⟨hrun, hcall, hpending, hheld, hnext⟩ := hreturn
  · exact .inl ⟨hend, hcall, d, hd, State.readCycles_degrees_bounds hread hd⟩
  · exact .inr ⟨hrun, hcall, hpending, answers_eq_nil.mpr ⟨hheld, hnext⟩⟩

/-- The read command of a servo, its command byte summed as a natural number. -/
theorem readCommand_ofNat (n : Nat) :
    readCommand (BitVec.ofNat 8 n) = [0xFF#8, 0xFC#8, 0x03#8, BitVec.ofNat 8 (0x30 + n)] := by
  rw [BitVec.ofNat_add]
  rfl

/-- Settles O59: the first cycle's assembler holds the frame, and its judgement is returned. -/
theorem readAngleJudgesTheFirstDecodedFrame : Obligations.ReadAngleJudgesTheFirstDecodedFrame := by
  intro s id len type p rest hready hs h1 h6 hlim hflush htx h3 hp hanswers
  obtain ⟨a, hframe, hholds⟩ :=
    Asm.run_incomingFrame (a := s.asm.start) (par := s.par) (type := type) (p := p) (len := len) hlim rfl (by omega)
  have hrun := Asm.run_bytes_then hframe hholds.st rest
  rw [← hanswers] at hrun
  have hlength : ((incomingFrame len type p).map RxAnswer.byte).length = p.length + 5 := by
    rw [List.length_map, incomingFrame_length]
  obtain ⟨l, a', hcycle, -, hjudged, -⟩ :=
    exec_seqReadAngle_cycle (id := id) hready (by omega) (by omega) hs
  obtain ⟨rfl, rfl⟩ := exchanged_of_run hcycle htx (if_neg (by simp [hflush])) hanswers hrun
  have hexec := hjudged hholds.st hholds.res
  have hleft := answers_answered_used hanswers
  have hpayload : payloadOf a' = p := hholds.payload
  rw [Int.toNat_natCast, hlength, readCommand_ofNat, hholds.rtype, hpayload] at hexec
  rw [hlength] at hleft
  exact ⟨a', hexec, hleft, hholds.st, hholds.res, hholds.rlen, hholds.rtype, hpayload⟩

/-- Settles O60: each of the two cycles is answered NoData. -/
theorem readAngleGivesUpAfterTwoSilentCycles : Obligations.ReadAngleGivesUpAfterTwoSilentCycles := by
  intro s id rest hready hs h1 h6 htx hnext f
  obtain ⟨l, a, hcycle, -, -, hsecond⟩ := exec_seqReadAngle_cycle (id := id) hready (by omega) (by omega) hs
  obtain ⟨rfl, rfl⟩ := exchanged_of_noData hcycle htx hnext
  obtain ⟨l, a, hcycle', -, hgivesUp⟩ := hsecond rfl (by simp)
  obtain ⟨rfl, rfl⟩ := exchanged_of_noData hcycle' htx rfl
  obtain ⟨-, hcall⟩ := hready
  have hdiscard (held : List Byte) : (if s.par.flushBeforeCommand then [] else
      if s.par.flushBeforeCommand then [] else held) = if s.par.flushBeforeCommand then [] else held := by
    split_ifs
    · rfl
    · rfl
  rw [hgivesUp rfl, Int.toNat_natCast, readCommand_ofNat, ← hcall]
  simp only [hdiscard]
  rfl

end Sys2Proof.Machine
end
